-- ==== Sys2Proof/Word.lean ====
section
/-! DEFINITION. The data types of the block: 32-bit words, bytes, and the names of the X registers. -/

namespace Sys2Proof

/-- A 32-bit value: a command word, an MMIO register, bus data. Bit 0 is the least significant (R8). -/
abbrev Word := BitVec 32

/-- A byte is 8 bits (R12). -/
abbrev Byte := BitVec 8

/-- The name of one of the 8 X registers X0..X7. Every value of the 3-bit register field is legal (R20, R73). -/
abbrev XReg := Fin 8

end Sys2Proof
end

