-- ==== Sys2Proof/Config.lean ====
section
/-! DEFINITION. What is fixed for one block: its parameters (R6), its identity (R30), and the values the
spec leaves open, as constants without a body. -/

namespace Sys2Proof

/-- The parameters of R6. They are fixed for one block; State carries them so that every statement about all
states holds for all parameters (log 4). -/
structure Params where
  /-- `MAXL`: the largest key and operand byte length. -/
  maxl : Nat
  /-- `ORAM_BYTES`: the size of the operand RAM. -/
  oramBytes : Nat
  /-- `BASE`: the bus address of the 64 KiB window (OPEN, D4). -/
  base : Nat
deriving DecidableEq, Repr

/-- `W = 8*MAXL`, the width in bits of each X register (R6, R20). -/
def Params.width (p : Params) : Nat := 8 * p.maxl

/-- The default values of R6, with BASE at 0 (DESIGN CHOICE, log 4: the spec leaves BASE to the platform). -/
def Params.default : Params := { maxl := 512, oramBytes := 4096, base := 0 }

/-- The identity constant "TKE1" (R30). -/
def Config.idValue : Word := 0x544B4531

/-- Free value (log 7): the integer an unspecified X register holds (U1, U3), one for each draw. -/
opaque Config.freeInt : Nat → Nat

/-- Free value (log 7): the byte an unspecified ORAM byte holds (U2, U3), one for each draw. -/
opaque Config.freeByte : Nat → Byte

end Sys2Proof
end

