-- ==== Sys2Proof/Machine/State.lean ====
section
/-! DEFINITION. The state of the block (10_state.md), its inputs and outputs, the reasons a step can stop, and
the state after power-on reset. -/

namespace Sys2Proof.Machine

open Sys2Proof

/-- The operand RAM: (offset, byte) pairs, offsets strictly rising, no byte equal to what an unlisted
offset reads as (`Memory.wf` in Ops.lean). -/
abbrev Memory := List Host.Cell

/-- The error codes of R205. The codes 0x7 to 0xF are never produced (U8), so they have no constructor. -/
inductive ECode where
  | none
  | illegalCommand
  | invalidParameter
  | rangeError
  | invalidModulus
  | messageTooLong
  | invalidPadding
deriving DecidableEq, Repr

/-- STATUS (R34). -/
structure Status where
  busy : Bool
  done : Bool
  err : Bool
  ovr : Bool
  ecode : ECode
deriving DecidableEq, Repr

/-- FLAGS (R41). -/
structure Flags where
  eq : Bool
  lt : Bool
  gt : Bool
  trunc : Bool
deriving DecidableEq, Repr

/-- The latched command `A` (R24). -/
structure Latch where
  cmd : Word
  addr0 : Word
  addr1 : Word
  len : Word
  klen : Word
deriving DecidableEq, Repr

/-- The width of a bus access: 8, 16 or 32 bits (R50). -/
inductive AccessSize where
  | byte
  | half
  | word
deriving DecidableEq, Repr

/-- One access at the bus slave port, at a bus address (R50, R51): a read, or a write of the given data. -/
structure BusAccess where
  addr : Nat
  size : AccessSize
  wdata : Option Word
deriving DecidableEq, Repr

/-- The response of the port (R50). -/
inductive BusResp where
  | okay
  | error
deriving DecidableEq, Repr

/-- What the port answers to an access: the read data and the response (R50, R55). -/
structure BusAnswer where
  access : BusAccess
  rdata : Word
  resp : BusResp
deriving DecidableEq, Repr

/-- One move of an agent outside the command the engine runs, or of the engine (log 5). -/
inductive Input where
  /-- The host presents a bus access (R64). -/
  | bus (a : BusAccess)
  /-- The engine takes its step on the running command (R244, U5). -/
  | engine
  /-- The RNG source presents one more byte (R62, U4). -/
  | rngByte (b : Byte)
  /-- The reset pin `rst_n` is sampled at this level (R230). -/
  | rstPin (level : Bool)
deriving DecidableEq, Repr

/-- The state of the block with what waits at its ports. -/
structure State where
  /-- MAXL, ORAM_BYTES and BASE (R6); no step changes them. -/
  params : Params
  /-- X0..X7 (R20). -/
  x : Vector Nat 8
  /-- Which X registers a command has written since power-on (R235, U1): the model's own record (log 1). -/
  xWritten : Vector Bool 8
  /-- The operand RAM (R51). -/
  oram : Memory
  /-- CTRL.IE (R33). -/
  ie : Bool
  /-- STATUS (R34). -/
  status : Status
  /-- The latched command (R24); CMD reads back `latch.cmd` (R35). -/
  latch : Latch
  /-- ADDR0 (R36). -/
  addr0 : Word
  /-- ADDR1 (R37). -/
  addr1 : Word
  /-- LEN (R38). -/
  len : Word
  /-- KLEN (R39). -/
  klen : Word
  /-- RES (R40). -/
  res : Word
  /-- FLAGS (R41). -/
  flags : Flags
  /-- The padding bytes the running PADENC has drawn so far (R101, R26). -/
  ps : List Byte
  /-- The reset pin as last sampled: false while the block is in reset (R230). -/
  rstN : Bool
  /-- The bytes the RNG source presents, in order, not yet taken (R62). -/
  rng : List Byte
  /-- The moves still to come (log 5): the model's own field. -/
  inputs : List Input
  /-- ORAM accesses held with wait states, oldest first (R58). -/
  held : List BusAccess
  /-- What the bus port answered in the last step, if an access finished in it (R50). -/
  answer : Option BusAnswer
  /-- How many free values have been drawn (log 7): the model's own field. -/
  freeCount : Nat
deriving DecidableEq, Repr

/-- The reasons a step stops with a fault. No command stops with one. -/
inductive Fault where
  /-- Raised by the step for a bus access whose address lies outside the window BASE..BASE+0xFFFF (R51): the
  block has no such address. Safe: the machine stops (log 13). -/
  | outsideWindow
deriving DecidableEq, Repr

/-- The reasons a step is refused. -/
inductive Refusal where
  /-- Raised by the dispatch for a command that has no meaning yet. Safe: the machine stops. -/
  | notModelled (mnemonic : String)
  /-- Raised by the step for a bus access while `rst_n` is 0: U7 gives it no move (`refuse`). It leaves out what
  the hardware does, which errs toward proving as D31 says, so it counts as unsafe (log 12). -/
  | accessDuringReset
deriving DecidableEq, Repr

def Status.clear : Status := { busy := false, done := false, err := false, ovr := false, ecode := .none }

def Flags.clear : Flags := { eq := false, lt := false, gt := false, trunc := false }

def Latch.clear : Latch := { cmd := 0, addr0 := 0, addr1 := 0, len := 0, klen := 0 }

/-- The block right after power-on reset: the column "Power-on reset" of R44, out of reset and idle (R231).
X registers and ORAM, unspecified there, read as 0 (DESIGN CHOICE, log 1 and 2); the parameters are the
defaults of R6 (log 4); nothing waits at the ports (log 18). -/
def State.reset : State where
  params := Params.default
  x := Vector.replicate 8 0
  xWritten := Vector.replicate 8 false
  oram := []
  ie := false
  status := Status.clear
  latch := Latch.clear
  addr0 := 0
  addr1 := 0
  len := 0
  klen := 0
  res := 0
  flags := Flags.clear
  ps := []
  rstN := true
  rng := []
  inputs := []
  held := []
  answer := none
  freeCount := 0

end Sys2Proof.Machine
end

