-- ==== Sys2Proof/Machine/Ops.lean ====
section
/-! DEFINITION. The named operations over ORAM, the X registers, RES and the command lifecycle: reading and
writing bytes (R11), acceptance (R201), successful completion (R203), error completion (R204), the reset
values (R44), and free values for what a reset leaves unspecified (U1 to U3). -/

namespace Sys2Proof.Machine

open Sys2Proof

/-! ### Operand RAM -/

/-- What an offset that nothing has written reads as. The spec leaves it unspecified (U2); DESIGN CHOICE, log 2. -/
def Memory.unlisted : Byte := 0#8

/-- The canonical form: offsets strictly rising, no entry equal to what an unlisted offset reads as. -/
abbrev Memory.wf (m : Memory) : Prop :=
  m.Pairwise (fun c d => c.1 < d.1) ∧ ∀ c ∈ m, c.2 ≠ Memory.unlisted

/-- `ORAM[a]`. -/
def Memory.read : Memory → Nat → Byte
  | [], _ => Memory.unlisted
  | (k, b) :: m, a => if k = a then b else Memory.read m a

/-- `ORAM[a] <- v`, keeping the canonical form. -/
def Memory.write : Memory → Nat → Byte → Memory
  | [], a, v => if v = Memory.unlisted then [] else [(a, v)]
  | (k, b) :: m, a, v =>
    if a < k then
      if v = Memory.unlisted then (k, b) :: m else (a, v) :: (k, b) :: m
    else if a = k then
      if v = Memory.unlisted then m else (a, v) :: m
    else (k, b) :: Memory.write m a v

/-- `MemRead(a, k)`: k bytes in address order (R11). -/
def Memory.readBytes (m : Memory) (a : Nat) : Nat → List Byte
  | 0 => []
  | k + 1 => m.read a :: Memory.readBytes m (a + 1) k

/-- `MemWrite(a, len(B), B)` (R11). -/
def Memory.writeBytes (m : Memory) (a : Nat) : List Byte → Memory
  | [] => m
  | b :: bs => Memory.writeBytes (m.write a b) (a + 1) bs

/-- The free bytes of draws `c`, `c+1`, …, `c+k-1` (log 7). -/
def freeBytes (c : Nat) : Nat → List Byte
  | 0 => []
  | k + 1 => Config.freeByte c :: freeBytes (c + 1) k

/-! ### X registers, RES, ORAM ranges -/

/-- `x[i]` (R11). -/
def State.readX (s : State) (i : XReg) : Nat := s.x[i]

/-- `x[i] <- v`: whole-register (R11, R22). -/
def State.writeX (s : State) (i : XReg) (v : Nat) : State :=
  { s with x := s.x.set i v, xWritten := s.xWritten.set i true }

/-- `MemWrite(a, len(B), B)` on the block's ORAM (R11). -/
def State.writeOram (s : State) (a : Nat) (bs : List Byte) : State :=
  { s with oram := s.oram.writeBytes a bs }

/-- `RES <- v` (R40). -/
def State.writeRes (s : State) (v : Nat) : State := { s with res := BitVec.ofNat 32 v }

/-- `x[i]` becomes unspecified (U1, U3): one free value below `2^W` (R20, log 7). -/
def State.freeX (s : State) (i : XReg) : State :=
  { s with
    x := s.x.set i (Config.freeInt s.freeCount % 2 ^ s.params.width)
    freeCount := s.freeCount + 1 }

/-- ORAM `[a, a+k)` becomes unspecified (U2, U3): one free value for each byte (log 7). -/
def State.freeOram (s : State) (a k : Nat) : State :=
  { s with oram := s.oram.writeBytes a (freeBytes s.freeCount k), freeCount := s.freeCount + k }

/-! ### The lifecycle of a command -/

/-- Acceptance of the command word `w` (R201): the latches, and STATUS but for OVR. A PADENC starts with no
padding byte drawn (R26, R101). -/
def State.accept (s : State) (w : Word) : State :=
  { s with
    latch := { cmd := w, addr0 := s.addr0, addr1 := s.addr1, len := s.len, klen := s.klen }
    status := { s.status with busy := true, done := false, err := false, ecode := .none }
    ps := [] }

/-- Successful completion (R203): BUSY to 0 and DONE to 1; ERR and ECODE stay as acceptance left them. The
bytes drawn for a PADENC are not kept (R26). -/
def State.complete (s : State) : State :=
  { s with status := { s.status with busy := false, done := true }, ps := [] }

/-- `raise E`: error completion (R204, R212). STATUS records the code; nothing else changes. -/
def State.raise (s : State) (e : ECode) : State :=
  { s with status := { s.status with busy := false, done := true, err := true, ecode := e }, ps := [] }

/-- The end of an error episode by the host (R213): a STATUS write clears the W1C bits written as 1; BUSY and
ECODE do not change (R34). -/
def State.writeStatus (s : State) (d : Word) : State :=
  { s with
    status := { s.status with
      done := s.status.done && !d[1]
      err := s.status.err && !d[2]
      ovr := s.status.ovr && !d[3] } }

/-- What a command or a step answers. -/
abbrev Result := Host.Outcome State Fault Refusal

/-- The end of a command: `raise` with the error its checks found, or its writes and then completion. No write
happens before every check has passed (R11, R203, R204). -/
def conclude (s : State) (err : Option ECode) (written : State) : Result :=
  match err with
  | some e => .next (s.raise e)
  | none => .next written.complete

/-! ### Reset values -/

/-- Every MMIO field, and the latches, at the value R44 gives for either reset. -/
def State.resetMmio (s : State) : State :=
  { s with
    ie := false
    status := Status.clear
    latch := Latch.clear
    addr0 := 0
    addr1 := 0
    len := 0
    klen := 0
    res := 0
    flags := Flags.clear
    ps := [] }

/-- Power-on reset, at a clock edge with `rst_n = 0` (R230, R44): the MMIO fields at their reset values, every
X register and ORAM byte unspecified (U1, U2; free values, log 3), no access held any more (log 9). -/
def State.powerOn (s : State) : State :=
  let t := { s.resetMmio with
    xWritten := Vector.replicate 8 false, oram := [], held := [], rstN := false }
  ((List.finRange 8).foldl State.freeX t).freeOram 0 s.params.oramBytes

end Sys2Proof.Machine
end

