-- ==== Sys2Proof/Machine/Flags.lean ====
section
/-! DEFINITION. The flag computations (R41, R170, R124), the register images of STATUS, FLAGS and CTRL
(R33, R34, R41), the error codes (R205), and the outputs computed from them. -/

namespace Sys2Proof.Machine

open Sys2Proof

/-- EQ, LT and GT of a comparison of a with b; TRUNC is unchanged (R170, R42). -/
def Flags.compare (f : Flags) (a b : Nat) : Flags :=
  { f with eq := decide (a = b), lt := decide (a < b), gt := decide (b < a) }

/-- TRUNC of a store of `v` in `k` bytes: 1 exactly when a non-zero byte is dropped (R124). -/
def Flags.store (f : Flags) (v k : Nat) : Flags := { f with trunc := decide (2 ^ (8 * k) ≤ v) }

/-- Writing FLAGS. -/
def State.writeFlags (s : State) (f : Flags) : State := { s with flags := f }

/-- The ECODE values (R205). -/
def ECode.code : ECode → BitVec 4
  | .none => 0x0
  | .illegalCommand => 0x1
  | .invalidParameter => 0x2
  | .rangeError => 0x3
  | .invalidModulus => 0x4
  | .messageTooLong => 0x5
  | .invalidPadding => 0x6

/-- STATUS as read (R34): ECODE in bits 11:8, OVR, ERR, DONE, BUSY in bits 3:0, the rest 0. -/
def Status.image (st : Status) : Word :=
  0#20 ++ st.ecode.code ++ 0#4 ++ BitVec.ofBool st.ovr ++ BitVec.ofBool st.err ++ BitVec.ofBool st.done ++
    BitVec.ofBool st.busy

/-- FLAGS as read (R41): TRUNC, GT, LT, EQ in bits 3:0, the rest 0. -/
def Flags.image (f : Flags) : Word :=
  0#28 ++ BitVec.ofBool f.trunc ++ BitVec.ofBool f.gt ++ BitVec.ofBool f.lt ++ BitVec.ofBool f.eq

/-- CTRL as read (R33): IE in bit 0; SRST and the reserved bits read 0. -/
def ctrlImage (ie : Bool) : Word := 0#31 ++ BitVec.ofBool ie

/-- The interrupt output (R210). -/
def State.irq (s : State) : Bool := s.ie && (s.status.done || s.status.ovr)

end Sys2Proof.Machine
end

