-- ==== Sys2Proof/Syntax.lean ====
section
/-! DEFINITION. The commands of the TKE-RSA command set, version 1: one constructor per row of R74. -/

namespace Sys2Proof

/-- A command. The arguments are its operand fields in the order its format lists them (R72, R77). -/
inductive Instr where
  /-- No operation (R172). -/
  | nop
  /-- Load bytes as an unsigned big-endian integer (R120). -/
  | ldn (rd : XReg)
  /-- Store an integer as a canonical byte array (R124). -/
  | stn (ra : XReg)
  /-- Register copy (R171). -/
  | mov (rd ra : XReg)
  /-- Full-precision unsigned comparison (R170). -/
  | cmp (ra rb : XReg)
  /-- Bit length (R125). -/
  | bitlen (ra : XReg)
  /-- Byte length L (R126). -/
  | bytelen (ra : XReg)
  /-- Modular exponentiation (R127). -/
  | modexp (rd ra rb rn : XReg)
  /-- Montgomery product (R151). -/
  | montmul (rd ra rb rn : XReg)
  /-- Into the Montgomery domain (R152). -/
  | montin (rd ra rn : XReg)
  /-- Out of the Montgomery domain (R153). -/
  | montout (rd ra rn : XReg)
  /-- PKCS#1 v1.5 block encode (R100). -/
  | padenc
  /-- PKCS#1 v1.5 block decode (R104). -/
  | paddec
  /-- RSA encrypt pipeline (R129). -/
  | rsaenc (rb rn : XReg)
  /-- RSA decrypt pipeline (R130). -/
  | rsadec (rb rn : XReg)
deriving DecidableEq, Repr

end Sys2Proof
end

