-- ==== Sys2Proof/WellFormed.lean ====
section
/-! DEFINITION. What is well formed: the parameters of a block (R6), and a command word by its fields and
format (R71, R72, R75). The word check is written from the format table, apart from the decoder, which is
written from the match and mask columns; that the two agree is a statement of the certificate.
A term of `Instr` needs no check: its register fields are `XReg`, and every value of one is legal (R73). -/

namespace Sys2Proof

/-- The constraints of R6 on the parameters of one block. -/
abbrev Params.WellFormed (p : Params) : Prop :=
  256 ≤ p.maxl ∧ p.maxl ≤ 4096 ∧ 2 * p.maxl ≤ p.oramBytes ∧ p.oramBytes ≤ 0xF000 ∧ p.base % 0x10000 = 0

/-- The eight formats of R72. -/
inductive Format where
  | fN | fD | fA | fDA | fAB | fDAN | fDABN | fBN
deriving DecidableEq, Repr

/-- Whether a format has the operand field `rd`, `ra`, `rb`, `rn` (R72, column "Operand fields"). -/
def Format.hasRd : Format → Bool
  | .fD | .fDA | .fDAN | .fDABN => true
  | .fN | .fA | .fAB | .fBN => false

def Format.hasRa : Format → Bool
  | .fA | .fDA | .fAB | .fDAN | .fDABN => true
  | .fN | .fD | .fBN => false

def Format.hasRb : Format → Bool
  | .fAB | .fDABN | .fBN => true
  | .fN | .fD | .fA | .fDA | .fDAN => false

def Format.hasRn : Format → Bool
  | .fDAN | .fDABN | .fBN => true
  | .fN | .fD | .fA | .fDA | .fAB => false

/-- The format of each assigned opcode; no format for an unassigned one (R74, R75). -/
def formatOfOp (op : Nat) : Option Format :=
  match op with
  | 0x00 => some .fN
  | 0x01 => some .fD
  | 0x02 => some .fA
  | 0x03 => some .fDA
  | 0x04 => some .fAB
  | 0x05 => some .fA
  | 0x06 => some .fA
  | 0x10 => some .fDABN
  | 0x11 => some .fDABN
  | 0x12 => some .fDAN
  | 0x13 => some .fDAN
  | 0x20 => some .fN
  | 0x21 => some .fN
  | 0x30 => some .fBN
  | 0x31 => some .fBN
  | _ => none

/-- The fields of a command word (R71), as numbers. -/
def wordOp (w : Word) : Nat := w.toNat / 2 ^ 24
def wordRd (w : Word) : Nat := w.toNat / 2 ^ 21 % 8
def wordRa (w : Word) : Nat := w.toNat / 2 ^ 18 % 8
def wordRb (w : Word) : Nat := w.toNat / 2 ^ 15 % 8
def wordRn (w : Word) : Nat := w.toNat / 2 ^ 12 % 8
def wordRsv (w : Word) : Nat := w.toNat % 2 ^ 12

/-- First condition of R75, negated: the opcode is one of the 15. -/
def wordOpAssigned (w : Word) : Bool := (formatOfOp (wordOp w)).isSome

/-- Second condition of R75, negated: every field its format marks must-be-zero is zero. -/
def wordFieldsZero (w : Word) : Bool :=
  match formatOfOp (wordOp w) with
  | none => true
  | some f =>
    (f.hasRd || wordRd w == 0) && (f.hasRa || wordRa w == 0) &&
      (f.hasRb || wordRb w == 0) && (f.hasRn || wordRn w == 0)

/-- Third condition of R75, negated: `rsv` is zero. -/
def wordRsvZero (w : Word) : Bool := wordRsv w == 0

/-- A word that is not illegal by R75. -/
def wordWellFormed (w : Word) : Bool := wordOpAssigned w && wordFieldsZero w && wordRsvZero w

end Sys2Proof
end

