-- ==== Sys2Proof/Decode.lean ====
section
/-! DEFINITION. The decoder (R76), written from the match and mask columns of R74, and the encoder, written
from the word formula of R74. -/

namespace Sys2Proof

/-- The 3-bit register field of a word whose lowest bit is `lo` (R71, R73). -/
def regField (w : Word) (lo : Nat) : XReg := ⟨w.toNat / 2 ^ lo % 8, Nat.mod_lt _ (by decide)⟩

/-- One row of the opcode map (R74): its match, its mask, and the command its fields rd, ra, rb, rn give. -/
structure OpRow where
  value : Word
  mask : Word
  build : XReg → XReg → XReg → XReg → Instr

/-- The opcode map (R74), row by row. -/
def opRows : List OpRow := [
  ⟨0x00000000, 0xFFFFFFFF, fun _ _ _ _ => .nop⟩,
  ⟨0x01000000, 0xFF1FFFFF, fun rd _ _ _ => .ldn rd⟩,
  ⟨0x02000000, 0xFFE3FFFF, fun _ ra _ _ => .stn ra⟩,
  ⟨0x03000000, 0xFF03FFFF, fun rd ra _ _ => .mov rd ra⟩,
  ⟨0x04000000, 0xFFE07FFF, fun _ ra rb _ => .cmp ra rb⟩,
  ⟨0x05000000, 0xFFE3FFFF, fun _ ra _ _ => .bitlen ra⟩,
  ⟨0x06000000, 0xFFE3FFFF, fun _ ra _ _ => .bytelen ra⟩,
  ⟨0x10000000, 0xFF000FFF, fun rd ra rb rn => .modexp rd ra rb rn⟩,
  ⟨0x11000000, 0xFF000FFF, fun rd ra rb rn => .montmul rd ra rb rn⟩,
  ⟨0x12000000, 0xFF038FFF, fun rd ra _ rn => .montin rd ra rn⟩,
  ⟨0x13000000, 0xFF038FFF, fun rd ra _ rn => .montout rd ra rn⟩,
  ⟨0x20000000, 0xFFFFFFFF, fun _ _ _ _ => .padenc⟩,
  ⟨0x21000000, 0xFFFFFFFF, fun _ _ _ _ => .paddec⟩,
  ⟨0x30000000, 0xFFFC0FFF, fun _ _ rb rn => .rsaenc rb rn⟩,
  ⟨0x31000000, 0xFFFC0FFF, fun _ _ rb rn => .rsadec rb rn⟩ ]

/-- Why a word is illegal (R75). All three end alike, with IllegalCommand; where several hold, the first in
R75's order is named (DESIGN CHOICE, log 21; the name reaches no state). -/
inductive DecodeError where
  /-- `op` is not one of the 15 opcodes. -/
  | unassignedOpcode
  /-- A register field its format marks must-be-zero is non-zero. -/
  | fieldNotZero
  /-- `rsv` is non-zero. -/
  | rsvNotZero
deriving DecidableEq, Repr

/-- The loop of R76: the first row the word matches. -/
def decodeIn (w : Word) : List OpRow → Option Instr
  | [] => none
  | r :: rs =>
    if w &&& r.mask = r.value then
      some (r.build (regField w 21) (regField w 18) (regField w 15) (regField w 12))
    else decodeIn w rs

/-- The name of the reason a word that matches no row is illegal. -/
def illegalReason (w : Word) : DecodeError :=
  if !wordOpAssigned w then .unassignedOpcode
  else if !wordFieldsZero w then .fieldNotZero
  else .rsvNotZero

/-- The decoder of R76, total on every 32-bit word. -/
def decode (w : Word) : Except DecodeError Instr :=
  match decodeIn w opRows with
  | some i => .ok i
  | none => .error (illegalReason w)

/-- `op<<24 | rd<<21 | ra<<18 | rb<<15 | rn<<12` (R74); the fields do not overlap, so the sum is the or. -/
def packWord (op : Nat) (rd ra rb rn : XReg) : Word :=
  BitVec.ofNat 32
    (op * 2 ^ 24 + rd.val * 2 ^ 21 + ra.val * 2 ^ 18 + rb.val * 2 ^ 15 + rn.val * 2 ^ 12)

/-- The word of a command, each unused field 0 (R74). -/
def encode : Instr → Word
  | .nop => packWord 0x00 0 0 0 0
  | .ldn rd => packWord 0x01 rd 0 0 0
  | .stn ra => packWord 0x02 0 ra 0 0
  | .mov rd ra => packWord 0x03 rd ra 0 0
  | .cmp ra rb => packWord 0x04 0 ra rb 0
  | .bitlen ra => packWord 0x05 0 ra 0 0
  | .bytelen ra => packWord 0x06 0 ra 0 0
  | .modexp rd ra rb rn => packWord 0x10 rd ra rb rn
  | .montmul rd ra rb rn => packWord 0x11 rd ra rb rn
  | .montin rd ra rn => packWord 0x12 rd ra 0 rn
  | .montout rd ra rn => packWord 0x13 rd ra 0 rn
  | .padenc => packWord 0x20 0 0 0 0
  | .paddec => packWord 0x21 0 0 0 0
  | .rsaenc rb rn => packWord 0x30 0 0 rb rn
  | .rsadec rb rn => packWord 0x31 0 0 rb rn

/-- The row of R74 a command belongs to, by its place in the table. -/
def rowIndex : Instr → Nat
  | .nop => 0
  | .ldn _ => 1
  | .stn _ => 2
  | .mov _ _ => 3
  | .cmp _ _ => 4
  | .bitlen _ => 5
  | .bytelen _ => 6
  | .modexp _ _ _ _ => 7
  | .montmul _ _ _ _ => 8
  | .montin _ _ _ => 9
  | .montout _ _ _ => 10
  | .padenc => 11
  | .paddec => 12
  | .rsaenc _ _ => 13
  | .rsadec _ _ => 14

/-- The 32-bit word of a table row's bits: every bit above `nbits` is 0. -/
def tableWord (nbits w : Nat) : Word := BitVec.ofNat 32 (w % 2 ^ nbits)

/-- What the decoder reads from a word numbered as spec/opcode_table.json numbers it. A command is one
32-bit word (R70), so there is no byte order to choose. -/
def decodeTableWord (nbits w : Nat) : Option Instr :=
  match decode (tableWord nbits w) with
  | .ok i => some i
  | .error _ => none

end Sys2Proof
end

