-- ==== Sys2Proof/Machine/Arith.lean ====
section
/-! DEFINITION. The functions of R10 and the modular arithmetic of R127 and R150 to R153, on exact integers
(R9) and byte sequences (R12). Sys2Proof/Laws/Arith.lean proves what each computes. -/

namespace Sys2Proof.Machine

/-- `bitLength(v)`: 0 for 0, else the unique k with `2^(k-1) ≤ v < 2^k` (R10). -/
def bitLength (v : Nat) : Nat := if v = 0 then 0 else Nat.log2 v + 1

/-- `L(v) = ceil(bitLength(v) / 8)` (R10). -/
def byteLength (v : Nat) : Nat := (bitLength v + 7) / 8

/-- `be(B)`: bytes as an unsigned big-endian integer; `be(empty) = 0` (R10, R53). -/
def beValue (bs : List Byte) : Nat := bs.foldl (fun acc b => acc * 256 + b.toNat) 0

/-- `canon(v, k)`: byte i is `(v >> 8*(k-1-i)) & 0xFF` (R10, R122). -/
def canonBytes (v : Nat) : Nat → List Byte
  | 0 => []
  | k + 1 => BitVec.ofNat 8 (v / 2 ^ (8 * k)) :: canonBytes v k

/-- `ValidMod(n)`: odd and above 1 (R10). -/
def validMod (n : Nat) : Bool := n % 2 == 1 && decide (1 < n)

/-- The bits of e from the most significant of the lowest `k` down to bit 0. -/
def bitsDown (e : Nat) : Nat → List Bool
  | 0 => []
  | k + 1 => (e / 2 ^ k % 2 == 1) :: bitsDown e k

/-- One step of left-to-right square-and-multiply. -/
def sqMulStep (a n acc : Nat) (bit : Bool) : Nat :=
  if bit then acc * acc % n * a % n else acc * acc % n

/-- `a^e mod n` without forming the full power (R127, R128). -/
def powMod (a e n : Nat) : Nat := (bitsDown e (bitLength e)).foldl (sqMulStep (a % n) n) (1 % n)

/-- The Montgomery radix `R = 2^(8*L(n))` (R150). -/
def montR (n : Nat) : Nat := 2 ^ (8 * byteLength n)

/-- `R⁻¹` mod n (R150), reached as the power of the inverse `(n+1)/2` of 2: n is odd (DEDUCED, log 17). -/
def montRInv (n : Nat) : Nat := powMod ((n + 1) / 2) (8 * byteLength n) n

end Sys2Proof.Machine
end

