-- ==== Sys2Proof/Machine/Operands.lean ====
section
/-! DEFINITION. The operand forms: the scalar operands from the latches (R73), the ORAM operands of R11, the
padding bytes from the RNG port (R101), and which registers each command names (R20). -/

namespace Sys2Proof.Machine

open Sys2Proof

/-! ### Scalar operands (R73): zero-extended to unbounded integers, so sums do not wrap (R9) -/

/-- `A.addr0`, the source offset. -/
def State.aAddr0 (s : State) : Nat := s.latch.addr0.toNat

/-- `A.addr1`, the destination offset. -/
def State.aAddr1 (s : State) : Nat := s.latch.addr1.toNat

/-- `A.len`, the source length. -/
def State.aLen (s : State) : Nat := s.latch.len.toNat

/-- `A.klen`, the key byte length L. -/
def State.aKlen (s : State) : Nat := s.latch.klen.toNat

/-! ### ORAM operand -/

/-- The source operand `MemRead(A.addr0, A.len)`. -/
def State.sourceBytes (s : State) : List Byte := s.oram.readBytes s.aAddr0 s.aLen

/-! ### Padding bytes -/

/-- `k = A.klen - A.len - 3`, the number of padding bytes of a PADENC (R100). -/
def State.psCount (s : State) : Nat := s.aKlen - s.aLen - 3

/-- Takes bytes from the RNG stream until `k` non-zero ones are drawn or the stream ends (R101): a zero byte is
discarded, and nothing is taken beyond the k-th non-zero byte. The drawn bytes, then the bytes left. -/
def drawPs : Nat → List Byte → List Byte × List Byte
  | 0, bs => ([], bs)
  | _ + 1, [] => ([], [])
  | k + 1, b :: bs =>
    if b = 0#8 then drawPs (k + 1) bs
    else ((b :: (drawPs k bs).1), (drawPs k bs).2)

/-! ### Register operands (R20) -/

/-- The X register a command writes (field `rd`), if any. -/
def destX : Instr → Option XReg
  | .ldn rd => some rd
  | .mov rd _ => some rd
  | .modexp rd _ _ _ => some rd
  | .montmul rd _ _ _ => some rd
  | .montin rd _ _ => some rd
  | .montout rd _ _ => some rd
  | .nop | .stn _ | .cmp _ _ | .bitlen _ | .bytelen _ | .padenc | .paddec | .rsaenc _ _ | .rsadec _ _ => none

/-- The X registers a command reads (fields `ra`, `rb`, `rn`). -/
def sourceX : Instr → List XReg
  | .nop | .ldn _ | .padenc | .paddec => []
  | .stn ra => [ra]
  | .mov _ ra => [ra]
  | .cmp ra rb => [ra, rb]
  | .bitlen ra => [ra]
  | .bytelen ra => [ra]
  | .modexp _ ra rb rn => [ra, rb, rn]
  | .montmul _ ra rb rn => [ra, rb, rn]
  | .montin _ ra rn => [ra, rn]
  | .montout _ ra rn => [ra, rn]
  | .rsaenc rb rn => [rb, rn]
  | .rsadec rb rn => [rb, rn]

/-- The ORAM range `(start, length)` a command may write: the destination column of R233. -/
def destOram (s : State) : Instr → Option (Nat × Nat)
  | .stn _ => some (s.aAddr1, s.aLen)
  | .padenc => some (s.aAddr1, s.aKlen)
  | .paddec => some (s.aAddr1, s.aKlen)
  | .rsaenc _ rn => some (s.aAddr1, byteLength (s.readX rn))
  | .rsadec _ rn => some (s.aAddr1, byteLength (s.readX rn))
  | .nop | .ldn _ | .mov _ _ | .cmp _ _ | .bitlen _ | .bytelen _ | .modexp _ _ _ _ | .montmul _ _ _ _
  | .montin _ _ _ | .montout _ _ _ => none

end Sys2Proof.Machine
end

