-- ==== Sys2Proof/Machine/Checks.lean ====
section
/-! DEFINITION. The checks of R206, each command's in the order of that rule: the error a command raises, or
`none` where it raises none. IllegalCommand comes before all of them, in the engine step (Engine.lean). -/

namespace Sys2Proof.Machine

open Sys2Proof

/-- The error of the first check that fails. -/
def firstError : List (Bool × ECode) → Option ECode
  | [] => none
  | (failed, e) :: cs => if failed then some e else firstError cs

/-- Check 2 of R206 on `A.len`: it exceeds MAXL. -/
def State.lenTooLong (s : State) : Bool := decide (s.params.maxl < s.aLen)

/-- Check 2 of R206 on `A.klen`. -/
def State.klenTooLong (s : State) : Bool := decide (s.params.maxl < s.aKlen)

/-- Check 3 of R206: the range `[start, start+k)` runs past the ORAM, computed without wrap. -/
def State.rangeBad (s : State) (start k : Nat) : Bool := decide (s.params.oramBytes < start + k)

/-- The checks of LDN (R120). -/
def ldnError (s : State) : Option ECode :=
  firstError [(s.lenTooLong, .invalidParameter), (s.rangeBad s.aAddr0 s.aLen, .rangeError)]

/-- The checks of STN (R124). -/
def stnError (s : State) : Option ECode :=
  firstError [(s.lenTooLong, .invalidParameter), (s.rangeBad s.aAddr1 s.aLen, .rangeError)]

/-- The check of MODEXP, MONTMUL, MONTIN and MONTOUT on the modulus (R127, R151 to R153). -/
def modulusError (n : Nat) : Option ECode := firstError [(!validMod n, .invalidModulus)]

/-- The checks of RSAENC and RSADEC with modulus n (R129, R130). -/
def rsaError (s : State) (n : Nat) : Option ECode :=
  firstError [
    (s.lenTooLong, .invalidParameter),
    (s.rangeBad s.aAddr0 s.aLen || s.rangeBad s.aAddr1 (byteLength n), .rangeError),
    (!validMod n, .invalidModulus)]

/-- The checks of PADENC (R100). -/
def padencError (s : State) : Option ECode :=
  firstError [
    (s.lenTooLong || s.klenTooLong, .invalidParameter),
    (s.rangeBad s.aAddr0 s.aLen || s.rangeBad s.aAddr1 s.aKlen, .rangeError),
    (decide (s.aKlen < s.aLen + 11), .messageTooLong)]

/-- The least index from `i` on whose byte is 0x00, in bytes that start at index `i` (R104). -/
def zeroIndexFrom (i : Nat) : List Byte → Option Nat
  | [] => none
  | b :: bs => if b = 0#8 then some i else zeroIndexFrom (i + 1) bs

/-- The separator of a block: the least `i ≥ 2` with `B[i] = 0x00` (R104). -/
def separator (block : List Byte) : Option Nat := zeroIndexFrom 2 (block.drop 2)

/-- The sub-checks of InvalidPadding on the block read, in the order of R206. -/
def paddingBad (s : State) (block : List Byte) : Bool :=
  decide (s.aLen ≠ s.aKlen) || decide (s.aLen < 2) ||
    (decide (block[0]? ≠ some 0#8) || decide (block[1]? ≠ some 2#8)) || (separator block).isNone

/-- The checks of PADDEC (R104). -/
def paddecError (s : State) : Option ECode :=
  firstError [
    (s.lenTooLong || s.klenTooLong, .invalidParameter),
    (s.rangeBad s.aAddr0 s.aLen || s.rangeBad s.aAddr1 s.aKlen, .rangeError),
    (paddingBad s s.sourceBytes, .invalidPadding)]

/-- The error the checks of R206 give a command in a state. -/
def checkError (s : State) : Instr → Option ECode
  | .nop | .mov _ _ | .cmp _ _ | .bitlen _ | .bytelen _ => none
  | .ldn _ => ldnError s
  | .stn _ => stnError s
  | .modexp _ _ _ rn => modulusError (s.readX rn)
  | .montmul _ _ _ rn => modulusError (s.readX rn)
  | .montin _ _ rn => modulusError (s.readX rn)
  | .montout _ _ rn => modulusError (s.readX rn)
  | .padenc => padencError s
  | .paddec => paddecError s
  | .rsaenc _ rn => rsaError s (s.readX rn)
  | .rsadec _ rn => rsaError s (s.readX rn)

/-- The errors besides IllegalCommand each command can raise (R207). -/
def canRaise : Instr → List ECode
  | .nop | .mov _ _ | .cmp _ _ | .bitlen _ | .bytelen _ => []
  | .ldn _ | .stn _ => [.invalidParameter, .rangeError]
  | .modexp _ _ _ _ | .montmul _ _ _ _ | .montin _ _ _ | .montout _ _ _ => [.invalidModulus]
  | .padenc => [.invalidParameter, .rangeError, .messageTooLong]
  | .paddec => [.invalidParameter, .rangeError, .invalidPadding]
  | .rsaenc _ _ | .rsadec _ _ => [.invalidParameter, .rangeError, .invalidModulus]

end Sys2Proof.Machine
end

