-- ==== Sys2Proof/Machine/Reset.lean ====
section
/-! DEFINITION. A command ended by a reset (R233) and the soft reset (R232). -/

namespace Sys2Proof.Machine

open Sys2Proof

/-- The destination of the aborted command `i` becomes unspecified (R233, U3). -/
def State.abortDest (s : State) (i : Instr) : State :=
  match destX i with
  | some rd => s.freeX rd
  | none =>
    match destOram s i with
    | some (a, k) => s.freeOram a k
    | none => s

/-- What a reset does to the destination of the command that runs: nothing when none runs, nothing when the
command would have raised an error (R233), else its destination becomes unspecified (log 15, 19). -/
def State.abort (s : State) : State :=
  if s.status.busy then
    match decode s.latch.cmd with
    | .error _ => s
    | .ok i => if (checkError s i).isSome then s else s.abortDest i
  else s

/-- Soft reset (R232): the running command ends without completion and every MMIO field takes its value of R44.
X registers and ORAM are kept but for `abort`; held accesses stay to be performed on the state this leaves. -/
def State.softReset (s : State) : State := s.abort.resetMmio

end Sys2Proof.Machine
end

