-- ==== Sys2Proof/Machine/Bus.lean ====
section
/-! DEFINITION. The bus slave port: the window map (R52), the MMIO registers (R30 to R41), ORAM accesses (R54,
R56), bus errors (R55, R208) and holding (R58). -/

namespace Sys2Proof.Machine

open Sys2Proof

/-! ### The window -/

/-- The parts of the bus window (R52). -/
inductive Region where
  /-- Registers and the reserved space up to 0x0FFF. -/
  | regs
  | oram
  /-- The reserved space above the ORAM. -/
  | above
deriving DecidableEq, Repr

/-- Where an offset of the window lies (R52). -/
def regionOf (p : Params) (off : Nat) : Region :=
  if off < 0x1000 then .regs else if off < 0x1000 + p.oramBytes then .oram else .above

/-- The bytes an access covers (R50). -/
def AccessSize.bytes : AccessSize → Nat
  | .byte => 1
  | .half => 2
  | .word => 4

/-- Whether an access at this window offset and size gets the OKAY response: an aligned 32-bit access in the
register space (R55), a naturally aligned access elsewhere (R52, R56). -/
def accessOk (p : Params) (off : Nat) (sz : AccessSize) : Bool :=
  match regionOf p off with
  | .regs => decide (sz = .word) && decide (off % 4 = 0)
  | .oram | .above => decide (off % sz.bytes = 0)

/-- Whether a bus address lies in the block's window (R51). -/
def inWindow (p : Params) (addr : Nat) : Bool := decide (p.base ≤ addr) && decide (addr < p.base + 0x10000)

/-- The window offset of a bus address. -/
def busOffset (p : Params) (a : BusAccess) : Nat := a.addr - p.base

/-- The ORAM offset of a window offset (R51: ORAM byte `a` stands at `BASE + 0x1000 + a`). -/
def oramOffset (off : Nat) : Nat := off - 0x1000

/-! ### Registers -/

/-- The value a register read returns (R30 to R41); a reserved offset reads 0 (R52). Reads have no side effect
(R57). -/
def State.readReg (s : State) (off : Nat) : Word :=
  match off with
  | 0x000 => Config.idValue
  | 0x004 => BitVec.ofNat 32 s.params.maxl
  | 0x008 => BitVec.ofNat 32 s.params.oramBytes
  | 0x00C => ctrlImage s.ie
  | 0x010 => s.status.image
  | 0x014 => s.latch.cmd
  | 0x018 => s.addr0
  | 0x01C => s.addr1
  | 0x020 => s.len
  | 0x024 => s.klen
  | 0x028 => s.res
  | 0x02C => s.flags.image
  | _ => 0

/-- A CTRL write: SRST = 1 resets the block at once, whatever is written to IE beside it; else IE is written
(R33, R232). -/
def State.writeCtrl (s : State) (d : Word) : State :=
  if d[1] then { s with ie := d[0] }.softReset else { s with ie := d[0] }

/-- A CMD write: accepted while BUSY = 0, else dropped with OVR set (R35, R240). -/
def State.writeCmd (s : State) (w : Word) : State :=
  if s.status.busy then { s with status := { s.status with ovr := true } } else s.accept w

/-- A register write (R33 to R39). Writes to ID, CAP_MAXL, CAP_ORAM, RES, FLAGS and reserved offsets are
ignored (R30 to R32, R40, R41, R52). -/
def State.writeReg (s : State) (off : Nat) (d : Word) : State :=
  match off with
  | 0x00C => s.writeCtrl d
  | 0x010 => s.writeStatus d
  | 0x014 => s.writeCmd d
  | 0x018 => { s with addr0 := d }
  | 0x01C => { s with addr1 := d }
  | 0x020 => { s with len := d }
  | 0x024 => { s with klen := d }
  | _ => s

/-! ### ORAM by bus -/

/-- ORAM byte `a` as the bus reads it: 0 past the end of the ORAM, where the window is reserved (R52; log 10). -/
def State.busByte (s : State) (a : Nat) : Byte := if a < s.params.oramBytes then s.oram.read a else 0#8

/-- The data of a read of `k` bytes at ORAM offset `a`: the byte at the lowest offset in bits 7:0 (R54); the
bits above the access are 0 (log 11). -/
def State.busRead (s : State) (a : Nat) : Nat → Nat
  | 0 => 0
  | k + 1 => (s.busByte a).toNat + 256 * State.busRead s (a + 1) k

/-- The bytes of write data, lowest lane first (R54). That an 8-bit write carries its byte in data bits 7:0, whatever
its offset, is the model's choice (log 11): R54 gives the lanes of 16-bit and 32-bit accesses. -/
def lanes (d : Nat) : Nat → List Byte
  | 0 => []
  | k + 1 => BitVec.ofNat 8 d :: lanes (d / 256) k

/-- The bytes that fall inside the ORAM when stored from offset `a` on. -/
def State.insideOram (s : State) (a : Nat) : List Byte → List Byte
  | [] => []
  | b :: bs => if a < s.params.oramBytes then b :: State.insideOram s (a + 1) bs else []

/-- An ORAM write of `k` bytes at offset `a`; lanes past the end of the ORAM are ignored (R52; log 10). -/
def State.busWrite (s : State) (a : Nat) (d : Word) (k : Nat) : State :=
  s.writeOram a (s.insideOram a (lanes d.toNat k))

/-! ### Accesses -/

/-- Whether the port holds an access with wait states: an ORAM access while BUSY = 1 (R58). -/
def State.holds (s : State) (a : BusAccess) : Bool :=
  s.status.busy && decide (regionOf s.params (busOffset s.params a) = .oram)

/-- The read data of an access that gets OKAY. -/
def State.accessData (s : State) (a : BusAccess) : Word :=
  let off := busOffset s.params a
  match regionOf s.params off with
  | .regs => s.readReg off
  | .oram => BitVec.ofNat 32 (s.busRead (oramOffset off) a.size.bytes)
  | .above => 0

/-- The effect of a write access that gets OKAY. -/
def State.accessWrite (s : State) (a : BusAccess) (d : Word) : State :=
  let off := busOffset s.params a
  match regionOf s.params off with
  | .regs => s.writeReg off d
  | .oram => s.busWrite (oramOffset off) d a.size.bytes
  | .above => s

/-- One access performed: ERROR changes nothing and reads 0 (R55, R56, R208); a read changes nothing (R57). The
answer to a write carries data 0 (log 11). -/
def State.performAccess (s : State) (a : BusAccess) : State :=
  if accessOk s.params (busOffset s.params a) a.size then
    match a.wdata with
    | none => { s with answer := some ⟨a, s.accessData a, .okay⟩ }
    | some d => { s.accessWrite a d with answer := some ⟨a, 0, .okay⟩ }
  else { s with answer := some ⟨a, 0, .error⟩ }

/-- An access arrives at the port: outside the window the block is not there (log 13), in reset it gets no move
(U7), while BUSY an ORAM access is held (R58), else it is performed (R59). -/
def busArrives (s : State) (a : BusAccess) : Result :=
  if !s.rstN then .refused .accessDuringReset
  else if !inWindow s.params a.addr then .fault .outsideWindow
  else if s.holds a then .next { s with held := s.held ++ [a] }
  else .next (s.performAccess a)

end Sys2Proof.Machine
end

