-- ==== Sys2Proof/Machine/Compare.lean ====
section
/-! DEFINITION. The meanings of CMP, BITLEN and BYTELEN (R125, R126, R170). -/

namespace Sys2Proof.Machine

open Sys2Proof

/-- CMP: EQ, LT, GT of the full values (R170). -/
def execCmp (ra rb : XReg) (s : State) : Result :=
  conclude s none (s.writeFlags (s.flags.compare (s.readX ra) (s.readX rb)))

/-- BITLEN: `RES <- bitLength(x[ra])` (R125). -/
def execBitlen (ra : XReg) (s : State) : Result := conclude s none (s.writeRes (bitLength (s.readX ra)))

/-- BYTELEN: `RES <- L(x[ra])` (R126). -/
def execBytelen (ra : XReg) (s : State) : Result := conclude s none (s.writeRes (byteLength (s.readX ra)))

end Sys2Proof.Machine
end

