-- ==== Sys2Proof/Machine/DataMove.lean ====
section
/-! DEFINITION. The meanings of NOP, LDN, STN and MOV (R120, R124, R171, R172). -/

namespace Sys2Proof.Machine

open Sys2Proof

/-- NOP: the lifecycle and nothing else (R172). -/
def execNop (s : State) : Result := conclude s none s

/-- LDN: `x[rd] <- be(MemRead(A.addr0, A.len))` (R120, R121). -/
def execLdn (rd : XReg) (s : State) : Result :=
  conclude s (ldnError s) (s.writeX rd (beValue s.sourceBytes))

/-- STN: `MemWrite(A.addr1, A.len, canon(x[ra], A.len))` and TRUNC (R122, R124). -/
def execStn (ra : XReg) (s : State) : Result :=
  conclude s (stnError s)
    ((s.writeOram s.aAddr1 (canonBytes (s.readX ra) s.aLen)).writeFlags (s.flags.store (s.readX ra) s.aLen))

/-- MOV: `x[rd] <- x[ra]` (R171). -/
def execMov (rd ra : XReg) (s : State) : Result := conclude s none (s.writeX rd (s.readX ra))

end Sys2Proof.Machine
end

