-- ==== Sys2Proof/Machine/ModArith.lean ====
section
/-! DEFINITION. The meanings of MODEXP, MONTMUL, MONTIN and MONTOUT (R127, R151 to R153). All sources are read
before the write, so `rd` may equal any of them (R22). -/

namespace Sys2Proof.Machine

open Sys2Proof

/-- MODEXP: `x[rd] <- a^e mod n` (R127, R128). -/
def execModexp (rd ra rb rn : XReg) (s : State) : Result :=
  conclude s (modulusError (s.readX rn))
    (s.writeX rd (powMod (s.readX ra) (s.readX rb) (s.readX rn)))

/-- MONTMUL: `x[rd] <- (a * b * R⁻¹) mod n` (R151). -/
def execMontmul (rd ra rb rn : XReg) (s : State) : Result :=
  conclude s (modulusError (s.readX rn))
    (s.writeX rd (s.readX ra * s.readX rb * montRInv (s.readX rn) % s.readX rn))

/-- MONTIN: `x[rd] <- (a * R) mod n` (R152). -/
def execMontin (rd ra rn : XReg) (s : State) : Result :=
  conclude s (modulusError (s.readX rn))
    (s.writeX rd (s.readX ra * montR (s.readX rn) % s.readX rn))

/-- MONTOUT: `x[rd] <- (a * R⁻¹) mod n` (R153). -/
def execMontout (rd ra rn : XReg) (s : State) : Result :=
  conclude s (modulusError (s.readX rn))
    (s.writeX rd (s.readX ra * montRInv (s.readX rn) % s.readX rn))

end Sys2Proof.Machine
end

