-- ==== Sys2Proof/Machine/Padder.lean ====
section
/-! DEFINITION. The meanings of PADENC and PADDEC (R100 to R106, R109), and the RNG port's request (R62). -/

namespace Sys2Proof.Machine

open Sys2Proof

/-- The padded block `0x00 ‖ 0x02 ‖ PS ‖ 0x00 ‖ M` (R100, R102). -/
def paddedBlock (ps m : List Byte) : List Byte := [0#8, 2#8] ++ ps ++ [0#8] ++ m

/-- The writes of a PADENC that has its padding bytes (R100). -/
def State.padencWrite (s : State) (ps : List Byte) : State :=
  (s.writeOram s.aAddr1 (paddedBlock ps s.sourceBytes)).writeRes s.aKlen

/-- A PADENC whose checks have passed: it draws bytes from the RNG port, and completes once it has `k`; else it
waits, still BUSY, for more bytes (R101, R103; log 14). -/
def State.padencDraw (s : State) : State :=
  let drawn := drawPs (s.psCount - s.ps.length) s.rng
  let t := { s with ps := s.ps ++ drawn.1, rng := drawn.2 }
  if t.ps.length < s.psCount then t else (t.padencWrite t.ps).complete

/-- PADENC (R100). The checks run before any RNG byte is taken. -/
def execPadenc (s : State) : Result :=
  match padencError s with
  | some e => .next (s.raise e)
  | none => .next s.padencDraw

/-- The message of a block: every byte after the separator (R104). -/
def paddedMessage (block : List Byte) : List Byte :=
  match separator block with
  | some i => block.drop (i + 1)
  | none => []

/-- PADDEC (R104): only the first `len(M)` bytes of the destination window are written. -/
def execPaddec (s : State) : Result :=
  conclude s (paddecError s)
    ((s.writeOram s.aAddr1 (paddedMessage s.sourceBytes)).writeRes (paddedMessage s.sourceBytes).length)

/-- Whether the engine runs a PADENC that still needs padding bytes. -/
def State.needsPs (s : State) : Bool :=
  match decode s.latch.cmd with
  | .ok .padenc => s.status.busy && (padencError s).isNone && decide (s.ps.length < s.psCount)
  | _ => false

/-- `rng_ready`: driven 1 only while a PADENC still needs padding bytes, and 0 in reset (R62, R230). -/
def State.rngReady (s : State) : Bool := s.rstN && s.needsPs

end Sys2Proof.Machine
end

