-- ==== Sys2Proof/Machine/RsaPipeline.lean ====
section
/-! DEFINITION. The meanings of RSAENC and RSADEC (R129, R130). -/

namespace Sys2Proof.Machine

open Sys2Proof

/-- The writes both pipeline commands make (R129, R130): the input bytes as an integer, to the power e mod n, as
`L(n)` canonical bytes at `A.addr1`, and RES. -/
def State.rsaWrite (s : State) (e n : Nat) : State :=
  (s.writeOram s.aAddr1 (canonBytes (powMod (beValue s.sourceBytes) e n) (byteLength n))).writeRes (byteLength n)

/-- RSAENC (R129). -/
def execRsaenc (rb rn : XReg) (s : State) : Result :=
  conclude s (rsaError s (s.readX rn)) (s.rsaWrite (s.readX rb) (s.readX rn))

/-- RSADEC (R130): the same function, with the exponent d. -/
def execRsadec (rb rn : XReg) (s : State) : Result :=
  conclude s (rsaError s (s.readX rn)) (s.rsaWrite (s.readX rb) (s.readX rn))

end Sys2Proof.Machine
end

