-- ==== Sys2Proof/Machine/Dispatch.lean ====
section
/-! DEFINITION. One arm per command: the engine runs its rule against the state acceptance left (R202). -/

namespace Sys2Proof.Machine

open Sys2Proof

def exec (i : Instr) (s : State) : Host.Outcome State Fault Refusal :=
  match i with
  | .nop => Sys2Proof.Machine.execNop s
  | .ldn rd => Sys2Proof.Machine.execLdn rd s
  | .stn ra => Sys2Proof.Machine.execStn ra s
  | .mov rd ra => Sys2Proof.Machine.execMov rd ra s
  | .cmp ra rb => Sys2Proof.Machine.execCmp ra rb s
  | .bitlen ra => Sys2Proof.Machine.execBitlen ra s
  | .bytelen ra => Sys2Proof.Machine.execBytelen ra s
  | .modexp rd ra rb rn => Sys2Proof.Machine.execModexp rd ra rb rn s
  | .montmul rd ra rb rn => Sys2Proof.Machine.execMontmul rd ra rb rn s
  | .montin rd ra rn => Sys2Proof.Machine.execMontin rd ra rn s
  | .montout rd ra rn => Sys2Proof.Machine.execMontout rd ra rn s
  | .padenc => Sys2Proof.Machine.execPadenc s
  | .paddec => Sys2Proof.Machine.execPaddec s
  | .rsaenc rb rn => Sys2Proof.Machine.execRsaenc rb rn s
  | .rsadec rb rn => Sys2Proof.Machine.execRsadec rb rn s

end Sys2Proof.Machine
end

