-- ==== Sys2Proof/Machine/Engine.lean ====
section
/-! DEFINITION. The moves of the agents (R200): the engine's step on the running command (R202), and which move
comes next (log 5). -/

namespace Sys2Proof.Machine

open Sys2Proof

/-- The engine's step while BUSY (R202): an illegal word ends with IllegalCommand (R75), else the decoded
command's rule runs. -/
def engineStep (s : State) : Result :=
  match decode s.latch.cmd with
  | .error _ => .next (s.raise .illegalCommand)
  | .ok i => exec i s

/-- The engine's turn: nothing happens while IDLE (R200, R220) or in reset (R230). -/
def engineTurn (s : State) : Result :=
  if s.rstN && s.status.busy then engineStep s else .next s

/-- The reset pin is sampled: at 0 the block is in reset (R230), at 1 it is out of it, IDLE (R231). -/
def State.samplePin (s : State) (level : Bool) : State :=
  if level then { s with rstN := true } else s.powerOn

/-- One move from the head of the inputs. With none left the engine has its turn, so that a running command gets
it in the end (weak fairness, R244; log 5). -/
def inputMove (s : State) : Result :=
  match s.inputs with
  | [] => engineTurn s
  | .engine :: rest => engineTurn { s with inputs := rest }
  | .bus a :: rest => busArrives { s with inputs := rest } a
  | .rngByte b :: rest => .next { s with inputs := rest, rng := s.rng ++ [b] }
  | .rstPin level :: rest => .next ({ s with inputs := rest }.samplePin level)

/-- Whether the next input is the reset pin, which acts before a held access (log 20). -/
def pinNext (s : State) : Bool :=
  match s.inputs with
  | .rstPin _ :: _ => true
  | _ => false

/-- The next move: once BUSY is 0 the oldest held access is performed before anything else arrives (R58, R59),
but for the reset pin; else the next input. -/
def nextMove (s : State) : Result :=
  match s.held with
  | [] => inputMove s
  | a :: rest =>
    if s.status.busy || pinNext s then inputMove s
    else .next ({ s with held := rest }.performAccess a)

end Sys2Proof.Machine
end

