-- ==== Sys2Proof/Machine/Step.lean ====
section
/-! DEFINITION. One step of the machine, and how a command word is put where the next step runs it. -/

namespace Sys2Proof.Machine

open Sys2Proof

/-- One move of one agent. The bus answer of the step before is gone. -/
def step (s : State) : Host.Outcome State Fault Refusal := nextMove { s with answer := none }

/-- `s` with the command word accepted as a CMD write accepts it (R201), out of reset, and the engine to move
next: the block fetches nothing (R23), so this stands for the host's write of the word (log 6). -/
def State.withFetchWord (s : State) (nbits w : Nat) : State :=
  { s.accept (tableWord nbits w) with rstN := true, inputs := .engine :: s.inputs }

end Sys2Proof.Machine
end

