-- ==== Sys2Proof/Safety.lean ====
section
/-! DEFINITION. The invariant of the block's state, and what counts as a safe run. -/

namespace Sys2Proof.Machine

open Sys2Proof

/-- STATUS hangs together: while BUSY no completion is recorded (R34, R201), and ERR never stands with the code
NONE (R204, R205). -/
abbrev Status.ok (st : Status) : Prop :=
  (st.busy = true → st.done = false ∧ st.err = false ∧ st.ecode = .none) ∧
    (st.err = true → st.ecode ≠ .none)

/-- R42: none of EQ, LT, GT is 1, or exactly one of them is. -/
abbrev Flags.ok (f : Flags) : Prop :=
  (f.eq = false ∧ f.lt = false ∧ f.gt = false) ∨ (f.eq = true ∧ f.lt = false ∧ f.gt = false) ∨
    (f.eq = false ∧ f.lt = true ∧ f.gt = false) ∨ (f.eq = false ∧ f.lt = false ∧ f.gt = true)

/-- Every X register is below `2^W` (R20, R22). -/
abbrev State.xOk (s : State) : Prop := ∀ i : XReg, s.readX i < 2 ^ s.params.width

/-- ORAM is in canonical form and lists only offsets the ORAM has (R51). -/
abbrev State.oramOk (s : State) : Prop := s.oram.wf ∧ ∀ c ∈ s.oram, c.1 < s.params.oramBytes

/-- The padding bytes drawn so far are non-zero, there are none unless a command runs, and never more than the
running PADENC needs (R26, R101). -/
abbrev State.psOk (s : State) : Prop :=
  (∀ b ∈ s.ps, b ≠ 0#8) ∧ (s.ps = [] ∨ (s.status.busy = true ∧ s.aLen + 3 + s.ps.length ≤ s.aKlen))

/-- In reset nothing runs, nothing is held and no interrupt is raised (R230). -/
abbrev State.pinOk (s : State) : Prop :=
  s.rstN = false →
    s.status.busy = false ∧ s.status.done = false ∧ s.status.ovr = false ∧ s.ie = false ∧ s.held = []

/-- Only ORAM accesses of the window are held (R58). -/
abbrev State.heldOk (s : State) : Prop :=
  ∀ a ∈ s.held, inWindow s.params a.addr = true ∧ regionOf s.params (busOffset s.params a) = .oram

/-- The invariant of the block: its parameters are those of R6, and all of the above. -/
abbrev State.Inv (s : State) : Prop :=
  s.params.WellFormed ∧ s.xOk ∧ s.oramOk ∧ s.status.ok ∧ s.flags.ok ∧ s.psOk ∧ s.pinOk ∧ s.heldOk

/-- The host has written every X register the command reads (R234 step 5, R235). Where this is false the command
computes with a value the spec does not give (U1; log 1). -/
def State.readsWrittenOnly (s : State) (i : Instr) : Bool := (sourceX i).all fun r => s.xWritten[r]

/-- The running command, if any, reads only registers that hold a value the spec gives. -/
def State.commandDefined (s : State) : Bool :=
  match decode s.latch.cmd with
  | .error _ => true
  | .ok i => !s.status.busy || s.readsWrittenOnly i

/-- A run of `k` steps is safe: no step stops, and every running command is defined. -/
def SafeRun : Nat → State → Prop
  | 0, _ => True
  | k + 1, s => s.commandDefined = true ∧ ∃ t, step s = .next t ∧ SafeRun k t

/-- The block waits for nothing: no command runs and no access is held (R200). -/
def State.idle (s : State) : Bool := !s.status.busy && s.held.isEmpty

end Sys2Proof.Machine
end

