-- ==== Sys2Proof/Certificates/Slice0/Obligations.lean ====
section
/-! DEFINITION. The statements about the block, each from the numbered rules its docstring names. -/

namespace Sys2Proof.Machine

open Sys2Proof

/-! ### Words the statements use, written from the rules and not from the meanings -/

/-- R203: BUSY to 0, DONE to 1, ERR and ECODE as they were; the padding bytes drawn are not kept (R26). -/
def afterSuccess (s : State) : State :=
  { s with status := { s.status with busy := false, done := true }, ps := [] }

/-- R204: BUSY 0, DONE 1, ERR 1, ECODE the code, and all else as it was. -/
def afterError (s : State) (e : ECode) : State :=
  { s with status := { busy := false, done := true, err := true, ovr := s.status.ovr, ecode := e }, ps := [] }

/-- `m'` is `m` with the bytes `bs` stored from offset `a` on, and every other byte as before. -/
def StoredAt (m m' : Memory) (a : Nat) (bs : List Byte) : Prop :=
  (∀ i < bs.length, bs[i]? = some (m'.read (a + i))) ∧
    ∀ i, i < a ∨ a + bs.length ≤ i → m'.read i = m.read i

/-- The X register a command may write, by R20's row "written (field rd)". -/
def mayWriteX (i : Instr) (r : XReg) : Prop :=
  match i with
  | .ldn rd | .mov rd _ | .modexp rd _ _ _ | .montmul rd _ _ _ | .montin rd _ _ | .montout rd _ _ => r = rd
  | .nop | .stn _ | .cmp _ _ | .bitlen _ | .bytelen _ | .padenc | .paddec | .rsaenc _ _ | .rsadec _ _ => False

/-- The ORAM offsets a command may write, by the destination column of R233. -/
def mayWriteOram (s : State) (i : Instr) (a : Nat) : Prop :=
  match i with
  | .stn _ => s.aAddr1 ≤ a ∧ a < s.aAddr1 + s.aLen
  | .padenc | .paddec => s.aAddr1 ≤ a ∧ a < s.aAddr1 + s.aKlen
  | .rsaenc _ rn | .rsadec _ rn => s.aAddr1 ≤ a ∧ a < s.aAddr1 + byteLength (s.readX rn)
  | .nop | .ldn _ | .mov _ _ | .cmp _ _ | .bitlen _ | .bytelen _ | .modexp _ _ _ _ | .montmul _ _ _ _
  | .montin _ _ _ | .montout _ _ _ => False

/-- The next input reaches the block: it is out of reset and performs no held access first (R58, R230). -/
def Listening (s : State) : Prop := s.rstN = true ∧ (s.held = [] ∨ s.status.busy = true)

/-- The host's aligned 32-bit write of `d` to the register at `off`. -/
def regWriteAccess (s : State) (off : Nat) (d : Word) : BusAccess := ⟨s.params.base + off, .word, some d⟩

/-- The host's aligned 32-bit read of the register at `off`. -/
def regReadAccess (s : State) (off : Nat) : BusAccess := ⟨s.params.base + off, .word, none⟩

/-- X3 after command `i` runs with X0 = a, X1 = b, X2 = n in the state `s`; 0 if it does not end in a next state. -/
def x3After (s : State) (i : Instr) (a b n : Nat) : Nat :=
  match exec i (((s.writeX 0 a).writeX 1 b).writeX 2 n) with
  | .next t => t.readX 3
  | _ => 0

/-- `mul`, `in` and `out` of R154, read off the commands. -/
def montMulOf (s : State) (n a b : Nat) : Nat := x3After s (.montmul 3 0 1 2) a b n
def montInOf (s : State) (n a : Nat) : Nat := x3After s (.montin 3 0 2) a 0 n
def montOutOf (s : State) (n a : Nat) : Nat := x3After s (.montout 3 0 2) a 0 n

/-- `P(k+1)` of R154: `P(1) = in(a)`, `P(k+1) = mul(P(k), in(a))`. -/
def montPowerOf (s : State) (n a : Nat) : Nat → Nat
  | 0 => montInOf s n a
  | k + 1 => montMulOf s n (montPowerOf s n a k) (montInOf s n a)

end Sys2Proof.Machine

open Sys2Proof Sys2Proof.Machine

/-! ### Encoding (R70 to R76) -/

/-- A few words of the spec's own encodings and what they stand for (R77, V-ENC-1 to V-ENC-13). -/
def Obligations.SpecWordsDecode : Prop :=
  decode 0x00000000 = .ok .nop ∧ decode 0x01200000 = .ok (.ldn 1) ∧ decode 0x02100000 = .ok (.stn 4) ∧
  decode 0x035C0000 = .ok (.mov 2 7) ∧ decode 0x04128000 = .ok (.cmp 4 5) ∧
  decode 0x10650000 = .ok (.modexp 3 1 2 0) ∧ decode 0x118D0000 = .ok (.montmul 4 3 2 0) ∧
  decode 0x12640000 = .ok (.montin 3 1 0) ∧ decode 0x13EC0000 = .ok (.montout 7 3 0) ∧
  decode 0x20000000 = .ok .padenc ∧ decode 0x30008000 = .ok (.rsaenc 1 0) ∧
  decode 0x31010000 = .ok (.rsadec 2 0) ∧ decode 0x00000001 = .error .rsvNotZero ∧
  decode 0x01040000 = .error .fieldNotZero ∧ decode 0xFF000000 = .error .unassignedOpcode

/-- Decoding the word of a command gives the command back, with every operand at every value (R74, R76). -/
def Obligations.DecodeOfEncodeIsIdentity : Prop := ∀ i : Instr, decode (encode i) = .ok i

/-- A word decodes to a command only if it is that command's word: each command has one word (R74, R76). -/
def Obligations.DecodedWordIsTheEncoding : Prop := ∀ (w : Word) (i : Instr), decode w = .ok i → encode i = w

/-- No word matches two rows of the opcode map (R74). -/
def Obligations.NoWordMatchesTwoRows : Prop :=
  ∀ (w : Word) (j k : Fin opRows.length),
    w &&& opRows[j].mask = opRows[j].value → w &&& opRows[k].mask = opRows[k].value → j = k

/-- The words the match and mask columns reject are those of R75: unassigned opcode, a must-be-zero field that is
not zero, or `rsv` not zero, judged by the fields and formats of R71 and R72. -/
def Obligations.IllegalWordsAreThoseOfTheFormats : Prop :=
  ∀ w : Word, (∃ e, decode w = .error e) ↔
    (formatOfOp (w.toNat / 2 ^ 24) = none ∨
      (∃ f, formatOfOp (w.toNat / 2 ^ 24) = some f ∧
        ((f.hasRd = false ∧ w.toNat / 2 ^ 21 % 8 ≠ 0) ∨ (f.hasRa = false ∧ w.toNat / 2 ^ 18 % 8 ≠ 0) ∨
          (f.hasRb = false ∧ w.toNat / 2 ^ 15 % 8 ≠ 0) ∨ (f.hasRn = false ∧ w.toNat / 2 ^ 12 % 8 ≠ 0))) ∨
      w.toNat % 2 ^ 12 ≠ 0)

/-! ### The lifecycle of a command (R200 to R204, R35, R75) -/

/-- While BUSY the engine's step is exec of the command the latched word decodes to (R202), whether the engine's
move stands at the head of the inputs or no input is left (log 5). The step forgets the bus answer before it. -/
def Obligations.StepRunsTheDecodedCommand : Prop :=
  ∀ (s : State) (i : Instr), decode s.latch.cmd = .ok i → s.rstN = true → s.status.busy = true →
    (∀ rest, s.inputs = .engine :: rest → step s = exec i { s with inputs := rest, answer := none }) ∧
    (s.inputs = [] → step s = exec i { s with answer := none })

/-- A command's word put with `withFetchWord` is run by the very next step, in the state acceptance leaves (log 6). -/
def Obligations.FetchWordRunsTheEncodedCommand : Prop :=
  ∀ (s : State) (i : Instr),
    step (s.withFetchWord 32 (encode i).toNat) =
      exec i { s with
        latch := { cmd := encode i, addr0 := s.addr0, addr1 := s.addr1, len := s.len, klen := s.klen }
        status := { busy := true, done := false, err := false, ovr := s.status.ovr, ecode := .none }
        ps := [], rstN := true, answer := none }

/-- A latched word that encodes no command ends with IllegalCommand and changes nothing else (R75, R202, R204),
whether the engine's move stands at the head of the inputs or no input is left (the model's choice, log 5). -/
def Obligations.IllegalWordEndsWithIllegalCommand : Prop :=
  ∀ (s : State) (e : DecodeError), decode s.latch.cmd = .error e → s.rstN = true → s.status.busy = true →
    (∀ rest, s.inputs = .engine :: rest →
      step s = .next (afterError { s with inputs := rest, answer := none } .illegalCommand)) ∧
    (s.inputs = [] → step s = .next (afterError { s with answer := none } .illegalCommand))

/-- R201: a CMD write of any word while BUSY = 0 latches the word and the operand registers, sets BUSY and clears
DONE, ERR and ECODE; OVR, RES, FLAGS, the X registers and ORAM are unchanged. A CMD write while BUSY = 1 is not
accepted: it sets OVR and does nothing else (R35, R240). -/
def Obligations.CmdWriteIsAcceptedOrDropped : Prop :=
  ∀ (s : State) (w : Word) (rest : List Input), Listening s →
    s.inputs = .bus (regWriteAccess s 0x014 w) :: rest →
    ∃ d : Word,
      (s.status.busy = false → step s = .next { s with
        latch := { cmd := w, addr0 := s.addr0, addr1 := s.addr1, len := s.len, klen := s.klen }
        status := { busy := true, done := false, err := false, ovr := s.status.ovr, ecode := .none }
        ps := [], inputs := rest, answer := some ⟨regWriteAccess s 0x014 w, d, .okay⟩ }) ∧
      (s.status.busy = true → step s = .next { s with
        status := { s.status with ovr := true }
        inputs := rest, answer := some ⟨regWriteAccess s 0x014 w, d, .okay⟩ })

/-- Errors are precise (R204, R212): whatever command ends with ERR newly set leaves everything but STATUS as it
was, with BUSY 0, DONE 1 and a code that is not NONE. -/
def Obligations.ErrorsArePrecise : Prop :=
  ∀ (i : Instr) (s t : State), s.status.err = false → exec i s = .next t → t.status.err = true →
    t.status.ecode ≠ .none ∧ t = afterError s t.status.ecode

/-- Each command raises only the errors its row of R207 allows, beside IllegalCommand. -/
def Obligations.CommandsRaiseOnlyTheirErrors : Prop :=
  ∀ (i : Instr) (s t : State), s.status.err = false → exec i s = .next t → t.status.err = true →
    t.status.ecode ∈ (match i with
      | .nop | .mov _ _ | .cmp _ _ | .bitlen _ | .bytelen _ => []
      | .ldn _ | .stn _ => [ECode.invalidParameter, ECode.rangeError]
      | .modexp _ _ _ _ | .montmul _ _ _ _ | .montin _ _ _ | .montout _ _ _ => [ECode.invalidModulus]
      | .padenc => [ECode.invalidParameter, ECode.rangeError, ECode.messageTooLong]
      | .paddec => [ECode.invalidParameter, ECode.rangeError, ECode.invalidPadding]
      | .rsaenc _ _ | .rsadec _ _ => [ECode.invalidParameter, ECode.rangeError, ECode.invalidModulus])

/-- R244: every command but PADENC completes, in every state; by R203 or R204 BUSY is then 0 and DONE is 1. -/
def Obligations.EveryCommandButPadencCompletes : Prop :=
  ∀ (i : Instr) (s : State), i ≠ .padenc →
    ∃ t, exec i s = .next t ∧ t.status.busy = false ∧ t.status.done = true ∧ t.status.ovr = s.status.ovr ∧
      (t.status.err = s.status.err ∧ t.status.ecode = s.status.ecode ∨ t.status.err = true)

/-! ### NOP, MOV, LDN, STN (R120 to R124, R171, R172) -/

/-- R172: NOP completes and changes nothing else; its only legal word is 0x00000000. -/
def Obligations.NopOnlyCompletes : Prop :=
  (∀ s : State, exec .nop s = .next (afterSuccess s)) ∧
    ∀ w : Word, w.toNat / 2 ^ 24 = 0 → (decode w = .ok .nop ↔ w = 0x00000000)

/-- R171: MOV copies x[ra] to x[rd] and changes nothing else. -/
def Obligations.MovCopiesTheRegister : Prop :=
  ∀ (rd ra : XReg) (s : State), (encode (.mov rd ra)).toNat = 0x03000000 + rd.val * 2 ^ 21 + ra.val * 2 ^ 18 ∧
    exec (.mov rd ra) s = .next (afterSuccess { s with
      x := s.x.set rd (s.readX ra), xWritten := s.xWritten.set rd true })

/-- R120: LDN raises InvalidParameter or RangeError in that order, else loads its bytes as a big-endian integer;
nothing else changes. -/
def Obligations.LdnLoadsBigEndian : Prop :=
  ∀ (rd : XReg) (s : State), (encode (.ldn rd)).toNat = 0x01000000 + rd.val * 2 ^ 21 ∧
    (s.params.maxl < s.latch.len.toNat → exec (.ldn rd) s = .next (afterError s .invalidParameter)) ∧
    (s.latch.len.toNat ≤ s.params.maxl → s.params.oramBytes < s.latch.addr0.toNat + s.latch.len.toNat →
      exec (.ldn rd) s = .next (afterError s .rangeError)) ∧
    (s.latch.len.toNat ≤ s.params.maxl → s.latch.addr0.toNat + s.latch.len.toNat ≤ s.params.oramBytes →
      exec (.ldn rd) s = .next (afterSuccess { s with
        x := s.x.set rd (∑ i ∈ Finset.range s.latch.len.toNat,
          (s.oram.read (s.latch.addr0.toNat + i)).toNat * 256 ^ (s.latch.len.toNat - 1 - i))
        xWritten := s.xWritten.set rd true }))

/-- R124: STN raises InvalidParameter or RangeError in that order, else writes the canonical bytes of x[ra] at
A.addr1 and TRUNC; nothing else changes. -/
def Obligations.StnStoresCanonicalBytes : Prop :=
  ∀ (ra : XReg) (s : State), s.oram.wf → (encode (.stn ra)).toNat = 0x02000000 + ra.val * 2 ^ 18 ∧
    (s.params.maxl < s.latch.len.toNat → exec (.stn ra) s = .next (afterError s .invalidParameter)) ∧
    (s.latch.len.toNat ≤ s.params.maxl → s.params.oramBytes < s.latch.addr1.toNat + s.latch.len.toNat →
      exec (.stn ra) s = .next (afterError s .rangeError)) ∧
    (s.latch.len.toNat ≤ s.params.maxl → s.latch.addr1.toNat + s.latch.len.toNat ≤ s.params.oramBytes →
      ∃ m, exec (.stn ra) s = .next (afterSuccess { s with
          oram := m, flags := { s.flags with trunc := decide (2 ^ (8 * s.latch.len.toNat) ≤ s.readX ra) } }) ∧
        (∀ i < s.latch.len.toNat, (m.read (s.latch.addr1.toNat + i)).toNat =
          s.readX ra / 256 ^ (s.latch.len.toNat - 1 - i) % 256) ∧
        ∀ a, a < s.latch.addr1.toNat ∨ s.latch.addr1.toNat + s.latch.len.toNat ≤ a →
          m.read a = s.oram.read a)

/-- R123 on the commands: LDN then STN of the same length gives back the bytes, and STN then LDN gives back the
value mod 2^(8k). The state between the two commands may differ in anything but the register or the ORAM. -/
def Obligations.LoadAndStoreAreInverse : Prop :=
  (∀ (r : XReg) (s t u v : State), s.oram.wf → u.oram.wf → s.latch.len.toNat ≤ s.params.maxl →
    s.latch.addr0.toNat + s.latch.len.toNat ≤ s.params.oramBytes → exec (.ldn r) s = .next t →
    u.x = t.x → u.latch.len = s.latch.len → u.latch.len.toNat ≤ u.params.maxl →
    u.latch.addr1.toNat + u.latch.len.toNat ≤ u.params.oramBytes → exec (.stn r) u = .next v →
    v.oram.readBytes u.aAddr1 u.aLen = s.oram.readBytes s.aAddr0 s.aLen ∧ v.flags.trunc = false) ∧
  (∀ (ra rd : XReg) (s t u v : State), s.oram.wf → s.latch.len.toNat ≤ s.params.maxl →
    s.latch.addr1.toNat + s.latch.len.toNat ≤ s.params.oramBytes → exec (.stn ra) s = .next t →
    u.oram = t.oram → u.params = s.params → u.latch.len = s.latch.len → u.latch.addr0 = s.latch.addr1 →
    exec (.ldn rd) u = .next v → v.readX rd = s.readX ra % 2 ^ (8 * s.aLen))

/-! ### CMP, BITLEN, BYTELEN (R125, R126, R170) -/

/-- R170: CMP writes EQ, LT and GT of the full values, exactly one of them 1, and changes nothing else. -/
def Obligations.CmpComparesFullValues : Prop :=
  ∀ (ra rb : XReg) (s : State),
    (encode (.cmp ra rb)).toNat = 0x04000000 + ra.val * 2 ^ 18 + rb.val * 2 ^ 15 ∧
    ∃ f : Flags, exec (.cmp ra rb) s = .next (afterSuccess { s with flags := f }) ∧
      (f.eq = true ↔ s.readX ra = s.readX rb) ∧ (f.lt = true ↔ s.readX ra < s.readX rb) ∧
      (f.gt = true ↔ s.readX rb < s.readX ra) ∧ f.eq.toNat + f.lt.toNat + f.gt.toNat = 1 ∧ f.trunc = s.flags.trunc

/-- R125: BITLEN writes bitLength(x[ra]) to RES, 0 for 0, and changes nothing else; the result is at most W.
The premises are invariants of the block (Obligations.StepKeepsTheInvariant). -/
def Obligations.BitlenWritesTheBitLength : Prop :=
  ∀ (ra : XReg) (s : State), s.params.WellFormed → s.readX ra < 2 ^ (8 * s.params.maxl) →
    (encode (.bitlen ra)).toNat = 0x05000000 + ra.val * 2 ^ 18 ∧
    ∃ r : Word, exec (.bitlen ra) s = .next (afterSuccess { s with res := r }) ∧
      r.toNat ≤ 8 * s.params.maxl ∧ (s.readX ra = 0 → r.toNat = 0) ∧
      (s.readX ra ≠ 0 → 0 < r.toNat ∧ 2 ^ (r.toNat - 1) ≤ s.readX ra ∧ s.readX ra < 2 ^ r.toNat)

/-- R126: BYTELEN writes L(x[ra]), the least number of bytes that hold the value, to RES and changes nothing
else; the result is at most MAXL. The premises are invariants of the block. -/
def Obligations.BytelenWritesTheByteLength : Prop :=
  ∀ (ra : XReg) (s : State), s.params.WellFormed → s.readX ra < 2 ^ (8 * s.params.maxl) →
    (encode (.bytelen ra)).toNat = 0x06000000 + ra.val * 2 ^ 18 ∧
    ∃ r : Word, exec (.bytelen ra) s = .next (afterSuccess { s with res := r }) ∧
      r.toNat ≤ s.params.maxl ∧ ∀ k, r.toNat ≤ k ↔ s.readX ra < 256 ^ k

/-! ### Modular arithmetic (R127, R150 to R155) -/

/-- R127: MODEXP raises InvalidModulus for an even n or n at most 1, else writes the exact a^e mod n; nothing else
changes, and rd may be any of the sources. -/
def Obligations.ModexpComputesThePower : Prop :=
  ∀ (rd ra rb rn : XReg) (s : State),
    (encode (.modexp rd ra rb rn)).toNat =
      0x10000000 + rd.val * 2 ^ 21 + ra.val * 2 ^ 18 + rb.val * 2 ^ 15 + rn.val * 2 ^ 12 ∧
    (s.readX rn % 2 = 0 ∨ s.readX rn ≤ 1 → exec (.modexp rd ra rb rn) s = .next (afterError s .invalidModulus)) ∧
    (s.readX rn % 2 = 1 → 1 < s.readX rn →
      exec (.modexp rd ra rb rn) s = .next (afterSuccess { s with
        x := s.x.set rd (s.readX ra ^ s.readX rb % s.readX rn), xWritten := s.xWritten.set rd true }))

/-- R150: for a valid modulus n the radix R = 2^(8*L(n)) exceeds n and is prime to it, and there is exactly one
integer between 0 and n that is its inverse mod n. -/
def Obligations.MontgomeryRadixHasOneInverse : Prop :=
  ∀ n : Nat, n % 2 = 1 → 1 < n →
    n < 2 ^ (8 * byteLength n) ∧ Nat.Coprime (2 ^ (8 * byteLength n)) n ∧
      ∃! r : Nat, 0 < r ∧ r < n ∧ 2 ^ (8 * byteLength n) * r % n = 1

/-- R151 to R153: the Montgomery commands raise InvalidModulus for an even n or n at most 1, else write
a*b*R⁻¹, a*R and a*R⁻¹ mod n for whatever r is the inverse of R (R150); nothing else changes. -/
def Obligations.MontgomeryCommandsComputeTheirProducts : Prop :=
  ∀ (rd ra rb rn : XReg) (s : State),
    ((encode (.montmul rd ra rb rn)).toNat =
        0x11000000 + rd.val * 2 ^ 21 + ra.val * 2 ^ 18 + rb.val * 2 ^ 15 + rn.val * 2 ^ 12 ∧
      (encode (.montin rd ra rn)).toNat = 0x12000000 + rd.val * 2 ^ 21 + ra.val * 2 ^ 18 + rn.val * 2 ^ 12 ∧
      (encode (.montout rd ra rn)).toNat = 0x13000000 + rd.val * 2 ^ 21 + ra.val * 2 ^ 18 + rn.val * 2 ^ 12) ∧
    (s.readX rn % 2 = 0 ∨ s.readX rn ≤ 1 →
      exec (.montmul rd ra rb rn) s = .next (afterError s .invalidModulus) ∧
      exec (.montin rd ra rn) s = .next (afterError s .invalidModulus) ∧
      exec (.montout rd ra rn) s = .next (afterError s .invalidModulus)) ∧
    (s.readX rn % 2 = 1 → 1 < s.readX rn →
      (∀ r, 0 < r → r < s.readX rn → 2 ^ (8 * byteLength (s.readX rn)) * r % s.readX rn = 1 →
        exec (.montmul rd ra rb rn) s = .next (afterSuccess { s with
          x := s.x.set rd (s.readX ra * s.readX rb * r % s.readX rn), xWritten := s.xWritten.set rd true }) ∧
        exec (.montout rd ra rn) s = .next (afterSuccess { s with
          x := s.x.set rd (s.readX ra * r % s.readX rn), xWritten := s.xWritten.set rd true })) ∧
      exec (.montin rd ra rn) s = .next (afterSuccess { s with
        x := s.x.set rd (s.readX ra * 2 ^ (8 * byteLength (s.readX rn)) % s.readX rn)
        xWritten := s.xWritten.set rd true }))

/-- R154: the laws of the Montgomery commands, for every valid n and all a and b: conversion round trip, product,
plain product, out as product, and power. -/
def Obligations.MontgomeryLawsHold : Prop :=
  ∀ (s : State) (n a b : Nat), n % 2 = 1 → 1 < n →
    montOutOf s n (montInOf s n a) = a % n ∧
    montMulOf s n (montInOf s n a) (montInOf s n b) = montInOf s n (a * b % n) ∧
    montMulOf s n (montInOf s n a) b = a * b % n ∧
    montOutOf s n a = montMulOf s n a 1 ∧
    ∀ k, montOutOf s n (montPowerOf s n a k) = a ^ (k + 1) % n

/-- R155: every Montgomery command, and MODEXP, that ends without error writes a result less than n. -/
def Obligations.ModularResultsAreFullyReduced : Prop :=
  ∀ (i : Instr) (rd ra rb rn : XReg) (s t : State),
    i = .modexp rd ra rb rn ∨ i = .montmul rd ra rb rn ∨ i = .montin rd ra rn ∨ i = .montout rd ra rn →
    s.status.err = false → exec i s = .next t → t.status.err = false → t.readX rd < s.readX rn

/-! ### RSA pipeline (R129 to R132) -/

/-- R129, R130: RSAENC and RSADEC raise InvalidParameter, RangeError or InvalidModulus in that order, else write
the L(n) canonical bytes of m^e mod n at A.addr1 and RES = L(n), m being the input bytes as a big-endian integer;
nothing else changes. -/
def Obligations.RsaCommandsWriteThePower : Prop :=
  ∀ (rb rn : XReg) (s : State) (i : Instr), s.oram.wf → i = .rsaenc rb rn ∨ i = .rsadec rb rn →
    ((encode (.rsaenc rb rn)).toNat = 0x30000000 + rb.val * 2 ^ 15 + rn.val * 2 ^ 12 ∧
      (encode (.rsadec rb rn)).toNat = 0x31000000 + rb.val * 2 ^ 15 + rn.val * 2 ^ 12) ∧
    (s.params.maxl < s.latch.len.toNat → exec i s = .next (afterError s .invalidParameter)) ∧
    (s.latch.len.toNat ≤ s.params.maxl →
      s.params.oramBytes < s.latch.addr0.toNat + s.latch.len.toNat ∨
        s.params.oramBytes < s.latch.addr1.toNat + byteLength (s.readX rn) →
      exec i s = .next (afterError s .rangeError)) ∧
    (s.latch.len.toNat ≤ s.params.maxl → s.latch.addr0.toNat + s.latch.len.toNat ≤ s.params.oramBytes →
      s.latch.addr1.toNat + byteLength (s.readX rn) ≤ s.params.oramBytes →
      (s.readX rn % 2 = 0 ∨ s.readX rn ≤ 1 → exec i s = .next (afterError s .invalidModulus)) ∧
      (s.readX rn % 2 = 1 → 1 < s.readX rn →
        ∃ m, exec i s = .next (afterSuccess { s with
            oram := m, res := BitVec.ofNat 32 (byteLength (s.readX rn)) }) ∧
          (∀ j < byteLength (s.readX rn), (m.read (s.latch.addr1.toNat + j)).toNat =
            beValue s.sourceBytes ^ s.readX rb % s.readX rn / 256 ^ (byteLength (s.readX rn) - 1 - j) % 256) ∧
          ∀ a, a < s.latch.addr1.toNat ∨ s.latch.addr1.toNat + byteLength (s.readX rn) ≤ a →
            m.read a = s.oram.read a))

/-- R131: LDN t, MODEXP t, t, xe, xn, STN t with LEN = L(n) writes the same ORAM as RSAENC xe, xn, for t neither
xe nor xn, where all four commands end without error. Between the commands only the operand registers are set. -/
def Obligations.PipelineEqualsItsParts : Prop :=
  ∀ (t xe xn : XReg) (s s1 s2 s3 s4 s5 r : State), t ≠ xe → t ≠ xn →
    s.status.err = false → s2.status.err = false → s4.status.err = false →
    exec (.rsaenc xe xn) s = .next r → r.status.err = false →
    exec (.ldn t) s = .next s1 → s1.status.err = false →
    s2.x = s1.x → s2.oram = s1.oram →
    exec (.modexp t t xe xn) s2 = .next s3 → s3.status.err = false →
    s4.x = s3.x → s4.oram = s3.oram →
    s4.latch.len.toNat = byteLength (s.readX xn) → s4.latch.addr1 = s.latch.addr1 →
    exec (.stn t) s4 = .next s5 → s5.status.err = false →
    s5.oram = r.oram

/-- R132: with n = p*q for distinct primes and e*d ≡ 1 mod (p-1)(q-1), an RSADEC of RSAENC's output gives back
the RSAENC input, when that has exactly L(n) bytes and is less than n. -/
def Obligations.RsadecInvertsRsaenc : Prop :=
  ∀ (p q : Nat) (xe xd xn : XReg) (s t u v : State), p.Prime → q.Prime → p ≠ q → s.oram.wf →
    s.readX xn = p * q → s.readX xe * s.readX xd % ((p - 1) * (q - 1)) = 1 % ((p - 1) * (q - 1)) →
    s.aLen = byteLength (p * q) → beValue s.sourceBytes < p * q →
    s.status.err = false → exec (.rsaenc xe xn) s = .next t → t.status.err = false →
    u.x = s.x → u.oram = t.oram → u.params = s.params → u.latch.addr0 = s.latch.addr1 →
    u.latch.len = s.latch.len → u.status.err = false →
    exec (.rsadec xd xn) u = .next v → v.status.err = false →
    v.oram.readBytes u.aAddr1 u.aLen = s.oram.readBytes s.aAddr0 s.aLen

/-! ### Padder (R100 to R110) -/

/-- R100, R101, R102: a PADENC whose checks pass and whose RNG stream delivers the padding completes. `taken` is
what it takes: up to and not beyond its last needed non-zero byte; the zero bytes in it are discarded. It writes
00 02 PS 00 M at A.addr1, sets RES to A.klen, and changes nothing else; the bytes of PS are non-zero. (That the
stream is a list, taken in one turn of the engine, is the model's choice, log 14, and so is `s.ps`, the bytes it may
already have drawn before it waited; they are none when it starts, and non-zero by the invariant `psOk`.) -/
def Obligations.PadencWritesThePaddedBlock : Prop :=
  ∀ (s : State) (taken rest : List Byte), s.oram.wf →
    s.latch.len.toNat ≤ s.params.maxl → s.latch.klen.toNat ≤ s.params.maxl →
    s.latch.addr0.toNat + s.latch.len.toNat ≤ s.params.oramBytes →
    s.latch.addr1.toNat + s.latch.klen.toNat ≤ s.params.oramBytes →
    s.latch.len.toNat + 11 ≤ s.latch.klen.toNat →
    s.rng = taken ++ rest → taken.getLast? ≠ some 0#8 →
    s.ps.length + (taken.filter (· ≠ 0#8)).length = s.latch.klen.toNat - s.latch.len.toNat - 3 →
    (∃ m, exec .padenc s = .next (afterSuccess { s with oram := m, res := s.latch.klen, rng := rest }) ∧
      StoredAt s.oram m s.latch.addr1.toNat
        ([0#8, 2#8] ++ (s.ps ++ taken.filter (· ≠ 0#8)) ++ [0#8] ++
          s.oram.readBytes s.latch.addr0.toNat s.latch.len.toNat)) ∧
    (s.psOk → ∀ b ∈ s.ps ++ taken.filter (· ≠ 0#8), b ≠ 0#8)

/-- R103: a PADENC whose RNG stream ends before it has its padding bytes waits: it takes all the bytes, keeps the
non-zero ones, and BUSY stays 1; nothing else changes (log 14). -/
def Obligations.PadencWaitsForPaddingBytes : Prop :=
  ∀ s : State, s.latch.len.toNat ≤ s.params.maxl → s.latch.klen.toNat ≤ s.params.maxl →
    s.latch.addr0.toNat + s.latch.len.toNat ≤ s.params.oramBytes →
    s.latch.addr1.toNat + s.latch.klen.toNat ≤ s.params.oramBytes →
    s.latch.len.toNat + 11 ≤ s.latch.klen.toNat →
    s.ps.length + (s.rng.filter (· ≠ 0#8)).length < s.latch.klen.toNat - s.latch.len.toNat - 3 →
    exec .padenc s = .next { s with ps := s.ps ++ s.rng.filter (· ≠ 0#8), rng := [] }

/-- R100, R206: the errors of PADENC, in their order, before any RNG byte is taken. -/
def Obligations.PadencRaisesInOrder : Prop :=
  ∀ s : State,
    (s.params.maxl < s.latch.len.toNat ∨ s.params.maxl < s.latch.klen.toNat →
      exec .padenc s = .next (afterError s .invalidParameter)) ∧
    (s.latch.len.toNat ≤ s.params.maxl → s.latch.klen.toNat ≤ s.params.maxl →
      (s.params.oramBytes < s.latch.addr0.toNat + s.latch.len.toNat ∨
          s.params.oramBytes < s.latch.addr1.toNat + s.latch.klen.toNat →
        exec .padenc s = .next (afterError s .rangeError)) ∧
      (s.latch.addr0.toNat + s.latch.len.toNat ≤ s.params.oramBytes →
        s.latch.addr1.toNat + s.latch.klen.toNat ≤ s.params.oramBytes →
        s.latch.klen.toNat < s.latch.len.toNat + 11 →
        exec .padenc s = .next (afterError s .messageTooLong)))

/-- R104: PADDEC. Writing B[j] for the bytes of its block: the errors in their order, InvalidPadding for a length
that is not L, fewer than 2 bytes, leading bytes other than 00 02 (R109) or no zero byte from index 2 on; else,
with the separator at index p (any p from 2, R105), the bytes after it are written at A.addr1, RES is their
number, and nothing else changes. -/
def Obligations.PaddecExtractsTheMessage : Prop :=
  ∀ (s : State), s.oram.wf → (encode .paddec).toNat = 0x21000000 ∧
    (s.params.maxl < s.latch.len.toNat ∨ s.params.maxl < s.latch.klen.toNat →
      exec .paddec s = .next (afterError s .invalidParameter)) ∧
    (s.latch.len.toNat ≤ s.params.maxl → s.latch.klen.toNat ≤ s.params.maxl →
      (s.params.oramBytes < s.latch.addr0.toNat + s.latch.len.toNat ∨
          s.params.oramBytes < s.latch.addr1.toNat + s.latch.klen.toNat →
        exec .paddec s = .next (afterError s .rangeError)) ∧
      (s.latch.addr0.toNat + s.latch.len.toNat ≤ s.params.oramBytes →
        s.latch.addr1.toNat + s.latch.klen.toNat ≤ s.params.oramBytes →
        (s.latch.len ≠ s.latch.klen ∨ s.latch.len.toNat < 2 ∨ s.oram.read s.latch.addr0.toNat ≠ 0#8 ∨
            s.oram.read (s.latch.addr0.toNat + 1) ≠ 2#8 ∨
            (∀ j, 2 ≤ j → j < s.latch.len.toNat → s.oram.read (s.latch.addr0.toNat + j) ≠ 0#8) →
          exec .paddec s = .next (afterError s .invalidPadding)) ∧
        (∀ p, s.latch.len = s.latch.klen → s.oram.read s.latch.addr0.toNat = 0#8 →
          s.oram.read (s.latch.addr0.toNat + 1) = 2#8 → 2 ≤ p → p < s.latch.len.toNat →
          s.oram.read (s.latch.addr0.toNat + p) = 0#8 →
          (∀ j, 2 ≤ j → j < p → s.oram.read (s.latch.addr0.toNat + j) ≠ 0#8) →
          ∃ m, exec .paddec s = .next (afterSuccess { s with
              oram := m, res := BitVec.ofNat 32 (s.latch.len.toNat - p - 1) }) ∧
            StoredAt s.oram m s.latch.addr1.toNat
              (s.oram.readBytes (s.latch.addr0.toNat + p + 1) (s.latch.len.toNat - p - 1)))))

/-- R107: a PADDEC of the block a PADENC wrote, with A.len = A.klen = L and no ORAM write to that block in between,
completes without error, writes M and sets RES to len(M), for every RNG stream that lets the PADENC complete. The
rest of ORAM may change in between. (The stream as a list, and `s.ps`, are the model's choice, log 14; `psOk` is an
invariant of the block.) -/
def Obligations.PaddecInvertsPadenc : Prop :=
  ∀ s t u : State, s.oram.wf → s.psOk → s.status.busy = true → s.status.err = false →
    exec .padenc s = .next t → t.status.busy = false → t.status.err = false →
    u.oram.wf → (∀ a, s.aAddr1 ≤ a → a < s.aAddr1 + s.aKlen → u.oram.read a = t.oram.read a) →
    u.params = s.params → u.latch.addr0 = s.latch.addr1 → u.latch.len = s.latch.klen →
    u.latch.klen = s.latch.klen → u.latch.addr1.toNat + u.latch.klen.toNat ≤ u.params.oramBytes →
    ∃ v, exec .paddec u = .next v ∧ v.status.err = u.status.err ∧ v.status.ecode = u.status.ecode ∧
      v.status.done = true ∧ v.res.toNat = s.aLen ∧
      v.oram.readBytes u.aAddr1 s.aLen = s.oram.readBytes s.aAddr0 s.aLen

/-- R108: a PADENC block of length L = L(n), read as an integer, is less than 2^(8(L-1)) and less than n. -/
def Obligations.PaddedBlockIsBelowTheModulus : Prop :=
  ∀ (s t : State) (n : Nat), s.oram.wf → s.psOk → s.status.busy = true → s.status.err = false →
    exec .padenc s = .next t → t.status.busy = false → t.status.err = false → byteLength n = s.aKlen →
    beValue (t.oram.readBytes s.aAddr1 s.aKlen) < 2 ^ (8 * (s.aKlen - 1)) ∧
      beValue (t.oram.readBytes s.aAddr1 s.aKlen) < n

/-! ### What no command changes -/

/-- The frame of all commands: X registers other than rd (R22), ORAM outside the destination (R57), RES but for
the six commands of R40, FLAGS but for CMP and STN (R42), the RNG stream but for PADENC (R62), and all other
state, are unchanged. (`xWritten` is the model's own record, log 1.) The premises are invariants of the block
(Obligations.StepKeepsTheInvariant). -/
def Obligations.CommandsChangeOnlyTheirDestinations : Prop :=
  ∀ (i : Instr) (s t : State), s.oram.wf → s.psOk → exec i s = .next t →
    (∀ r, ¬ mayWriteX i r → t.readX r = s.readX r ∧ t.xWritten[r] = s.xWritten[r]) ∧
    (∀ a, ¬ mayWriteOram s i a → t.oram.read a = s.oram.read a) ∧
    (t.res ≠ s.res → (∃ r, i = .bitlen r) ∨ (∃ r, i = .bytelen r) ∨ i = .padenc ∨ i = .paddec ∨
      (∃ b n, i = .rsaenc b n) ∨ ∃ b n, i = .rsadec b n) ∧
    (t.flags ≠ s.flags → (∃ a b, i = .cmp a b) ∨ ∃ a, i = .stn a) ∧
    (t.rng ≠ s.rng → i = .padenc) ∧
    t = { s with
      x := t.x, xWritten := t.xWritten, oram := t.oram, res := t.res, flags := t.flags, rng := t.rng
      ps := t.ps
      status := { s.status with
        busy := t.status.busy, done := t.status.done, err := t.status.err, ecode := t.status.ecode } }

/-- R42: CMP writes EQ, LT and GT alone, STN writes TRUNC alone, and a command that ends with an error writes no
flag. -/
def Obligations.FlagsHaveOneWriterEach : Prop :=
  ∀ (i : Instr) (s t : State), s.status.err = false → exec i s = .next t →
    ((∀ a b, i ≠ .cmp a b) → t.flags.eq = s.flags.eq ∧ t.flags.lt = s.flags.lt ∧ t.flags.gt = s.flags.gt) ∧
    ((∀ a, i ≠ .stn a) → t.flags.trunc = s.flags.trunc) ∧
    (t.status.err = true → t.flags = s.flags)

/-! ### Invariants -/

/-- R44: the values the spec gives for power-on reset. (X registers, ORAM and the parameters of
State.reset are the model's choice, log 1, 2 and 4.) -/
def Obligations.ResetHasTheSpecsValues : Prop :=
  State.reset.ie = false ∧ State.reset.status.image = 0x00000000 ∧ State.reset.latch.cmd = 0x00000000 ∧
  State.reset.latch.addr0 = 0 ∧ State.reset.latch.addr1 = 0 ∧ State.reset.latch.len = 0 ∧
  State.reset.latch.klen = 0 ∧ State.reset.addr0 = 0 ∧ State.reset.addr1 = 0 ∧ State.reset.len = 0 ∧
  State.reset.klen = 0 ∧ State.reset.res = 0 ∧ State.reset.flags.image = 0x00000000 ∧
  State.reset.irq = false ∧ State.reset.rngReady = false

/-- The block right after reset meets the invariant. (The values of its X registers, ORAM and parameters are the
model's choice, log 1, 2 and 4; the invariant asks only that they are legal.) -/
def Obligations.ResetMeetsTheInvariant : Prop := State.reset.Inv

/-- Every step keeps the invariant: the parameters stay those of R6, every X register below 2^W (R22), ORAM inside its
size (R51), STATUS and FLAGS consistent (R34, R42, R205), the drawn padding bytes non-zero and not more than needed
(R101), nothing running in reset (R230), and only ORAM accesses held (R58). (The model's choices: the parameters in the
state, log 4; ORAM's canonical form, log 2; the drawn padding bytes as the list `ps`, log 14; that a misaligned access
or one over the ORAM's end is held too, log 8 and 10; and that nothing is held in reset, log 9.) -/
def Obligations.StepKeepsTheInvariant : Prop := ∀ s t : State, s.Inv → step s = .next t → t.Inv

/-- The parameters are fixed for one block (R6): no step changes them. (That they stand in the state is the
model's choice, log 4.) -/
def Obligations.StepKeepsTheParameters : Prop :=
  ∀ s t : State, step s = .next t → t.params = s.params

/-- Equal memories are equal data: two memories in canonical form that read alike at every offset are one. (The
form is the model's choice, log 2.) -/
def Obligations.MemoriesThatReadAlikeAreEqual : Prop :=
  ∀ m n : Memory, m.wf → n.wf → (∀ a, m.read a = n.read a) → m = n

/-! ### Reset (R230 to R233) -/

/-- R232: a CTRL write with SRST = 1 ends in a next state in which every MMIO field has its value of the column
"Soft reset" of R44, IE too whatever was written to it; held accesses stay held, and while IDLE the X registers
and ORAM are kept. (The answer's data 0: log 11.) -/
def Obligations.SoftResetClearsTheRegisters : Prop :=
  ∀ (s : State) (d : Word) (rest : List Input), Listening s → d[1] = true →
    s.inputs = .bus (regWriteAccess s 0x00C d) :: rest →
    ∃ t, step s = .next t ∧
      t = { s with
        x := t.x, oram := t.oram, freeCount := t.freeCount, ie := false
        status := { busy := false, done := false, err := false, ovr := false, ecode := .none }
        latch := { cmd := 0, addr0 := 0, addr1 := 0, len := 0, klen := 0 }
        addr0 := 0, addr1 := 0, len := 0, klen := 0, res := 0
        flags := { eq := false, lt := false, gt := false, trunc := false }
        ps := [], inputs := rest, answer := some ⟨regWriteAccess s 0x00C d, 0, .okay⟩ } ∧
      (s.status.busy = false → t.x = s.x ∧ t.oram = s.oram)

/-- R233: a soft reset of a running command leaves unspecified only that command's destination, which the model
says nothing about but that a register stays below 2^W; a command that would have raised an error, an illegal word
among them, leaves its destination unchanged too. -/
def Obligations.AbortTouchesOnlyTheDestination : Prop :=
  ∀ (s t : State) (d : Word) (rest : List Input), s.rstN = true → s.status.busy = true → s.oram.wf →
    d[1] = true → s.inputs = .bus (regWriteAccess s 0x00C d) :: rest → step s = .next t →
    (∀ i, decode s.latch.cmd = .ok i →
      (∀ r, ¬ mayWriteX i r → t.readX r = s.readX r) ∧
      (∀ r, mayWriteX i r → t.readX r = s.readX r ∨ t.readX r < 2 ^ s.params.width) ∧
      (∀ a, ¬ mayWriteOram s i a → t.oram.read a = s.oram.read a) ∧
      (∀ u, exec i s = .next u → s.status.err = false → u.status.err = true → t.x = s.x ∧ t.oram = s.oram)) ∧
    ((∃ e, decode s.latch.cmd = .error e) → t.x = s.x ∧ t.oram = s.oram)

/-- R230: when the reset pin is sampled at 0, whatever the block does, it enters reset with the values of the
column "Power-on reset" of R44, `irq` and `rng_ready` 0. X registers and ORAM are unspecified. (That a held access
is given up is the model's choice, log 9.) When the pin is sampled at 1 nothing else changes. -/
def Obligations.PowerOnResetClearsTheRegisters : Prop :=
  ∀ (s : State) (rest : List Input),
    (s.inputs = .rstPin false :: rest → ∃ t, step s = .next t ∧
      t = { s with
        x := t.x, xWritten := t.xWritten, oram := t.oram, freeCount := t.freeCount, ie := false
        status := { busy := false, done := false, err := false, ovr := false, ecode := .none }
        latch := { cmd := 0, addr0 := 0, addr1 := 0, len := 0, klen := 0 }
        addr0 := 0, addr1 := 0, len := 0, klen := 0, res := 0
        flags := { eq := false, lt := false, gt := false, trunc := false }
        ps := [], held := [], rstN := false, inputs := rest, answer := none } ∧
      t.irq = false ∧ t.rngReady = false) ∧
    (s.inputs = .rstPin true :: rest → step s = .next { s with rstN := true, inputs := rest, answer := none })

/-- U7, R230: in reset a host access has no move (refused by name, log 12), and the engine's turn does nothing,
whether it stands at the head of the inputs or no input is left (log 5). -/
def Obligations.NothingRunsInReset : Prop :=
  ∀ (s : State) (rest : List Input), s.rstN = false → s.held = [] →
    (∀ a, s.inputs = .bus a :: rest → step s = .refused .accessDuringReset) ∧
    (s.inputs = .engine :: rest → step s = .next { s with inputs := rest, answer := none }) ∧
    (s.inputs = [] → step s = .next { s with answer := none })

/-- R200, R220: while IDLE (BUSY = 0) the engine's turn does nothing, whether it stands at the head of the inputs or
no input is left (the model's choice, log 5). (A held ORAM access, if any, is performed first: log 8.) -/
def Obligations.IdleEngineDoesNothing : Prop :=
  ∀ (s : State) (rest : List Input), s.status.busy = false → s.held = [] →
    (s.inputs = .engine :: rest → step s = .next { s with inputs := rest, answer := none }) ∧
    (s.inputs = [] → step s = .next { s with answer := none })

/-! ### The bus (R51 to R60, R208) -/

/-- R30 to R41: what an aligned 32-bit read of each register returns, bit by bit; nothing else changes. -/
def Obligations.RegisterReadsReturnTheFields : Prop :=
  ∀ (s : State) (off : Nat) (rest : List Input), Listening s → off ≤ 0x02C → off % 4 = 0 →
    s.inputs = .bus (regReadAccess s off) :: rest →
    ∃ d : Word, step s = .next { s with inputs := rest, answer := some ⟨regReadAccess s off, d, .okay⟩ } ∧
      (off = 0x000 → d = 0x544B4531) ∧
      (off = 0x004 → d = BitVec.ofNat 32 s.params.maxl) ∧
      (off = 0x008 → d = BitVec.ofNat 32 s.params.oramBytes) ∧
      (off = 0x00C → d.toNat = s.ie.toNat) ∧
      (off = 0x010 → d.toNat = s.status.busy.toNat + 2 * s.status.done.toNat + 4 * s.status.err.toNat +
        8 * s.status.ovr.toNat + 256 * (match s.status.ecode with
          | .none => 0 | .illegalCommand => 1 | .invalidParameter => 2 | .rangeError => 3
          | .invalidModulus => 4 | .messageTooLong => 5 | .invalidPadding => 6)) ∧
      (off = 0x014 → d = s.latch.cmd) ∧
      (off = 0x018 → d = s.addr0) ∧ (off = 0x01C → d = s.addr1) ∧
      (off = 0x020 → d = s.len) ∧ (off = 0x024 → d = s.klen) ∧ (off = 0x028 → d = s.res) ∧
      (off = 0x02C → d.toNat = s.flags.eq.toNat + 2 * s.flags.lt.toNat + 4 * s.flags.gt.toNat +
        8 * s.flags.trunc.toNat)

/-- R36 to R39, R24: a write of ADDR0, ADDR1, LEN or KLEN sets all 32 bits of that register at any time and
changes nothing else, the latches of a running command least of all. (The answer's data 0: log 11.) -/
def Obligations.OperandRegisterWritesAreNotLatched : Prop :=
  ∀ (s : State) (d : Word) (rest : List Input), Listening s →
    (s.inputs = .bus (regWriteAccess s 0x018 d) :: rest →
      step s = .next { s with
        addr0 := d, inputs := rest, answer := some ⟨regWriteAccess s 0x018 d, 0, .okay⟩ }) ∧
    (s.inputs = .bus (regWriteAccess s 0x01C d) :: rest →
      step s = .next { s with
        addr1 := d, inputs := rest, answer := some ⟨regWriteAccess s 0x01C d, 0, .okay⟩ }) ∧
    (s.inputs = .bus (regWriteAccess s 0x020 d) :: rest →
      step s = .next { s with
        len := d, inputs := rest, answer := some ⟨regWriteAccess s 0x020 d, 0, .okay⟩ }) ∧
    (s.inputs = .bus (regWriteAccess s 0x024 d) :: rest →
      step s = .next { s with
        klen := d, inputs := rest, answer := some ⟨regWriteAccess s 0x024 d, 0, .okay⟩ })

/-- R34: a STATUS write clears DONE, ERR and OVR where a 1 is written, at any time; BUSY and ECODE do not change,
nor does anything else. (The answer's data 0: log 11.) -/
def Obligations.StatusWriteClearsWrittenOnes : Prop :=
  ∀ (s : State) (d : Word) (rest : List Input), Listening s →
    s.inputs = .bus (regWriteAccess s 0x010 d) :: rest →
    step s = .next { s with
      status := { busy := s.status.busy, ecode := s.status.ecode
                  done := if d[1] then false else s.status.done
                  err := if d[2] then false else s.status.err
                  ovr := if d[3] then false else s.status.ovr }
      inputs := rest, answer := some ⟨regWriteAccess s 0x010 d, 0, .okay⟩ }

/-- R33, R40, R41, R30 to R32: a CTRL write without SRST writes IE alone; writes to the read-only registers are
ignored. (The answer's data 0: log 11.) -/
def Obligations.CtrlAndReadOnlyWrites : Prop :=
  ∀ (s : State) (d : Word) (rest : List Input), Listening s →
    (d[1] = false → s.inputs = .bus (regWriteAccess s 0x00C d) :: rest →
      step s = .next { s with
        ie := d[0], inputs := rest, answer := some ⟨regWriteAccess s 0x00C d, 0, .okay⟩ }) ∧
    ∀ off ∈ [0x000, 0x004, 0x008, 0x028, 0x02C], s.inputs = .bus (regWriteAccess s off d) :: rest →
      step s = .next { s with inputs := rest, answer := some ⟨regWriteAccess s off d, 0, .okay⟩ }

/-- R55, R56, R208: an access to the register space that is not 32 bits wide and aligned, and a misaligned access
above it, gets ERROR, reads 0, and changes no state of the block. (A misaligned ORAM access that comes while BUSY
is held first, which is the model's choice, log 8; this statement does not speak of it.) -/
def Obligations.BusErrorsChangeNothing : Prop :=
  ∀ (s : State) (a : BusAccess) (rest : List Input), Listening s → s.inputs = .bus a :: rest →
    s.params.base ≤ a.addr → a.addr < s.params.base + 0x10000 →
    (a.addr - s.params.base < 0x1000 ∧ (a.size ≠ .word ∨ (a.addr - s.params.base) % 4 ≠ 0) ∨
      0x1000 ≤ a.addr - s.params.base ∧ (a.addr - s.params.base) % a.size.bytes ≠ 0 ∧
        (s.status.busy = false ∨ 0x1000 + s.params.oramBytes ≤ a.addr - s.params.base)) →
    ∃ d : Word, step s = .next { s with inputs := rest, answer := some ⟨a, d, .error⟩ } ∧
      (a.wdata = none → d = 0)

/-- R52: an allowed access to a reserved offset reads 0, ignores writes and gets OKAY. (The data 0 in the
answer to a write: log 11.) -/
def Obligations.ReservedSpaceReadsZero : Prop :=
  ∀ (s : State) (a : BusAccess) (rest : List Input), Listening s → s.inputs = .bus a :: rest →
    s.params.base ≤ a.addr → a.addr < s.params.base + 0x10000 →
    (0x0030 ≤ a.addr - s.params.base ∧ a.addr - s.params.base < 0x1000 ∧ a.size = .word ∧
        (a.addr - s.params.base) % 4 = 0 ∨
      0x1000 + s.params.oramBytes ≤ a.addr - s.params.base ∧
        (a.addr - s.params.base) % a.size.bytes = 0) →
    step s = .next { s with inputs := rest, answer := some ⟨a, 0, .okay⟩ }

/-- R57: no read anywhere in the window has a side effect: only the port's answer and the list of held accesses
can change. -/
def Obligations.ReadsHaveNoSideEffect : Prop :=
  ∀ (s : State) (a : BusAccess) (rest : List Input), Listening s → s.inputs = .bus a :: rest →
    a.wdata = none → s.params.base ≤ a.addr → a.addr < s.params.base + 0x10000 →
    ∃ held answer, step s = .next { s with inputs := rest, held := held, answer := answer }

/-- R54: byte lanes are little-endian: lane j of a read carries ORAM[o+j], and lane j of a write goes to
ORAM[o+j], for every aligned access inside the ORAM; no other byte and nothing else changes. (The lane of an 8-bit
write, and the data 0 in the answer to a write, are the model's choice: log 11.) -/
def Obligations.ByteLanesAreLittleEndian : Prop :=
  ∀ (s : State) (sz : AccessSize) (o : Nat) (rest : List Input), s.params.WellFormed → s.oram.wf →
    Listening s → s.status.busy = false → o % sz.bytes = 0 → o + sz.bytes ≤ s.params.oramBytes →
    (s.inputs = .bus ⟨s.params.base + 0x1000 + o, sz, none⟩ :: rest →
      ∃ d : Word, step s = .next { s with
          inputs := rest, answer := some ⟨⟨s.params.base + 0x1000 + o, sz, none⟩, d, .okay⟩ } ∧
        ∀ j < sz.bytes, d.toNat / 256 ^ j % 256 = (s.oram.read (o + j)).toNat) ∧
    (∀ d : Word, s.inputs = .bus ⟨s.params.base + 0x1000 + o, sz, some d⟩ :: rest →
      ∃ m, step s = .next { s with
          oram := m, inputs := rest
          answer := some ⟨⟨s.params.base + 0x1000 + o, sz, some d⟩, 0, .okay⟩ } ∧
        (∀ j < sz.bytes, (m.read (o + j)).toNat = d.toNat / 256 ^ j % 256) ∧
        ∀ a, a < o ∨ o + sz.bytes ≤ a → m.read a = s.oram.read a)

/-- R58: an ORAM access while BUSY = 1 is held and changes nothing; once BUSY is 0 (a completion or a soft reset)
the oldest held access is performed on the ORAM as it then is, whatever it is: a misaligned one gets ERROR and changes
nothing (R56), a read returns the bytes that stand there and changes nothing, a write stores its lanes and changes no
other byte (R54). (The model's choices: the lane of an 8-bit write, log 11; a misaligned access is held too, and the
held access comes before any further input but the reset pin, log 8 and 20; one that runs over the ORAM's end is an
ORAM access, log 10, of which nothing is said past the end but that no byte there changes.) -/
def Obligations.OramAccessWaitsOutBusy : Prop :=
  ∀ (s : State) (a : BusAccess) (o : Nat), s.params.WellFormed → s.oram.wf → s.rstN = true →
    a.addr = s.params.base + 0x1000 + o → o < s.params.oramBytes →
    (∀ rest, s.status.busy = true → s.inputs = .bus a :: rest →
      step s = .next { s with inputs := rest, held := s.held ++ [a], answer := none }) ∧
    (∀ more, s.status.busy = false → s.held = a :: more → (∀ l rest, s.inputs ≠ .rstPin l :: rest) →
      ∃ (m : Memory) (d : Word) (r : BusResp),
        step s = .next { s with oram := m, held := more, answer := some ⟨a, d, r⟩ } ∧
        (o % a.size.bytes ≠ 0 → r = .error ∧ m = s.oram ∧ (a.wdata = none → d = 0)) ∧
        (o % a.size.bytes = 0 → r = .okay) ∧
        (o % a.size.bytes = 0 → a.wdata = none → m = s.oram ∧
          ∀ j < a.size.bytes, o + j < s.params.oramBytes →
            d.toNat / 256 ^ j % 256 = (s.oram.read (o + j)).toNat) ∧
        (∀ w, o % a.size.bytes = 0 → a.wdata = some w →
          (∀ j < a.size.bytes, o + j < s.params.oramBytes →
            (m.read (o + j)).toNat = w.toNat / 256 ^ j % 256) ∧
          ∀ b, b < o ∨ o + a.size.bytes ≤ b ∨ s.params.oramBytes ≤ b → m.read b = s.oram.read b))

/-- R243: while BUSY stays 1 over a step, RES, FLAGS, ECODE, the X registers and ORAM keep the values from before
the running command. -/
def Obligations.ResultsAppearAtCompletion : Prop :=
  ∀ s t : State, s.status.busy = true → step s = .next t → t.status.busy = true →
    t.res = s.res ∧ t.flags = s.flags ∧ t.status.ecode = s.status.ecode ∧ t.x = s.x ∧ t.oram = s.oram ∧
      t.latch = s.latch ∧ t.status.done = (s.status.done && t.status.done)

/-- R21: the bus cannot read the X registers: what the port answers to an access is the same whatever they hold.
Nor can it write them: an access changes none, but for the soft reset of a running command (R233). -/
def Obligations.BusCannotReachTheXRegisters : Prop :=
  ∀ (s t u : State) (x : Vector Nat 8) (a : BusAccess) (rest : List Input), Listening s →
    s.inputs = .bus a :: rest → step s = .next t → step { s with x := x } = .next u →
    t.answer = u.answer ∧ t.status = u.status ∧ t.res = u.res ∧ t.flags = u.flags ∧
      (s.status.busy = false ∨ t.status.busy = true → t.x = s.x)

/-! ### Interrupt and RNG port (R62, R210, R211) -/

/-- R210: irq = CTRL.IE and (STATUS.DONE or STATUS.OVR). -/
def Obligations.IrqIsEnabledDoneOrOverrun : Prop :=
  ∀ s : State, s.irq = true ↔ s.ie = true ∧ (s.status.done = true ∨ s.status.ovr = true)

/-- R211: each of these drives `irq` to 0 when no source remains: a STATUS write of 1 to DONE and OVR (one of
them if the other is 0), the acceptance of a command with OVR 0, IE = 0, and a reset. -/
def Obligations.InterruptIsCleared : Prop :=
  ∀ (s t : State) (d : Word) (rest : List Input), Listening s → step s = .next t →
    (s.inputs = .bus (regWriteAccess s 0x010 d) :: rest →
      (d[1] = true ∨ s.status.done = false) → (d[3] = true ∨ s.status.ovr = false) →
      t.irq = false) ∧
    (s.inputs = .bus (regWriteAccess s 0x014 d) :: rest → s.status.busy = false → s.status.ovr = false →
      t.irq = false) ∧
    (s.inputs = .bus (regWriteAccess s 0x00C d) :: rest → d[0] = false ∨ d[1] = true →
      t.irq = false) ∧
    (s.inputs = .rstPin false :: rest → t.irq = false)

/-- R62, U4: a byte the RNG source presents joins the end of the stream and changes nothing else, and a step takes
bytes from the front of it only while `rng_ready` is 1, that is while a PADENC past its checks still needs padding
bytes; no other step changes the stream. (That the bytes wait in a list is the model's choice, log 14.) -/
def Obligations.RngBytesAreTakenOnlyWhenReady : Prop :=
  (∀ (s : State) (b : Byte) (rest : List Input), s.held = [] ∨ s.status.busy = true →
    s.inputs = .rngByte b :: rest →
    step s = .next { s with inputs := rest, rng := s.rng ++ [b], answer := none }) ∧
  ∀ s t : State, step s = .next t →
    t.rng = s.rng ∨ (∃ b rest, s.inputs = .rngByte b :: rest ∧ t.rng = s.rng ++ [b]) ∨
      (s.rngReady = true ∧ decode s.latch.cmd = .ok .padenc ∧ s.status.busy = true ∧
        ∃ taken, s.rng = taken ++ t.rng)
end

