-- ==== Sys2Proof/Laws/Arith.lean ====
section
/-! SUPPORT. What the functions of Machine/Arith.lean compute: bit and byte lengths, the converters, modular
exponentiation and the inverse of the Montgomery radix. -/

namespace Sys2Proof.Machine

open Sys2Proof

/-! ### Lengths -/

@[simp] theorem bitLength_zero : bitLength 0 = 0 := rfl

theorem lt_two_pow_bitLength (v : Nat) : v < 2 ^ bitLength v := by
  unfold bitLength
  split_ifs with h
  · simp [h]
  · exact Nat.lt_log2_self

theorem two_pow_bitLength_le {v : Nat} (h : v ≠ 0) : 2 ^ (bitLength v - 1) ≤ v := by
  unfold bitLength
  rw [if_neg h]
  exact Nat.log2_self_le h

/-- The bit length is at most k exactly for the values below `2^k`. -/
theorem bitLength_le_iff (v k : Nat) : bitLength v ≤ k ↔ v < 2 ^ k := by
  constructor
  · intro h
    exact Nat.lt_of_lt_of_le (lt_two_pow_bitLength v) (Nat.pow_le_pow_right (by decide) h)
  · intro h
    by_cases hv : v = 0
    · simp [hv]
    · have h1 : 2 ^ (bitLength v - 1) < 2 ^ k := Nat.lt_of_le_of_lt (two_pow_bitLength_le hv) h
      have := (Nat.pow_lt_pow_iff_right (by decide)).1 h1
      omega

/-- The byte length is at most k exactly for the values below `2^(8k)`. -/
theorem byteLength_le_iff (v k : Nat) : byteLength v ≤ k ↔ v < 2 ^ (8 * k) := by
  rw [← bitLength_le_iff]
  unfold byteLength
  omega

theorem lt_two_pow_byteLength (v : Nat) : v < 2 ^ (8 * byteLength v) := (byteLength_le_iff v _).1 le_rfl

/-! ### Converters -/

@[simp] theorem length_canonBytes (v k : Nat) : (canonBytes v k).length = k := by
  induction k with
  | zero => rfl
  | succ k ih => simp [canonBytes, ih]

theorem beValue_foldl (acc : Nat) (bs : List Byte) :
    bs.foldl (fun acc b => acc * 256 + b.toNat) acc = acc * 2 ^ (8 * bs.length) + beValue bs := by
  induction bs generalizing acc with
  | nil => simp [beValue]
  | cons b bs ih =>
    have h1 := ih (acc * 256 + b.toNat)
    have h2 := ih (0 * 256 + b.toNat)
    simp only [beValue, List.foldl_cons, List.length_cons] at h1 h2 ⊢
    rw [h1, h2, show 8 * (bs.length + 1) = 8 * bs.length + 8 by ring, pow_add]
    ring

@[simp] theorem beValue_nil : beValue [] = 0 := rfl

/-- The first byte is the most significant (R53). -/
theorem beValue_cons (b : Byte) (bs : List Byte) :
    beValue (b :: bs) = b.toNat * 2 ^ (8 * bs.length) + beValue bs := by
  have := beValue_foldl (0 * 256 + b.toNat) bs
  simpa [beValue] using this

theorem beValue_append (bs cs : List Byte) : beValue (bs ++ cs) = beValue bs * 2 ^ (8 * cs.length) + beValue cs := by
  have := beValue_foldl (beValue bs) cs
  simpa [beValue] using this

theorem beValue_lt (bs : List Byte) : beValue bs < 2 ^ (8 * bs.length) := by
  induction bs with
  | nil => simp
  | cons b bs ih =>
    rw [beValue_cons, List.length_cons, show 8 * (bs.length + 1) = 8 * bs.length + 8 by ring, pow_add]
    have := b.isLt
    nlinarith

theorem canonBytes_succ (v k : Nat) :
    canonBytes v (k + 1) = BitVec.ofNat 8 (v / 2 ^ (8 * k)) :: canonBytes v k := rfl

/-- `be(canon(v, k)) = v mod 2^(8k)` (R123). -/
theorem beValue_canonBytes (v k : Nat) : beValue (canonBytes v k) = v % 2 ^ (8 * k) := by
  induction k with
  | zero => simp [canonBytes, Nat.mod_one]
  | succ k ih =>
    rw [canonBytes_succ, beValue_cons, ih, length_canonBytes, BitVec.toNat_ofNat,
      show 8 * (k + 1) = 8 * k + 8 by ring, pow_add, Nat.mod_mul]
    ring

/-- `canon(be(B), len(B)) = B` (R123), with more significant bytes dropped. -/
theorem canonBytes_add (bs : List Byte) (c : Nat) :
    canonBytes (c * 2 ^ (8 * bs.length) + beValue bs) bs.length = bs := by
  induction bs generalizing c with
  | nil => rfl
  | cons b bs ih =>
    have hlt := beValue_lt bs
    rw [List.length_cons, canonBytes_succ, beValue_cons]
    have e : c * 2 ^ (8 * (bs.length + 1)) + (b.toNat * 2 ^ (8 * bs.length) + beValue bs)
        = (c * 256 + b.toNat) * 2 ^ (8 * bs.length) + beValue bs := by
      rw [show 8 * (bs.length + 1) = 8 * bs.length + 8 by ring, pow_add]; ring
    rw [e, ih]
    congr 1
    rw [Nat.add_comm, Nat.add_mul_div_right _ _ (by positivity), Nat.div_eq_of_lt hlt]
    apply BitVec.eq_of_toNat_eq
    have := b.isLt
    simp only [BitVec.toNat_ofNat]
    omega

theorem canonBytes_beValue (bs : List Byte) : canonBytes (beValue bs) bs.length = bs := by
  simpa using canonBytes_add bs 0

/-- `canon(v, k) = canon(v mod 2^(8k), k)` (R123). -/
theorem canonBytes_mod (v k : Nat) : canonBytes v k = canonBytes (v % 2 ^ (8 * k)) k := by
  have h := canonBytes_add (canonBytes v k) (v / 2 ^ (8 * k))
  have h' := canonBytes_beValue (canonBytes v k)
  rw [beValue_canonBytes, length_canonBytes] at h h'
  rw [h']

/-! ### Modular exponentiation -/

theorem sqMulStep_eq (a n m : Nat) (bit : Bool) :
    sqMulStep (a % n) n (a ^ m % n) bit = a ^ (2 * m + bit.toNat) % n := by
  have h : a ^ m % n * (a ^ m % n) % n = a ^ (2 * m) % n := by
    rw [← Nat.mul_mod, ← pow_add, two_mul]
  cases bit
  · simp [sqMulStep, h]
  · simp only [sqMulStep, if_true, h]
    rw [← Nat.mul_mod, ← pow_succ]
    rfl

theorem bitsDown_foldl (a e n k m : Nat) :
    (bitsDown e k).foldl (sqMulStep (a % n) n) (a ^ m % n) = a ^ (m * 2 ^ k + e % 2 ^ k) % n := by
  induction k generalizing m with
  | zero => simp [bitsDown, Nat.mod_one]
  | succ k ih =>
    simp only [bitsDown, List.foldl_cons, sqMulStep_eq]
    rw [ih]
    congr 2
    have hb : (e / 2 ^ k % 2 == 1).toNat = e / 2 ^ k % 2 := by
      rcases Nat.mod_two_eq_zero_or_one (e / 2 ^ k) with h | h <;> simp [h]
    rw [hb, pow_succ, Nat.mod_mul]
    ring

/-- The engine's algorithm computes the exact integer `a^e mod n` (R128). -/
theorem powMod_eq (a e n : Nat) : powMod a e n = a ^ e % n := by
  have h := bitsDown_foldl a e n (bitLength e) 0
  rw [pow_zero, Nat.zero_mul, Nat.zero_add, Nat.mod_eq_of_lt (lt_two_pow_bitLength e)] at h
  exact h

/-! ### The Montgomery radix -/

theorem validMod_iff (n : Nat) : validMod n = true ↔ n % 2 = 1 ∧ 1 < n := by
  simp [validMod]

/-- `R * R⁻¹ ≡ 1 (mod n)` (R150). -/
theorem montR_mul_montRInv {n : Nat} (h : validMod n = true) : montR n * montRInv n % n = 1 := by
  obtain ⟨hodd, h1⟩ := (validMod_iff n).1 h
  have h2 : 2 * ((n + 1) / 2) = n + 1 := by omega
  rw [montRInv, powMod_eq, montR, Nat.mul_mod_mod, ← mul_pow, h2, Nat.pow_mod, Nat.add_mod_left,
    Nat.mod_eq_of_lt h1, one_pow, Nat.mod_eq_of_lt h1]

theorem montRInv_lt {n : Nat} (h : validMod n = true) : montRInv n < n := by
  rw [montRInv, powMod_eq]
  exact Nat.mod_lt _ (by have := ((validMod_iff n).1 h).2; omega)

/-- A multiple of R that agrees mod n agrees without R: R is invertible mod n. -/
theorem mod_eq_of_montR_mul {n a b : Nat} (h : validMod n = true) (e : montR n * a % n = montR n * b % n) :
    a % n = b % n := by
  have key : ∀ c, montRInv n * (montR n * c) % n = c % n := fun c => by
    rw [← mul_assoc, Nat.mul_mod, mul_comm (montRInv n), montR_mul_montRInv h, one_mul, Nat.mod_mod]
  rw [← key a, ← key b, Nat.mul_mod, e, ← Nat.mul_mod]

/-- Whatever is an inverse of R below n is `montRInv n` (R150: it is unique). -/
theorem montRInv_unique {n r : Nat} (h : validMod n = true) (hr : r < n) (e : montR n * r % n = 1) :
    r = montRInv n := by
  have := mod_eq_of_montR_mul h (e.trans (montR_mul_montRInv h).symm)
  rwa [Nat.mod_eq_of_lt hr, Nat.mod_eq_of_lt (montRInv_lt h)] at this

end Sys2Proof.Machine
end

