-- ==== Sys2Proof/Laws/Memory.lean ====
section
/-! SUPPORT. The laws of the operand RAM: a write is read back, leaves every other byte alone and keeps the
canonical form; equal contents are equal data. -/

namespace Sys2Proof.Machine

open Sys2Proof

theorem Memory.read_nil (a : Nat) : Memory.read [] a = Memory.unlisted := rfl

theorem Memory.read_cons (k : Nat) (b : Byte) (m : Memory) (a : Nat) :
    Memory.read ((k, b) :: m) a = if k = a then b else Memory.read m a := rfl

/-- An offset below every listed one reads as unlisted. -/
theorem Memory.read_below {m : Memory} {a : Nat} (h : ∀ c ∈ m, a < c.1) : Memory.read m a = Memory.unlisted := by
  induction m with
  | nil => rfl
  | cons c m ih =>
    have hc := h c (by simp)
    rw [Memory.read_cons, if_neg (by omega)]
    exact ih fun d hd => h d (by simp [hd])

/-- Reading after one write (R11): the written byte there, the old byte elsewhere. -/
theorem Memory.read_write {m : Memory} (hm : m.wf) (a : Nat) (v : Byte) (i : Nat) :
    Memory.read (Memory.write m a v) i = if i = a then v else Memory.read m i := by
  induction m with
  | nil =>
    by_cases hv : v = Memory.unlisted <;> by_cases hi : i = a <;>
      simp_all [Memory.write, Memory.read_nil, Memory.read_cons, eq_comm]
  | cons c m ih =>
    obtain ⟨k, b⟩ := c
    have hm' : Memory.wf m := ⟨(List.pairwise_cons.1 hm.1).2, fun c hc => hm.2 c (by simp [hc])⟩
    have hk : ∀ c ∈ m, k < c.1 := (List.pairwise_cons.1 hm.1).1
    have below : i = a → a ≤ k → Memory.read m i = Memory.unlisted := fun hi hak =>
      Memory.read_below fun c hc => by have := hk c hc; omega
    rcases Nat.lt_trichotomy a k with h1 | h1 | h1
    · simp only [Memory.write, if_pos h1]
      by_cases hv : v = Memory.unlisted
      · rw [if_pos hv, Memory.read_cons]
        by_cases hi : i = a
        · rw [if_pos hi, if_neg (by omega), below hi h1.le, hv]
        · rw [if_neg hi]
      · rw [if_neg hv, Memory.read_cons]
        by_cases hi : i = a
        · rw [if_pos hi, if_pos hi.symm]
        · rw [if_neg hi, if_neg (Ne.symm hi)]
    · subst h1
      simp only [Memory.write, if_neg (Nat.lt_irrefl a), if_true]
      by_cases hv : v = Memory.unlisted
      · rw [if_pos hv, Memory.read_cons]
        by_cases hi : i = a
        · rw [if_pos hi, below hi le_rfl, hv]
        · rw [if_neg hi, if_neg (Ne.symm hi)]
      · rw [if_neg hv, Memory.read_cons, Memory.read_cons]
        by_cases hi : i = a
        · rw [if_pos hi, if_pos hi.symm]
        · rw [if_neg hi, if_neg (Ne.symm hi), if_neg (Ne.symm hi)]
    · simp only [Memory.write, if_neg (Nat.not_lt.2 h1.le), if_neg (Nat.ne_of_gt h1)]
      rw [Memory.read_cons, Memory.read_cons, ih hm']
      by_cases hi : k = i
      · rw [if_pos hi, if_pos hi, if_neg (by omega)]
      · rw [if_neg hi, if_neg hi]

/-- Every offset listed after a write was listed before or is the written one. -/
theorem Memory.mem_write {m : Memory} {a : Nat} {v : Byte} {c : Host.Cell} (hc : c ∈ Memory.write m a v) :
    c ∈ m ∨ (c = (a, v) ∧ v ≠ Memory.unlisted) := by
  induction m with
  | nil =>
    simp only [Memory.write] at hc
    split_ifs at hc with h
    · exact .inl hc
    · exact .inr ⟨by simpa using hc, h⟩
  | cons d m ih =>
    obtain ⟨k, b⟩ := d
    simp only [Memory.write] at hc
    split_ifs at hc with h1 h2 h3 h4
    · exact .inl hc
    · rcases List.mem_cons.1 hc with h | h
      · exact .inr ⟨h, h2⟩
      · exact .inl h
    · exact .inl (List.mem_cons_of_mem _ hc)
    · rcases List.mem_cons.1 hc with h | h
      · exact .inr ⟨h, h4⟩
      · exact .inl (List.mem_cons_of_mem _ h)
    · rcases List.mem_cons.1 hc with h | h
      · exact .inl (h ▸ List.mem_cons_self)
      · exact (ih h).imp (List.mem_cons_of_mem _) id

/-- A write keeps the canonical form. -/
theorem Memory.wf_write {m : Memory} (hm : m.wf) (a : Nat) (v : Byte) : (Memory.write m a v).wf := by
  refine ⟨?_, fun c hc => ?_⟩
  · induction m with
    | nil => simp only [Memory.write]; split_ifs <;> simp
    | cons d m ih =>
      obtain ⟨k, b⟩ := d
      have hm' : Memory.wf m := ⟨(List.pairwise_cons.1 hm.1).2, fun c hc => hm.2 c (by simp [hc])⟩
      have hk : ∀ c ∈ m, k < c.1 := (List.pairwise_cons.1 hm.1).1
      simp only [Memory.write]
      split_ifs with h1 h2 h3 h4
      · exact hm.1
      · refine List.pairwise_cons.2 ⟨fun c hc => ?_, hm.1⟩
        rcases List.mem_cons.1 hc with h | h
        · subst h; exact h1
        · exact Nat.lt_trans h1 (hk c h)
      · exact hm'.1
      · exact List.pairwise_cons.2 ⟨fun c hc => by have := hk c hc; omega, hm'.1⟩
      · refine List.pairwise_cons.2 ⟨fun c hc => ?_, ih hm'⟩
        rcases Memory.mem_write hc with h | ⟨h, -⟩
        · exact hk c h
        · subst h; omega
  · rcases Memory.mem_write hc with h | ⟨h, hv⟩
    · exact hm.2 c h
    · subst h; exact hv

theorem Memory.wf_nil : Memory.wf [] := by decide

/-- Writing bytes keeps the canonical form. -/
theorem Memory.wf_writeBytes {m : Memory} (hm : m.wf) (a : Nat) (bs : List Byte) : (m.writeBytes a bs).wf := by
  induction bs generalizing m a with
  | nil => exact hm
  | cons b bs ih => exact ih (Memory.wf_write hm a b) (a + 1)

/-- Every offset listed after writing bytes was listed before or lies in the written range. -/
theorem Memory.mem_writeBytes {m : Memory} {a : Nat} {bs : List Byte} {c : Host.Cell}
    (hc : c ∈ m.writeBytes a bs) : c ∈ m ∨ (a ≤ c.1 ∧ c.1 < a + bs.length) := by
  induction bs generalizing m a with
  | nil => exact .inl hc
  | cons b bs ih =>
    rcases ih hc with h | h
    · rcases Memory.mem_write h with h' | ⟨h', -⟩
      · exact .inl h'
      · subst h'; exact .inr (by simp)
    · exact .inr (by simp only [List.length_cons]; omega)

/-- Reading after a `MemWrite`: the written byte inside the range, the old byte outside it. -/
theorem Memory.read_writeBytes {m : Memory} (hm : m.wf) (a : Nat) (bs : List Byte) (i : Nat) :
    (m.writeBytes a bs).read i =
      if h : a ≤ i ∧ i < a + bs.length then bs[i - a]'(by omega) else m.read i := by
  induction bs generalizing m a with
  | nil => rw [dif_neg (by simp)]; rfl
  | cons b bs ih =>
    have h := ih (Memory.wf_write hm a b) (a + 1)
    rw [Memory.read_write hm] at h
    refine Eq.trans h ?_
    by_cases h1 : a ≤ i ∧ i < a + (b :: bs).length
    · rw [dif_pos h1]
      simp only [List.length_cons] at h1
      by_cases h2 : i = a
      · subst h2; rw [dif_neg (by omega), if_pos rfl]; simp
      · rw [dif_pos (by omega)]
        rw [List.getElem_cons, dif_neg (by omega)]
        congr 1
    · rw [dif_neg h1]
      simp only [List.length_cons] at h1
      rw [dif_neg (by omega), if_neg (by omega)]

/-- Outside the written range nothing changes. -/
theorem Memory.read_writeBytes_outside {m : Memory} (hm : m.wf) {a : Nat} {bs : List Byte} {i : Nat}
    (h : i < a ∨ a + bs.length ≤ i) : (m.writeBytes a bs).read i = m.read i := by
  rw [Memory.read_writeBytes hm, dif_neg (by omega)]

@[simp] theorem Memory.length_readBytes (m : Memory) (a k : Nat) : (m.readBytes a k).length = k := by
  induction k generalizing a with
  | zero => rfl
  | succ k ih => simp [Memory.readBytes, ih]

/-- Byte i of a `MemRead` is `ORAM[a+i]`. -/
theorem Memory.getElem_readBytes (m : Memory) (a k i : Nat) (h : i < (m.readBytes a k).length) :
    (m.readBytes a k)[i] = m.read (a + i) := by
  induction k generalizing a i with
  | zero => simp at h
  | succ k ih =>
    cases i with
    | zero => simp [Memory.readBytes]
    | succ i =>
      simp only [Memory.readBytes, List.getElem_cons_succ]
      rw [ih]; congr 1; omega

/-- A `MemRead` depends only on the bytes it reads. -/
theorem Memory.readBytes_congr {m m' : Memory} {a k : Nat} (h : ∀ i, a ≤ i → i < a + k → m.read i = m'.read i) :
    m.readBytes a k = m'.readBytes a k := by
  induction k generalizing a with
  | zero => rfl
  | succ k ih =>
    simp only [Memory.readBytes]
    rw [h a (by omega) (by omega), ih fun i h1 h2 => h i (by omega) (by omega)]

/-- A `MemRead` of the range just written gives the bytes written. -/
theorem Memory.readBytes_writeBytes {m : Memory} (hm : m.wf) (a : Nat) (bs : List Byte) :
    (m.writeBytes a bs).readBytes a bs.length = bs := by
  apply List.ext_getElem (by simp)
  intro i h1 h2
  rw [Memory.getElem_readBytes, Memory.read_writeBytes hm, dif_pos (by omega)]
  congr 1; omega

/-- A listed offset reads as its byte. -/
theorem Memory.read_of_mem {m : Memory} (hm : m.wf) {c : Host.Cell} (hc : c ∈ m) : m.read c.1 = c.2 := by
  induction m with
  | nil => simp at hc
  | cons d m ih =>
    obtain ⟨k, b⟩ := d
    have hk : ∀ c ∈ m, k < c.1 := (List.pairwise_cons.1 hm.1).1
    rcases List.mem_cons.1 hc with h | h
    · subst h; simp [Memory.read_cons]
    · rw [Memory.read_cons, if_neg (by have := hk c h; omega)]
      exact ih ⟨(List.pairwise_cons.1 hm.1).2, fun c hc => hm.2 c (by simp [hc])⟩ h

@[simp] theorem length_freeBytes (c k : Nat) : (freeBytes c k).length = k := by
  induction k generalizing c with
  | zero => rfl
  | succ k ih => simp [freeBytes, ih]

end Sys2Proof.Machine
end

