-- ==== Sys2Proof/Laws/State.lean ====
section
/-! SUPPORT. One lemma per field per update of the state, so that no later proof unfolds a record update. -/

namespace Sys2Proof.Machine

open Sys2Proof

/-! ### writeX -/

@[simp] theorem State.writeX_params (s : State) (i : XReg) (v : Nat) : (s.writeX i v).params = s.params := rfl
@[simp] theorem State.writeX_x (s : State) (i : XReg) (v : Nat) : (s.writeX i v).x = s.x.set i v := rfl
@[simp] theorem State.writeX_xWritten (s : State) (i : XReg) (v : Nat) :
    (s.writeX i v).xWritten = s.xWritten.set i true := rfl
@[simp] theorem State.writeX_oram (s : State) (i : XReg) (v : Nat) : (s.writeX i v).oram = s.oram := rfl
@[simp] theorem State.writeX_ie (s : State) (i : XReg) (v : Nat) : (s.writeX i v).ie = s.ie := rfl
@[simp] theorem State.writeX_status (s : State) (i : XReg) (v : Nat) : (s.writeX i v).status = s.status := rfl
@[simp] theorem State.writeX_latch (s : State) (i : XReg) (v : Nat) : (s.writeX i v).latch = s.latch := rfl
@[simp] theorem State.writeX_addr0 (s : State) (i : XReg) (v : Nat) : (s.writeX i v).addr0 = s.addr0 := rfl
@[simp] theorem State.writeX_addr1 (s : State) (i : XReg) (v : Nat) : (s.writeX i v).addr1 = s.addr1 := rfl
@[simp] theorem State.writeX_len (s : State) (i : XReg) (v : Nat) : (s.writeX i v).len = s.len := rfl
@[simp] theorem State.writeX_klen (s : State) (i : XReg) (v : Nat) : (s.writeX i v).klen = s.klen := rfl
@[simp] theorem State.writeX_res (s : State) (i : XReg) (v : Nat) : (s.writeX i v).res = s.res := rfl
@[simp] theorem State.writeX_flags (s : State) (i : XReg) (v : Nat) : (s.writeX i v).flags = s.flags := rfl
@[simp] theorem State.writeX_ps (s : State) (i : XReg) (v : Nat) : (s.writeX i v).ps = s.ps := rfl
@[simp] theorem State.writeX_rstN (s : State) (i : XReg) (v : Nat) : (s.writeX i v).rstN = s.rstN := rfl
@[simp] theorem State.writeX_rng (s : State) (i : XReg) (v : Nat) : (s.writeX i v).rng = s.rng := rfl
@[simp] theorem State.writeX_inputs (s : State) (i : XReg) (v : Nat) : (s.writeX i v).inputs = s.inputs := rfl
@[simp] theorem State.writeX_held (s : State) (i : XReg) (v : Nat) : (s.writeX i v).held = s.held := rfl
@[simp] theorem State.writeX_answer (s : State) (i : XReg) (v : Nat) : (s.writeX i v).answer = s.answer := rfl
@[simp] theorem State.writeX_freeCount (s : State) (i : XReg) (v : Nat) :
    (s.writeX i v).freeCount = s.freeCount := rfl

/-! ### writeOram -/

@[simp] theorem State.writeOram_params (s : State) (a : Nat) (bs : List Byte) :
    (s.writeOram a bs).params = s.params := rfl
@[simp] theorem State.writeOram_x (s : State) (a : Nat) (bs : List Byte) : (s.writeOram a bs).x = s.x := rfl
@[simp] theorem State.writeOram_xWritten (s : State) (a : Nat) (bs : List Byte) :
    (s.writeOram a bs).xWritten = s.xWritten := rfl
@[simp] theorem State.writeOram_oram (s : State) (a : Nat) (bs : List Byte) :
    (s.writeOram a bs).oram = s.oram.writeBytes a bs := rfl
@[simp] theorem State.writeOram_ie (s : State) (a : Nat) (bs : List Byte) : (s.writeOram a bs).ie = s.ie := rfl
@[simp] theorem State.writeOram_status (s : State) (a : Nat) (bs : List Byte) :
    (s.writeOram a bs).status = s.status := rfl
@[simp] theorem State.writeOram_latch (s : State) (a : Nat) (bs : List Byte) :
    (s.writeOram a bs).latch = s.latch := rfl
@[simp] theorem State.writeOram_addr0 (s : State) (a : Nat) (bs : List Byte) :
    (s.writeOram a bs).addr0 = s.addr0 := rfl
@[simp] theorem State.writeOram_addr1 (s : State) (a : Nat) (bs : List Byte) :
    (s.writeOram a bs).addr1 = s.addr1 := rfl
@[simp] theorem State.writeOram_len (s : State) (a : Nat) (bs : List Byte) : (s.writeOram a bs).len = s.len := rfl
@[simp] theorem State.writeOram_klen (s : State) (a : Nat) (bs : List Byte) : (s.writeOram a bs).klen = s.klen := rfl
@[simp] theorem State.writeOram_res (s : State) (a : Nat) (bs : List Byte) : (s.writeOram a bs).res = s.res := rfl
@[simp] theorem State.writeOram_flags (s : State) (a : Nat) (bs : List Byte) :
    (s.writeOram a bs).flags = s.flags := rfl
@[simp] theorem State.writeOram_ps (s : State) (a : Nat) (bs : List Byte) : (s.writeOram a bs).ps = s.ps := rfl
@[simp] theorem State.writeOram_rstN (s : State) (a : Nat) (bs : List Byte) : (s.writeOram a bs).rstN = s.rstN := rfl
@[simp] theorem State.writeOram_rng (s : State) (a : Nat) (bs : List Byte) : (s.writeOram a bs).rng = s.rng := rfl
@[simp] theorem State.writeOram_inputs (s : State) (a : Nat) (bs : List Byte) :
    (s.writeOram a bs).inputs = s.inputs := rfl
@[simp] theorem State.writeOram_held (s : State) (a : Nat) (bs : List Byte) : (s.writeOram a bs).held = s.held := rfl
@[simp] theorem State.writeOram_answer (s : State) (a : Nat) (bs : List Byte) :
    (s.writeOram a bs).answer = s.answer := rfl
@[simp] theorem State.writeOram_freeCount (s : State) (a : Nat) (bs : List Byte) :
    (s.writeOram a bs).freeCount = s.freeCount := rfl

/-! ### writeRes -/

@[simp] theorem State.writeRes_params (s : State) (v : Nat) : (s.writeRes v).params = s.params := rfl
@[simp] theorem State.writeRes_x (s : State) (v : Nat) : (s.writeRes v).x = s.x := rfl
@[simp] theorem State.writeRes_xWritten (s : State) (v : Nat) : (s.writeRes v).xWritten = s.xWritten := rfl
@[simp] theorem State.writeRes_oram (s : State) (v : Nat) : (s.writeRes v).oram = s.oram := rfl
@[simp] theorem State.writeRes_ie (s : State) (v : Nat) : (s.writeRes v).ie = s.ie := rfl
@[simp] theorem State.writeRes_status (s : State) (v : Nat) : (s.writeRes v).status = s.status := rfl
@[simp] theorem State.writeRes_latch (s : State) (v : Nat) : (s.writeRes v).latch = s.latch := rfl
@[simp] theorem State.writeRes_addr0 (s : State) (v : Nat) : (s.writeRes v).addr0 = s.addr0 := rfl
@[simp] theorem State.writeRes_addr1 (s : State) (v : Nat) : (s.writeRes v).addr1 = s.addr1 := rfl
@[simp] theorem State.writeRes_len (s : State) (v : Nat) : (s.writeRes v).len = s.len := rfl
@[simp] theorem State.writeRes_klen (s : State) (v : Nat) : (s.writeRes v).klen = s.klen := rfl
@[simp] theorem State.writeRes_res (s : State) (v : Nat) : (s.writeRes v).res = BitVec.ofNat 32 v := rfl
@[simp] theorem State.writeRes_flags (s : State) (v : Nat) : (s.writeRes v).flags = s.flags := rfl
@[simp] theorem State.writeRes_ps (s : State) (v : Nat) : (s.writeRes v).ps = s.ps := rfl
@[simp] theorem State.writeRes_rstN (s : State) (v : Nat) : (s.writeRes v).rstN = s.rstN := rfl
@[simp] theorem State.writeRes_rng (s : State) (v : Nat) : (s.writeRes v).rng = s.rng := rfl
@[simp] theorem State.writeRes_inputs (s : State) (v : Nat) : (s.writeRes v).inputs = s.inputs := rfl
@[simp] theorem State.writeRes_held (s : State) (v : Nat) : (s.writeRes v).held = s.held := rfl
@[simp] theorem State.writeRes_answer (s : State) (v : Nat) : (s.writeRes v).answer = s.answer := rfl
@[simp] theorem State.writeRes_freeCount (s : State) (v : Nat) : (s.writeRes v).freeCount = s.freeCount := rfl

/-! ### writeFlags -/

@[simp] theorem State.writeFlags_params (s : State) (f : Flags) : (s.writeFlags f).params = s.params := rfl
@[simp] theorem State.writeFlags_x (s : State) (f : Flags) : (s.writeFlags f).x = s.x := rfl
@[simp] theorem State.writeFlags_xWritten (s : State) (f : Flags) : (s.writeFlags f).xWritten = s.xWritten := rfl
@[simp] theorem State.writeFlags_oram (s : State) (f : Flags) : (s.writeFlags f).oram = s.oram := rfl
@[simp] theorem State.writeFlags_ie (s : State) (f : Flags) : (s.writeFlags f).ie = s.ie := rfl
@[simp] theorem State.writeFlags_status (s : State) (f : Flags) : (s.writeFlags f).status = s.status := rfl
@[simp] theorem State.writeFlags_latch (s : State) (f : Flags) : (s.writeFlags f).latch = s.latch := rfl
@[simp] theorem State.writeFlags_addr0 (s : State) (f : Flags) : (s.writeFlags f).addr0 = s.addr0 := rfl
@[simp] theorem State.writeFlags_addr1 (s : State) (f : Flags) : (s.writeFlags f).addr1 = s.addr1 := rfl
@[simp] theorem State.writeFlags_len (s : State) (f : Flags) : (s.writeFlags f).len = s.len := rfl
@[simp] theorem State.writeFlags_klen (s : State) (f : Flags) : (s.writeFlags f).klen = s.klen := rfl
@[simp] theorem State.writeFlags_res (s : State) (f : Flags) : (s.writeFlags f).res = s.res := rfl
@[simp] theorem State.writeFlags_flags (s : State) (f : Flags) : (s.writeFlags f).flags = f := rfl
@[simp] theorem State.writeFlags_ps (s : State) (f : Flags) : (s.writeFlags f).ps = s.ps := rfl
@[simp] theorem State.writeFlags_rstN (s : State) (f : Flags) : (s.writeFlags f).rstN = s.rstN := rfl
@[simp] theorem State.writeFlags_rng (s : State) (f : Flags) : (s.writeFlags f).rng = s.rng := rfl
@[simp] theorem State.writeFlags_inputs (s : State) (f : Flags) : (s.writeFlags f).inputs = s.inputs := rfl
@[simp] theorem State.writeFlags_held (s : State) (f : Flags) : (s.writeFlags f).held = s.held := rfl
@[simp] theorem State.writeFlags_answer (s : State) (f : Flags) : (s.writeFlags f).answer = s.answer := rfl
@[simp] theorem State.writeFlags_freeCount (s : State) (f : Flags) : (s.writeFlags f).freeCount = s.freeCount := rfl

/-! ### freeX -/

@[simp] theorem State.freeX_params (s : State) (i : XReg) : (s.freeX i).params = s.params := rfl
@[simp] theorem State.freeX_x (s : State) (i : XReg) :
    (s.freeX i).x = s.x.set i (Config.freeInt s.freeCount % 2 ^ s.params.width) := rfl
@[simp] theorem State.freeX_xWritten (s : State) (i : XReg) : (s.freeX i).xWritten = s.xWritten := rfl
@[simp] theorem State.freeX_oram (s : State) (i : XReg) : (s.freeX i).oram = s.oram := rfl
@[simp] theorem State.freeX_ie (s : State) (i : XReg) : (s.freeX i).ie = s.ie := rfl
@[simp] theorem State.freeX_status (s : State) (i : XReg) : (s.freeX i).status = s.status := rfl
@[simp] theorem State.freeX_latch (s : State) (i : XReg) : (s.freeX i).latch = s.latch := rfl
@[simp] theorem State.freeX_addr0 (s : State) (i : XReg) : (s.freeX i).addr0 = s.addr0 := rfl
@[simp] theorem State.freeX_addr1 (s : State) (i : XReg) : (s.freeX i).addr1 = s.addr1 := rfl
@[simp] theorem State.freeX_len (s : State) (i : XReg) : (s.freeX i).len = s.len := rfl
@[simp] theorem State.freeX_klen (s : State) (i : XReg) : (s.freeX i).klen = s.klen := rfl
@[simp] theorem State.freeX_res (s : State) (i : XReg) : (s.freeX i).res = s.res := rfl
@[simp] theorem State.freeX_flags (s : State) (i : XReg) : (s.freeX i).flags = s.flags := rfl
@[simp] theorem State.freeX_ps (s : State) (i : XReg) : (s.freeX i).ps = s.ps := rfl
@[simp] theorem State.freeX_rstN (s : State) (i : XReg) : (s.freeX i).rstN = s.rstN := rfl
@[simp] theorem State.freeX_rng (s : State) (i : XReg) : (s.freeX i).rng = s.rng := rfl
@[simp] theorem State.freeX_inputs (s : State) (i : XReg) : (s.freeX i).inputs = s.inputs := rfl
@[simp] theorem State.freeX_held (s : State) (i : XReg) : (s.freeX i).held = s.held := rfl
@[simp] theorem State.freeX_answer (s : State) (i : XReg) : (s.freeX i).answer = s.answer := rfl
@[simp] theorem State.freeX_freeCount (s : State) (i : XReg) : (s.freeX i).freeCount = s.freeCount + 1 := rfl

/-! ### freeOram -/

@[simp] theorem State.freeOram_params (s : State) (a k : Nat) : (s.freeOram a k).params = s.params := rfl
@[simp] theorem State.freeOram_x (s : State) (a k : Nat) : (s.freeOram a k).x = s.x := rfl
@[simp] theorem State.freeOram_xWritten (s : State) (a k : Nat) : (s.freeOram a k).xWritten = s.xWritten := rfl
@[simp] theorem State.freeOram_oram (s : State) (a k : Nat) :
    (s.freeOram a k).oram = s.oram.writeBytes a (freeBytes s.freeCount k) := rfl
@[simp] theorem State.freeOram_ie (s : State) (a k : Nat) : (s.freeOram a k).ie = s.ie := rfl
@[simp] theorem State.freeOram_status (s : State) (a k : Nat) : (s.freeOram a k).status = s.status := rfl
@[simp] theorem State.freeOram_latch (s : State) (a k : Nat) : (s.freeOram a k).latch = s.latch := rfl
@[simp] theorem State.freeOram_addr0 (s : State) (a k : Nat) : (s.freeOram a k).addr0 = s.addr0 := rfl
@[simp] theorem State.freeOram_addr1 (s : State) (a k : Nat) : (s.freeOram a k).addr1 = s.addr1 := rfl
@[simp] theorem State.freeOram_len (s : State) (a k : Nat) : (s.freeOram a k).len = s.len := rfl
@[simp] theorem State.freeOram_klen (s : State) (a k : Nat) : (s.freeOram a k).klen = s.klen := rfl
@[simp] theorem State.freeOram_res (s : State) (a k : Nat) : (s.freeOram a k).res = s.res := rfl
@[simp] theorem State.freeOram_flags (s : State) (a k : Nat) : (s.freeOram a k).flags = s.flags := rfl
@[simp] theorem State.freeOram_ps (s : State) (a k : Nat) : (s.freeOram a k).ps = s.ps := rfl
@[simp] theorem State.freeOram_rstN (s : State) (a k : Nat) : (s.freeOram a k).rstN = s.rstN := rfl
@[simp] theorem State.freeOram_rng (s : State) (a k : Nat) : (s.freeOram a k).rng = s.rng := rfl
@[simp] theorem State.freeOram_inputs (s : State) (a k : Nat) : (s.freeOram a k).inputs = s.inputs := rfl
@[simp] theorem State.freeOram_held (s : State) (a k : Nat) : (s.freeOram a k).held = s.held := rfl
@[simp] theorem State.freeOram_answer (s : State) (a k : Nat) : (s.freeOram a k).answer = s.answer := rfl
@[simp] theorem State.freeOram_freeCount (s : State) (a k : Nat) : (s.freeOram a k).freeCount = s.freeCount + k := rfl

/-! ### accept -/

@[simp] theorem State.accept_params (s : State) (w : Word) : (s.accept w).params = s.params := rfl
@[simp] theorem State.accept_x (s : State) (w : Word) : (s.accept w).x = s.x := rfl
@[simp] theorem State.accept_xWritten (s : State) (w : Word) : (s.accept w).xWritten = s.xWritten := rfl
@[simp] theorem State.accept_oram (s : State) (w : Word) : (s.accept w).oram = s.oram := rfl
@[simp] theorem State.accept_ie (s : State) (w : Word) : (s.accept w).ie = s.ie := rfl
@[simp] theorem State.accept_status (s : State) (w : Word) :
    (s.accept w).status = { s.status with busy := true, done := false, err := false, ecode := .none } := rfl
@[simp] theorem State.accept_latch (s : State) (w : Word) :
    (s.accept w).latch = { cmd := w, addr0 := s.addr0, addr1 := s.addr1, len := s.len, klen := s.klen } := rfl
@[simp] theorem State.accept_addr0 (s : State) (w : Word) : (s.accept w).addr0 = s.addr0 := rfl
@[simp] theorem State.accept_addr1 (s : State) (w : Word) : (s.accept w).addr1 = s.addr1 := rfl
@[simp] theorem State.accept_len (s : State) (w : Word) : (s.accept w).len = s.len := rfl
@[simp] theorem State.accept_klen (s : State) (w : Word) : (s.accept w).klen = s.klen := rfl
@[simp] theorem State.accept_res (s : State) (w : Word) : (s.accept w).res = s.res := rfl
@[simp] theorem State.accept_flags (s : State) (w : Word) : (s.accept w).flags = s.flags := rfl
@[simp] theorem State.accept_ps (s : State) (w : Word) : (s.accept w).ps = [] := rfl
@[simp] theorem State.accept_rstN (s : State) (w : Word) : (s.accept w).rstN = s.rstN := rfl
@[simp] theorem State.accept_rng (s : State) (w : Word) : (s.accept w).rng = s.rng := rfl
@[simp] theorem State.accept_inputs (s : State) (w : Word) : (s.accept w).inputs = s.inputs := rfl
@[simp] theorem State.accept_held (s : State) (w : Word) : (s.accept w).held = s.held := rfl
@[simp] theorem State.accept_answer (s : State) (w : Word) : (s.accept w).answer = s.answer := rfl
@[simp] theorem State.accept_freeCount (s : State) (w : Word) : (s.accept w).freeCount = s.freeCount := rfl

/-! ### complete -/

@[simp] theorem State.complete_params (s : State) : (s.complete).params = s.params := rfl
@[simp] theorem State.complete_x (s : State) : (s.complete).x = s.x := rfl
@[simp] theorem State.complete_xWritten (s : State) : (s.complete).xWritten = s.xWritten := rfl
@[simp] theorem State.complete_oram (s : State) : (s.complete).oram = s.oram := rfl
@[simp] theorem State.complete_ie (s : State) : (s.complete).ie = s.ie := rfl
@[simp] theorem State.complete_status (s : State) :
    (s.complete).status = { s.status with busy := false, done := true } := rfl
@[simp] theorem State.complete_latch (s : State) : (s.complete).latch = s.latch := rfl
@[simp] theorem State.complete_addr0 (s : State) : (s.complete).addr0 = s.addr0 := rfl
@[simp] theorem State.complete_addr1 (s : State) : (s.complete).addr1 = s.addr1 := rfl
@[simp] theorem State.complete_len (s : State) : (s.complete).len = s.len := rfl
@[simp] theorem State.complete_klen (s : State) : (s.complete).klen = s.klen := rfl
@[simp] theorem State.complete_res (s : State) : (s.complete).res = s.res := rfl
@[simp] theorem State.complete_flags (s : State) : (s.complete).flags = s.flags := rfl
@[simp] theorem State.complete_ps (s : State) : (s.complete).ps = [] := rfl
@[simp] theorem State.complete_rstN (s : State) : (s.complete).rstN = s.rstN := rfl
@[simp] theorem State.complete_rng (s : State) : (s.complete).rng = s.rng := rfl
@[simp] theorem State.complete_inputs (s : State) : (s.complete).inputs = s.inputs := rfl
@[simp] theorem State.complete_held (s : State) : (s.complete).held = s.held := rfl
@[simp] theorem State.complete_answer (s : State) : (s.complete).answer = s.answer := rfl
@[simp] theorem State.complete_freeCount (s : State) : (s.complete).freeCount = s.freeCount := rfl

/-! ### raise -/

@[simp] theorem State.raise_params (s : State) (e : ECode) : (s.raise e).params = s.params := rfl
@[simp] theorem State.raise_x (s : State) (e : ECode) : (s.raise e).x = s.x := rfl
@[simp] theorem State.raise_xWritten (s : State) (e : ECode) : (s.raise e).xWritten = s.xWritten := rfl
@[simp] theorem State.raise_oram (s : State) (e : ECode) : (s.raise e).oram = s.oram := rfl
@[simp] theorem State.raise_ie (s : State) (e : ECode) : (s.raise e).ie = s.ie := rfl
@[simp] theorem State.raise_status (s : State) (e : ECode) :
    (s.raise e).status = { s.status with busy := false, done := true, err := true, ecode := e } := rfl
@[simp] theorem State.raise_latch (s : State) (e : ECode) : (s.raise e).latch = s.latch := rfl
@[simp] theorem State.raise_addr0 (s : State) (e : ECode) : (s.raise e).addr0 = s.addr0 := rfl
@[simp] theorem State.raise_addr1 (s : State) (e : ECode) : (s.raise e).addr1 = s.addr1 := rfl
@[simp] theorem State.raise_len (s : State) (e : ECode) : (s.raise e).len = s.len := rfl
@[simp] theorem State.raise_klen (s : State) (e : ECode) : (s.raise e).klen = s.klen := rfl
@[simp] theorem State.raise_res (s : State) (e : ECode) : (s.raise e).res = s.res := rfl
@[simp] theorem State.raise_flags (s : State) (e : ECode) : (s.raise e).flags = s.flags := rfl
@[simp] theorem State.raise_ps (s : State) (e : ECode) : (s.raise e).ps = [] := rfl
@[simp] theorem State.raise_rstN (s : State) (e : ECode) : (s.raise e).rstN = s.rstN := rfl
@[simp] theorem State.raise_rng (s : State) (e : ECode) : (s.raise e).rng = s.rng := rfl
@[simp] theorem State.raise_inputs (s : State) (e : ECode) : (s.raise e).inputs = s.inputs := rfl
@[simp] theorem State.raise_held (s : State) (e : ECode) : (s.raise e).held = s.held := rfl
@[simp] theorem State.raise_answer (s : State) (e : ECode) : (s.raise e).answer = s.answer := rfl
@[simp] theorem State.raise_freeCount (s : State) (e : ECode) : (s.raise e).freeCount = s.freeCount := rfl

/-! ### writeStatus -/

@[simp] theorem State.writeStatus_params (s : State) (d : Word) : (s.writeStatus d).params = s.params := rfl
@[simp] theorem State.writeStatus_x (s : State) (d : Word) : (s.writeStatus d).x = s.x := rfl
@[simp] theorem State.writeStatus_xWritten (s : State) (d : Word) : (s.writeStatus d).xWritten = s.xWritten := rfl
@[simp] theorem State.writeStatus_oram (s : State) (d : Word) : (s.writeStatus d).oram = s.oram := rfl
@[simp] theorem State.writeStatus_ie (s : State) (d : Word) : (s.writeStatus d).ie = s.ie := rfl
@[simp] theorem State.writeStatus_status (s : State) (d : Word) :
    (s.writeStatus d).status = { s.status with done := s.status.done && !d[1], err := s.status.err && !d[2], ovr := s.status.ovr && !d[3] } := rfl
@[simp] theorem State.writeStatus_latch (s : State) (d : Word) : (s.writeStatus d).latch = s.latch := rfl
@[simp] theorem State.writeStatus_addr0 (s : State) (d : Word) : (s.writeStatus d).addr0 = s.addr0 := rfl
@[simp] theorem State.writeStatus_addr1 (s : State) (d : Word) : (s.writeStatus d).addr1 = s.addr1 := rfl
@[simp] theorem State.writeStatus_len (s : State) (d : Word) : (s.writeStatus d).len = s.len := rfl
@[simp] theorem State.writeStatus_klen (s : State) (d : Word) : (s.writeStatus d).klen = s.klen := rfl
@[simp] theorem State.writeStatus_res (s : State) (d : Word) : (s.writeStatus d).res = s.res := rfl
@[simp] theorem State.writeStatus_flags (s : State) (d : Word) : (s.writeStatus d).flags = s.flags := rfl
@[simp] theorem State.writeStatus_ps (s : State) (d : Word) : (s.writeStatus d).ps = s.ps := rfl
@[simp] theorem State.writeStatus_rstN (s : State) (d : Word) : (s.writeStatus d).rstN = s.rstN := rfl
@[simp] theorem State.writeStatus_rng (s : State) (d : Word) : (s.writeStatus d).rng = s.rng := rfl
@[simp] theorem State.writeStatus_inputs (s : State) (d : Word) : (s.writeStatus d).inputs = s.inputs := rfl
@[simp] theorem State.writeStatus_held (s : State) (d : Word) : (s.writeStatus d).held = s.held := rfl
@[simp] theorem State.writeStatus_answer (s : State) (d : Word) : (s.writeStatus d).answer = s.answer := rfl
@[simp] theorem State.writeStatus_freeCount (s : State) (d : Word) : (s.writeStatus d).freeCount = s.freeCount := rfl

/-! ### resetMmio -/

@[simp] theorem State.resetMmio_params (s : State) : (s.resetMmio).params = s.params := rfl
@[simp] theorem State.resetMmio_x (s : State) : (s.resetMmio).x = s.x := rfl
@[simp] theorem State.resetMmio_xWritten (s : State) : (s.resetMmio).xWritten = s.xWritten := rfl
@[simp] theorem State.resetMmio_oram (s : State) : (s.resetMmio).oram = s.oram := rfl
@[simp] theorem State.resetMmio_ie (s : State) : (s.resetMmio).ie = false := rfl
@[simp] theorem State.resetMmio_status (s : State) : (s.resetMmio).status = Status.clear := rfl
@[simp] theorem State.resetMmio_latch (s : State) : (s.resetMmio).latch = Latch.clear := rfl
@[simp] theorem State.resetMmio_addr0 (s : State) : (s.resetMmio).addr0 = 0 := rfl
@[simp] theorem State.resetMmio_addr1 (s : State) : (s.resetMmio).addr1 = 0 := rfl
@[simp] theorem State.resetMmio_len (s : State) : (s.resetMmio).len = 0 := rfl
@[simp] theorem State.resetMmio_klen (s : State) : (s.resetMmio).klen = 0 := rfl
@[simp] theorem State.resetMmio_res (s : State) : (s.resetMmio).res = 0 := rfl
@[simp] theorem State.resetMmio_flags (s : State) : (s.resetMmio).flags = Flags.clear := rfl
@[simp] theorem State.resetMmio_ps (s : State) : (s.resetMmio).ps = [] := rfl
@[simp] theorem State.resetMmio_rstN (s : State) : (s.resetMmio).rstN = s.rstN := rfl
@[simp] theorem State.resetMmio_rng (s : State) : (s.resetMmio).rng = s.rng := rfl
@[simp] theorem State.resetMmio_inputs (s : State) : (s.resetMmio).inputs = s.inputs := rfl
@[simp] theorem State.resetMmio_held (s : State) : (s.resetMmio).held = s.held := rfl
@[simp] theorem State.resetMmio_answer (s : State) : (s.resetMmio).answer = s.answer := rfl
@[simp] theorem State.resetMmio_freeCount (s : State) : (s.resetMmio).freeCount = s.freeCount := rfl

/-! ### X registers -/

@[simp] theorem State.readX_writeX_self (s : State) (i : XReg) (v : Nat) : (s.writeX i v).readX i = v := by
  simp [State.readX, State.writeX]

theorem State.readX_writeX_ne (s : State) {i j : XReg} (v : Nat) (h : j ≠ i) :
    (s.writeX i v).readX j = s.readX j := by
  have h' : i.val ≠ j.val := fun e => h (Fin.ext e.symm)
  simp [State.readX, State.writeX, h']

@[simp] theorem State.readX_freeX_self (s : State) (i : XReg) :
    (s.freeX i).readX i = Config.freeInt s.freeCount % 2 ^ s.params.width := by
  simp [State.readX, State.freeX]

theorem State.readX_freeX_ne (s : State) {i j : XReg} (h : j ≠ i) : (s.freeX i).readX j = s.readX j := by
  have h' : i.val ≠ j.val := fun e => h (Fin.ext e.symm)
  simp [State.readX, State.freeX, h']

/-- The registers a state reads depend on its register file alone. -/
theorem State.readX_congr {s t : State} (h : s.x = t.x) (i : XReg) : s.readX i = t.readX i := by
  simp [State.readX, h]

end Sys2Proof.Machine
end

