-- ==== Sys2Proof/Laws/Ops.lean ====
section
/-! SUPPORT. One lemma per shared operation that says all it can do: the end of a command, the checks, the
padding draw, the separator search, and what the operations keep of the invariant. -/

namespace Sys2Proof.Machine

open Sys2Proof

/-! ### The end of a command -/

/-- All a command's end can do: raise the error its checks found, or write and complete. -/
theorem conclude_eq_next {s w t : State} {err : Option ECode} (h : conclude s err w = .next t) :
    (∃ e, err = some e ∧ t = s.raise e) ∨ (err = none ∧ t = w.complete) := by
  cases err with
  | none => exact .inr ⟨rfl, (Host.Outcome.next.inj h).symm⟩
  | some e => exact .inl ⟨e, rfl, (Host.Outcome.next.inj h).symm⟩

@[simp] theorem conclude_none (s w : State) : conclude s none w = .next w.complete := rfl

@[simp] theorem conclude_some (s w : State) (e : ECode) : conclude s (some e) w = .next (s.raise e) := rfl

/-! ### Checks -/

/-- No error exactly when no check fails. -/
theorem firstError_eq_none {cs : List (Bool × ECode)} : firstError cs = none ↔ ∀ c ∈ cs, c.1 = false := by
  induction cs with
  | nil => simp [firstError]
  | cons c cs ih =>
    obtain ⟨failed, e⟩ := c
    cases failed <;> simp [firstError, ih]

/-- An error found is the code of one of the checks. -/
theorem firstError_mem {cs : List (Bool × ECode)} {e : ECode} (h : firstError cs = some e) :
    (true, e) ∈ cs := by
  induction cs with
  | nil => simp [firstError] at h
  | cons c cs ih =>
    obtain ⟨failed, e'⟩ := c
    cases failed
    · simp [firstError] at h; simp [ih h]
    · simp [firstError] at h; simp [h]

theorem ldnError_eq_none {s : State} :
    ldnError s = none ↔ s.aLen ≤ s.params.maxl ∧ s.aAddr0 + s.aLen ≤ s.params.oramBytes := by
  simp [ldnError, firstError_eq_none, State.lenTooLong, State.rangeBad]

theorem stnError_eq_none {s : State} :
    stnError s = none ↔ s.aLen ≤ s.params.maxl ∧ s.aAddr1 + s.aLen ≤ s.params.oramBytes := by
  simp [stnError, firstError_eq_none, State.lenTooLong, State.rangeBad]

theorem modulusError_eq_none {n : Nat} : modulusError n = none ↔ validMod n = true := by
  simp [modulusError, firstError_eq_none]

theorem rsaError_eq_none {s : State} {n : Nat} :
    rsaError s n = none ↔ s.aLen ≤ s.params.maxl ∧
      (s.aAddr0 + s.aLen ≤ s.params.oramBytes ∧ s.aAddr1 + byteLength n ≤ s.params.oramBytes) ∧
      validMod n = true := by
  simp [rsaError, firstError_eq_none, State.lenTooLong, State.rangeBad]

theorem padencError_eq_none {s : State} :
    padencError s = none ↔ (s.aLen ≤ s.params.maxl ∧ s.aKlen ≤ s.params.maxl) ∧
      (s.aAddr0 + s.aLen ≤ s.params.oramBytes ∧ s.aAddr1 + s.aKlen ≤ s.params.oramBytes) ∧
      s.aLen + 11 ≤ s.aKlen := by
  simp [padencError, firstError_eq_none, State.lenTooLong, State.klenTooLong, State.rangeBad]

theorem paddecError_eq_none {s : State} :
    paddecError s = none ↔ (s.aLen ≤ s.params.maxl ∧ s.aKlen ≤ s.params.maxl) ∧
      (s.aAddr0 + s.aLen ≤ s.params.oramBytes ∧ s.aAddr1 + s.aKlen ≤ s.params.oramBytes) ∧
      paddingBad s s.sourceBytes = false := by
  simp [paddecError, firstError_eq_none, State.lenTooLong, State.klenTooLong, State.rangeBad]

/-! ### Padding bytes -/

/-- All a draw of `k` bytes does: it splits the stream, keeps the non-zero bytes of the first part, at most `k`
of them, and takes all there is unless it has `k`. -/
theorem drawPs_split (k : Nat) (bs : List Byte) :
    ∃ taken, bs = taken ++ (drawPs k bs).2 ∧ (drawPs k bs).1 = taken.filter (· ≠ 0#8) ∧
      (drawPs k bs).1.length ≤ k ∧ ((drawPs k bs).1.length < k → (drawPs k bs).2 = []) := by
  induction bs generalizing k with
  | nil => cases k <;> exact ⟨[], rfl, rfl, by simp [drawPs], fun _ => rfl⟩
  | cons b bs ih =>
    cases k with
    | zero => exact ⟨[], rfl, rfl, by simp [drawPs], fun h => absurd h (by simp)⟩
    | succ k =>
      by_cases hb : b = 0#8
      · obtain ⟨taken, h1, h2, h3, h4⟩ := ih (k + 1)
        simp only [drawPs, if_pos hb]
        exact ⟨b :: taken, by rw [List.cons_append, ← h1], by simp [h2, hb], h3, h4⟩
      · obtain ⟨taken, h1, h2, h3, h4⟩ := ih k
        simp only [drawPs, if_neg hb]
        refine ⟨b :: taken, by rw [List.cons_append, ← h1], by simp [h2, hb], by simpa using h3, fun h => h4 ?_⟩
        simpa using h

/-- A stream whose first part ends at its k-th non-zero byte is drawn up to there. -/
theorem drawPs_append {k : Nat} {taken rest : List Byte} (hk : (taken.filter (· ≠ 0#8)).length = k)
    (hl : taken.getLast? ≠ some 0#8) : drawPs k (taken ++ rest) = (taken.filter (· ≠ 0#8), rest) := by
  induction taken generalizing k with
  | nil => subst hk; cases rest <;> rfl
  | cons b taken ih =>
    have hl' : taken.getLast? ≠ some 0#8 := by
      cases taken with
      | nil => simp
      | cons c taken => simpa [List.getLast?_cons_cons] using hl
    by_cases hb : b = 0#8
    · subst hb
      have hk' : (taken.filter (· ≠ 0#8)).length = k := by simpa using hk
      cases k with
      | zero =>
        have hne : taken ≠ [] := by
          rintro rfl; simp at hl
        have hlast := List.getLast?_eq_some_getLast hne
        rw [hlast] at hl'
        have hmem : taken.getLast hne ∈ taken.filter (· ≠ 0#8) := by
          simp only [List.mem_filter, List.getLast_mem, true_and]
          simpa using fun h => hl' (by rw [h])
        rw [List.length_eq_zero_iff.1 hk'] at hmem
        simp at hmem
      | succ k =>
        simp only [List.cons_append, drawPs, if_true]
        rw [ih hk' hl']
        simp
    · have hk' : (taken.filter (· ≠ 0#8)).length + 1 = k := by simpa [hb] using hk
      subst hk'
      simp only [List.cons_append, drawPs, if_neg hb]
      rw [ih rfl hl']
      simp [hb]

/-- A stream with fewer than `k` non-zero bytes is drawn whole. -/
theorem drawPs_short {k : Nat} {bs : List Byte} (h : (bs.filter (· ≠ 0#8)).length < k) :
    drawPs k bs = (bs.filter (· ≠ 0#8), []) := by
  induction bs generalizing k with
  | nil => cases k <;> rfl
  | cons b bs ih =>
    cases k with
    | zero => simp at h
    | succ k =>
      by_cases hb : b = 0#8
      · simp only [drawPs, if_pos hb]
        rw [ih (by simpa [hb] using h)]; simp [hb]
      · simp only [drawPs, if_neg hb]
        rw [ih (by simpa [hb] using h)]; simp [hb]

/-! ### The separator -/

/-- The search finds the least index of a zero byte (R104). -/
theorem zeroIndexFrom_eq_some {i p : Nat} {bs : List Byte} :
    zeroIndexFrom i bs = some p ↔
      ∃ j, p = i + j ∧ bs[j]? = some 0#8 ∧ ∀ l < j, bs[l]? ≠ some 0#8 := by
  induction bs generalizing i with
  | nil => simp [zeroIndexFrom]
  | cons b bs ih =>
    by_cases hb : b = 0#8
    · simp only [zeroIndexFrom, if_pos hb, Option.some.injEq]
      constructor
      · rintro rfl; exact ⟨0, by simp, by simp [hb], by simp⟩
      · rintro ⟨j, rfl, h1, h2⟩
        rcases Nat.eq_zero_or_pos j with rfl | hj
        · rfl
        · exact absurd (by simp [hb]) (h2 0 hj)
    · simp only [zeroIndexFrom, if_neg hb, ih]
      constructor
      · rintro ⟨j, rfl, h1, h2⟩
        refine ⟨j + 1, by omega, by simpa using h1, fun l hl => ?_⟩
        cases l with
        | zero => simpa using hb
        | succ l => simpa using h2 l (by omega)
      · rintro ⟨j, rfl, h1, h2⟩
        cases j with
        | zero => simp at h1; exact absurd h1 hb
        | succ j =>
          exact ⟨j, by omega, by simpa using h1, fun l hl => by simpa using h2 (l + 1) (by omega)⟩

/-- The search finds nothing exactly when no byte is zero. -/
theorem zeroIndexFrom_eq_none {i : Nat} {bs : List Byte} : zeroIndexFrom i bs = none ↔ ∀ b ∈ bs, b ≠ 0#8 := by
  induction bs generalizing i with
  | nil => simp [zeroIndexFrom]
  | cons b bs ih => by_cases hb : b = 0#8 <;> simp [zeroIndexFrom, hb, ih]

/-! ### ORAM in canonical form -/

theorem reset_oram_wf : State.reset.oram.wf := Memory.wf_nil

/-- Writing bytes inside the ORAM keeps its form and its range. -/
theorem State.oramOk_writeOram {s : State} (h : s.oramOk) {a : Nat} {bs : List Byte}
    (hr : bs = [] ∨ a + bs.length ≤ s.params.oramBytes) : (s.writeOram a bs).oramOk := by
  refine ⟨Memory.wf_writeBytes h.1 a bs, fun c hc => ?_⟩
  rcases Memory.mem_writeBytes hc with h' | h'
  · exact h.2 c h'
  · rcases hr with rfl | hr
    · exact h.2 c hc
    · exact Nat.lt_of_lt_of_le h'.2 hr

theorem State.oramOk_freeOram {s : State} (h : s.oramOk) {a k : Nat} (hr : a + k ≤ s.params.oramBytes) :
    (s.freeOram a k).oramOk :=
  State.oramOk_writeOram (s := s) (bs := freeBytes s.freeCount k) h (.inr (by simpa using hr))

/-! ### X registers below 2^W -/

theorem State.xOk_writeX {s : State} (h : s.xOk) {i : XReg} {v : Nat} (hv : v < 2 ^ s.params.width) :
    (s.writeX i v).xOk := by
  intro j
  by_cases hj : j = i
  · subst hj; simpa using hv
  · rw [State.readX_writeX_ne s v hj]; exact h j

theorem State.xOk_freeX {s : State} (h : s.xOk) (i : XReg) : (s.freeX i).xOk := by
  intro j
  by_cases hj : j = i
  · subst hj; simpa using Nat.mod_lt _ (by positivity)
  · rw [State.readX_freeX_ne s hj]; exact h j

end Sys2Proof.Machine
end

