-- ==== Sys2Proof/Laws/Reset.lean ====
section
/-! SUPPORT. What each reset leaves as it was, said once. -/

namespace Sys2Proof.Machine

open Sys2Proof

/-- An abort changes the X registers, ORAM and the count of free values alone. -/
theorem State.abort_eq (s : State) :
    s.abort = { s with x := s.abort.x, oram := s.abort.oram, freeCount := s.abort.freeCount } := by
  unfold State.abort State.abortDest
  split
  · split
    · rfl
    · split
      · rfl
      · split
        · rfl
        · split <;> rfl
  · rfl

/-- The soft reset, field by field (R232). -/
theorem State.softReset_eq (s : State) :
    s.softReset = { s with
      x := s.abort.x, oram := s.abort.oram, freeCount := s.abort.freeCount
      ie := false, status := Status.clear, latch := Latch.clear
      addr0 := 0, addr1 := 0, len := 0, klen := 0, res := 0, flags := Flags.clear, ps := [] } := by
  unfold State.softReset
  conv_lhs => rw [State.abort_eq]
  rfl

theorem State.foldl_freeX_eq (l : List XReg) (t : State) :
    l.foldl State.freeX t = { t with x := (l.foldl State.freeX t).x, freeCount := (l.foldl State.freeX t).freeCount } := by
  induction l generalizing t with
  | nil => rfl
  | cons i l ih => rw [List.foldl_cons, ih]; rfl

/-- The power-on reset, field by field (R230). -/
theorem State.powerOn_eq (s : State) :
    s.powerOn = { s with
      x := s.powerOn.x, oram := s.powerOn.oram, freeCount := s.powerOn.freeCount
      xWritten := Vector.replicate 8 false, held := [], rstN := false
      ie := false, status := Status.clear, latch := Latch.clear
      addr0 := 0, addr1 := 0, len := 0, klen := 0, res := 0, flags := Flags.clear, ps := [] } := by
  unfold State.powerOn
  simp only [State.freeOram]
  rw [State.foldl_freeX_eq]
  rfl

end Sys2Proof.Machine
end

