-- ==== Sys2Proof/Laws/Bus.lean ====
section
/-! SUPPORT. What the bus slave port does with an access, case by case, and its byte lanes. -/

namespace Sys2Proof.Machine

open Sys2Proof

/-! ### An access that arrives -/

/-- All an access can do out of reset. -/
theorem busArrives_eq {s : State} {a : BusAccess} (h : s.rstN = true) :
    busArrives s a =
      if !inWindow s.params a.addr then .fault .outsideWindow
      else if s.holds a then .next { s with held := s.held ++ [a] }
      else .next (s.performAccess a) := by
  unfold busArrives; rw [h]; rfl

/-- A 32-bit access to the register space is never held. -/
theorem busArrives_reg {s : State} {off : Nat} {w : Option Word} (hr : s.rstN = true) (h : off < 0x1000) :
    busArrives s ⟨s.params.base + off, .word, w⟩ = .next (s.performAccess ⟨s.params.base + off, .word, w⟩) := by
  have h2 : off < 0x10000 := by omega
  simp [busArrives, hr, inWindow, State.holds, busOffset, regionOf, h, h2]

theorem performAccess_regWrite {s : State} {off : Nat} {d : Word} (h : off < 0x1000) (h4 : off % 4 = 0) :
    s.performAccess ⟨s.params.base + off, .word, some d⟩ =
      { s.writeReg off d with answer := some ⟨⟨s.params.base + off, .word, some d⟩, 0, .okay⟩ } := by
  simp [State.performAccess, accessOk, busOffset, regionOf, h, h4, State.accessWrite]

theorem performAccess_regRead {s : State} {off : Nat} (h : off < 0x1000) (h4 : off % 4 = 0) :
    s.performAccess ⟨s.params.base + off, .word, none⟩ =
      { s with answer := some ⟨⟨s.params.base + off, .word, none⟩, s.readReg off, .okay⟩ } := by
  simp [State.performAccess, accessOk, busOffset, regionOf, h, h4, State.accessData]

theorem performAccess_error {s : State} {a : BusAccess} (h : accessOk s.params (busOffset s.params a) a.size = false) :
    s.performAccess a = { s with answer := some ⟨a, 0, .error⟩ } := by
  simp [State.performAccess, h]

theorem accessOk_oram {p : Params} {off : Nat} {sz : AccessSize} (h : regionOf p off = .oram)
    (h2 : off % sz.bytes = 0) : accessOk p off sz = true := by
  unfold accessOk; rw [h]; exact decide_eq_true h2

/-! ### Registers -/

/-- Reserved offsets ignore writes and read 0 (R52). -/
theorem State.writeReg_reserved (s : State) (off : Nat) (d : Word) (h : 0x30 ≤ off) : s.writeReg off d = s := by
  unfold State.writeReg; split <;> first | omega | rfl

theorem State.readReg_reserved (s : State) (off : Nat) (h : 0x30 ≤ off) : s.readReg off = 0 := by
  unfold State.readReg; split <;> first | omega | rfl

theorem State.writeReg_params (s : State) (off : Nat) (d : Word) : (s.writeReg off d).params = s.params := by
  unfold State.writeReg
  split
  · unfold State.writeCtrl; split
    · rw [State.softReset_eq]
    · rfl
  · rfl
  · unfold State.writeCmd; split <;> rfl
  all_goals rfl

theorem State.writeReg_rng (s : State) (off : Nat) (d : Word) : (s.writeReg off d).rng = s.rng := by
  unfold State.writeReg
  split
  · unfold State.writeCtrl; split
    · rw [State.softReset_eq]
    · rfl
  · rfl
  · unfold State.writeCmd; split <;> rfl
  all_goals rfl

/-! ### ORAM by bus -/

/-- An ORAM write changes ORAM alone. -/
theorem State.busWrite_eq (s : State) (a : Nat) (d : Word) (k : Nat) :
    s.busWrite a d k = { s with oram := (s.busWrite a d k).oram } := by
  unfold State.busWrite; rfl

theorem State.insideOram_eq_take (s : State) (a : Nat) (bs : List Byte) :
    s.insideOram a bs = bs.take (s.params.oramBytes - a) := by
  induction bs generalizing a with
  | nil => simp [State.insideOram]
  | cons b bs ih =>
    unfold State.insideOram
    split
    · rw [ih, show s.params.oramBytes - a = (s.params.oramBytes - (a + 1)) + 1 by omega]; rfl
    · rw [show s.params.oramBytes - a = 0 by omega]; rfl

@[simp] theorem length_lanes (d k : Nat) : (lanes d k).length = k := by
  induction k generalizing d with
  | zero => rfl
  | succ k ih => simp [lanes, ih]

/-- Lane j of write data (R54). -/
theorem lanes_getElem? {d k j : Nat} (h : j < k) : (lanes d k)[j]? = some (BitVec.ofNat 8 (d / 256 ^ j)) := by
  induction k generalizing d j with
  | zero => omega
  | succ k ih =>
    cases j with
    | zero => simp [lanes]
    | succ j =>
      simp only [lanes, List.getElem?_cons_succ]
      rw [ih (by omega), Nat.div_div_eq_div_mul, pow_succ, mul_comm 256]

/-- Lane j of read data (R54). -/
theorem State.busRead_lane (s : State) (a k : Nat) :
    ∀ j < k, s.busRead a k / 256 ^ j % 256 = (s.busByte (a + j)).toNat := by
  induction k generalizing a with
  | zero => intro j hj; omega
  | succ k ih =>
    intro j hj
    have hb := (s.busByte a).isLt
    cases j with
    | zero => simp only [State.busRead, pow_zero, Nat.div_one, Nat.add_zero]; omega
    | succ j =>
      simp only [State.busRead]
      rw [pow_succ, mul_comm (256 ^ j) 256, ← Nat.div_div_eq_div_mul,
        show ((s.busByte a).toNat + 256 * s.busRead (a + 1) k) / 256 = s.busRead (a + 1) k by omega,
        ih (a + 1) j (by omega)]
      congr 2; omega

theorem State.busRead_lt (s : State) (a k : Nat) : s.busRead a k < 256 ^ k := by
  induction k generalizing a with
  | zero => simp [State.busRead]
  | succ k ih =>
    have hb := (s.busByte a).isLt
    have := ih (a + 1)
    simp only [State.busRead, pow_succ]; omega

/-- A bus read of ORAM depends on ORAM and the parameters alone. -/
theorem State.busRead_congr {s t : State} (ho : s.oram = t.oram) (hp : s.params = t.params) (a k : Nat) :
    s.busRead a k = t.busRead a k := by
  induction k generalizing a with
  | zero => rfl
  | succ k ih => simp only [State.busRead, ih, State.busByte, ho, hp]

end Sys2Proof.Machine
end

