-- ==== Sys2Proof/Laws/Decode.lean ====
section
/-! SUPPORT. What the decoder's loop finds, and the fields of a packed word. -/

namespace Sys2Proof

/-- The loop answers the command of a row the word matches (R76). -/
theorem decodeIn_eq_some {w : Word} {rs : List OpRow} {i : Instr} (h : decodeIn w rs = some i) :
    ∃ r ∈ rs, w &&& r.mask = r.value ∧
      i = r.build (regField w 21) (regField w 18) (regField w 15) (regField w 12) := by
  induction rs with
  | nil => simp [decodeIn] at h
  | cons r rs ih =>
    unfold decodeIn at h
    by_cases hr : w &&& r.mask = r.value
    · rw [if_pos hr] at h; exact ⟨r, by simp, hr, (Option.some.inj h).symm⟩
    · rw [if_neg hr] at h; obtain ⟨r', h1, h2⟩ := ih h; exact ⟨r', by simp [h1], h2⟩

/-- A packed word as a number: its fields do not overlap (R71, R74). -/
theorem toNat_packWord {op : Nat} (h : op < 256) (rd ra rb rn : XReg) :
    (packWord op rd ra rb rn).toNat =
      op * 2 ^ 24 + rd.val * 2 ^ 21 + ra.val * 2 ^ 18 + rb.val * 2 ^ 15 + rn.val * 2 ^ 12 := by
  unfold packWord
  rw [BitVec.toNat_ofNat]
  have := rd.isLt; have := ra.isLt; have := rb.isLt; have := rn.isLt
  omega

/-- The fields of a packed word are what was packed (R71, R74). -/
theorem packWord_fields {op : Nat} (h : op < 256) (rd ra rb rn : XReg) :
    wordOp (packWord op rd ra rb rn) = op ∧ wordRd (packWord op rd ra rb rn) = rd.val ∧
      wordRa (packWord op rd ra rb rn) = ra.val ∧ wordRb (packWord op rd ra rb rn) = rb.val ∧
      wordRn (packWord op rd ra rb rn) = rn.val ∧ wordRsv (packWord op rd ra rb rn) = 0 := by
  unfold wordOp wordRd wordRa wordRb wordRn wordRsv
  rw [toNat_packWord h]
  have := rd.isLt; have := ra.isLt; have := rb.isLt; have := rn.isLt
  omega

/-- A word is not illegal if its opcode has a format and every field the format lacks, and `rsv`, is 0 (R75). -/
theorem wordWellFormed_of_format {w : Word} {f : Format} (hf : formatOfOp (wordOp w) = some f)
    (h1 : f.hasRd = true ∨ wordRd w = 0) (h2 : f.hasRa = true ∨ wordRa w = 0)
    (h3 : f.hasRb = true ∨ wordRb w = 0) (h4 : f.hasRn = true ∨ wordRn w = 0) (h5 : wordRsv w = 0) :
    wordWellFormed w = true := by
  simp only [wordWellFormed, wordOpAssigned, wordFieldsZero, wordRsvZero, hf, h5]
  rcases h1 with h1 | h1 <;> rcases h2 with h2 | h2 <;> rcases h3 with h3 | h3 <;> rcases h4 with h4 | h4 <;>
    simp [h1, h2, h3, h4]

/-- A whole word is its own table word. -/
theorem tableWord_toNat (w : Word) : tableWord 32 w.toNat = w := by
  unfold tableWord
  rw [Nat.mod_eq_of_lt w.isLt, BitVec.ofNat_toNat, BitVec.setWidth_eq]

end Sys2Proof
end

