-- ==== Sys2Proof/Laws/Exec.lean ====
section
/-! SUPPORT. What a command can answer: the error its checks found, or its writes and completion; PADENC may also
wait. Provers cite these in place of unfolding the meanings. -/

namespace Sys2Proof.Machine

open Sys2Proof

/-- The error of the checks is one of the listed codes. -/
theorem firstError_code {cs : List (Bool × ECode)} {e : ECode} (h : firstError cs = some e) : e ∈ cs.map (·.2) :=
  List.mem_map.2 ⟨(true, e), firstError_mem h, rfl⟩

/-- What the checks of a command raise is in its row of R207, and is not NONE. -/
theorem checkError_allowed {s : State} {i : Instr} {e : ECode} (h : checkError s i = some e) :
    e ∈ canRaise i ∧ e ≠ .none := by
  cases i <;> simp only [checkError, ldnError, stnError, modulusError, rsaError, padencError, paddecError,
    reduceCtorEq] at h
  all_goals exact ⟨firstError_code h, by rintro rfl; simpa using firstError_code h⟩

/-- Every command but PADENC ends as `conclude` says, with the error of its checks. -/
theorem exec_eq_conclude (i : Instr) (s : State) (h : i ≠ .padenc) :
    ∃ w, exec i s = conclude s (checkError s i) w ∧ w.status = s.status := by
  cases i <;> first | exact absurd rfl h | exact ⟨_, rfl, rfl⟩

/-- All such a command can answer. -/
theorem exec_cases {i : Instr} {s t : State} (hi : i ≠ .padenc) (h : exec i s = .next t) :
    (∃ e, checkError s i = some e ∧ t = s.raise e) ∨
      (checkError s i = none ∧ ∃ w, exec i s = conclude s none w ∧ w.status = s.status ∧ t = w.complete) := by
  obtain ⟨w, h1, h2⟩ := exec_eq_conclude i s hi
  rw [h1] at h
  rcases conclude_eq_next h with ⟨e, h3, h4⟩ | ⟨h3, h4⟩
  · exact .inl ⟨e, h3, h4⟩
  · exact .inr ⟨h3, w, by rw [h1, h3], h2, h4⟩

/-- All PADENC can answer: an error; a wait, with every byte of the stream taken; or completion, with a first
part of the stream taken. It takes nothing when it has all its padding bytes already. -/
theorem execPadenc_cases {s t : State} (h : exec .padenc s = .next t) :
    (∃ e, padencError s = some e ∧ t = s.raise e) ∨
    (padencError s = none ∧ ∃ taken rest, s.rng = taken ++ rest ∧ (s.psCount ≤ s.ps.length → taken = []) ∧
      s.ps.length + (taken.filter (· ≠ 0#8)).length ≤ max s.ps.length s.psCount ∧
      ((s.ps.length + (taken.filter (· ≠ 0#8)).length < s.psCount ∧ rest = [] ∧
          t = { s with ps := s.ps ++ taken.filter (· ≠ 0#8), rng := [] }) ∨
        (s.psCount ≤ s.ps.length + (taken.filter (· ≠ 0#8)).length ∧
          t = (State.padencWrite { s with ps := s.ps ++ taken.filter (· ≠ 0#8), rng := rest }
            (s.ps ++ taken.filter (· ≠ 0#8))).complete))) := by
  simp only [exec, execPadenc] at h
  cases he : padencError s with
  | some e => rw [he] at h; exact .inl ⟨e, rfl, (Host.Outcome.next.inj h).symm⟩
  | none =>
    rw [he] at h
    have h := Host.Outcome.next.inj h
    right
    refine ⟨rfl, ?_⟩
    obtain ⟨taken, h1, h2, h3, h4⟩ := drawPs_split (s.psCount - s.ps.length) s.rng
    refine ⟨taken, _, h1, fun hz => ?_, by rw [← h2]; omega, ?_⟩
    · rw [Nat.sub_eq_zero_of_le hz] at h1
      have : (drawPs 0 s.rng).2 = s.rng := by cases s.rng <;> rfl
      rw [this] at h1; simpa using h1
    simp only [State.padencDraw] at h
    rw [h2] at h
    simp only [← h2] at h3 h4 ⊢
    by_cases hlt : s.ps.length + (drawPs (s.psCount - s.ps.length) s.rng).1.length < s.psCount
    · left
      have := h4 (by omega)
      refine ⟨hlt, this, ?_⟩
      rw [← h, if_pos, this, h2]
      simp only [List.length_append]; rw [← h2]; exact hlt
    · right
      refine ⟨by omega, ?_⟩
      rw [← h, if_neg, h2]
      simp only [List.length_append]; rw [← h2]; exact hlt

/-! ### The padded block -/

@[simp] theorem length_paddedBlock (ps m : List Byte) : (paddedBlock ps m).length = ps.length + m.length + 3 := by
  simp [paddedBlock]; omega

theorem sourceBytes_getElem? (s : State) (j : Nat) :
    s.sourceBytes[j]? = if j < s.aLen then some (s.oram.read (s.aAddr0 + j)) else none := by
  split
  · rw [List.getElem?_eq_some_iff]
    exact ⟨by simpa [State.sourceBytes], by simp only [State.sourceBytes, Memory.getElem_readBytes]⟩
  · rw [List.getElem?_eq_none_iff]; simp [State.sourceBytes]; omega

/-- The separator of the block read, by its bytes in ORAM. -/
theorem separator_eq_some {s : State} {p : Nat} : separator s.sourceBytes = some p ↔
    2 ≤ p ∧ p < s.aLen ∧ s.oram.read (s.aAddr0 + p) = 0#8 ∧
      ∀ j, 2 ≤ j → j < p → s.oram.read (s.aAddr0 + j) ≠ 0#8 := by
  have get : ∀ j b, (s.sourceBytes.drop 2)[j]? = some b ↔
      2 + j < s.aLen ∧ s.oram.read (s.aAddr0 + (2 + j)) = b := by
    intro j b
    rw [List.getElem?_drop, sourceBytes_getElem?]
    split <;> simp [*]
  rw [separator, zeroIndexFrom_eq_some]
  constructor
  · rintro ⟨j, rfl, h1, h2⟩
    obtain ⟨h3, h4⟩ := (get _ _).1 h1
    refine ⟨by omega, h3, h4, fun l h5 h6 h7 => ?_⟩
    apply h2 (l - 2) (by omega)
    rw [get]; refine ⟨by omega, ?_⟩
    rw [← h7]; congr 2; omega
  · rintro ⟨h1, h2, h3, h4⟩
    refine ⟨p - 2, by omega, (get _ _).2 ⟨by omega, ?_⟩, fun l hl h => ?_⟩
    · rw [← h3]; congr 2; omega
    · exact h4 (2 + l) (by omega) (by omega) ((get _ _).1 h).2

theorem separator_eq_none {s : State} : separator s.sourceBytes = none ↔
    ∀ j, 2 ≤ j → j < s.aLen → s.oram.read (s.aAddr0 + j) ≠ 0#8 := by
  rw [separator, zeroIndexFrom_eq_none]
  constructor
  · intro h j h2 hj
    apply h
    rw [List.mem_iff_getElem]
    refine ⟨j - 2, by simp [State.sourceBytes]; omega, ?_⟩
    simp only [List.getElem_drop, State.sourceBytes, Memory.getElem_readBytes]
    congr 2; omega
  · intro h b hb
    rw [List.mem_iff_getElem] at hb
    obtain ⟨i, hi, rfl⟩ := hb
    simp only [List.length_drop, State.sourceBytes, Memory.length_readBytes] at hi
    simp only [List.getElem_drop, State.sourceBytes, Memory.getElem_readBytes]
    exact h _ (by omega) (by omega)

/-- When InvalidPadding is not raised (R104, R206). -/
theorem paddingBad_eq_false {s : State} : paddingBad s s.sourceBytes = false ↔
    s.aLen = s.aKlen ∧ 2 ≤ s.aLen ∧ s.oram.read s.aAddr0 = 0#8 ∧ s.oram.read (s.aAddr0 + 1) = 2#8 ∧
      (separator s.sourceBytes).isSome = true := by
  simp only [paddingBad, Bool.or_eq_false_iff, sourceBytes_getElem?, decide_eq_false_iff_not, not_not, not_lt]
  constructor
  · rintro ⟨⟨⟨h1, h2⟩, h3, h4⟩, h5⟩
    rw [if_pos (by omega)] at h3 h4
    exact ⟨h1, h2, by simpa using h3, by simpa using h4, by simpa using h5⟩
  · rintro ⟨h1, h2, h3, h4, h5⟩
    rw [if_pos (by omega), if_pos (by omega)]
    exact ⟨⟨⟨h1, h2⟩, by simpa using h3, by simpa using h4⟩, by simpa using h5⟩

/-- The message of the block read, as bytes of ORAM. -/
theorem paddedMessage_eq {s : State} {p : Nat} (h : separator s.sourceBytes = some p) :
    paddedMessage s.sourceBytes = s.oram.readBytes (s.aAddr0 + p + 1) (s.aLen - p - 1) := by
  simp only [paddedMessage, h]
  apply List.ext_getElem
  · simp [State.sourceBytes]; omega
  · intro i h1 h2
    simp only [List.getElem_drop, State.sourceBytes, Memory.getElem_readBytes]
    congr 1; omega

end Sys2Proof.Machine
end

