-- ==== Sys2Proof/Machine/Assembler.lean ====
section
/-! DEFINITION. Command text (R77) and the pseudo-instructions with their restrictions (R79). -/

namespace Sys2Proof.Machine

open Sys2Proof

/-- `x0` to `x7`. -/
def regText (r : XReg) : String := "x" ++ toString r.val

/-- A mnemonic with its operand registers, separated by commas (R77). -/
def lineText (mnemonic : String) (rs : List XReg) : String :=
  match rs with
  | [] => mnemonic
  | _ => mnemonic ++ " " ++ ", ".intercalate (rs.map regText)

/-- The text of a command (R77). -/
def asmText : Instr → String
  | .nop => lineText "nop" []
  | .ldn rd => lineText "ldn" [rd]
  | .stn ra => lineText "stn" [ra]
  | .mov rd ra => lineText "mov" [rd, ra]
  | .cmp ra rb => lineText "cmp" [ra, rb]
  | .bitlen ra => lineText "bitlen" [ra]
  | .bytelen ra => lineText "bytelen" [ra]
  | .modexp rd ra rb rn => lineText "modexp" [rd, ra, rb, rn]
  | .montmul rd ra rb rn => lineText "montmul" [rd, ra, rb, rn]
  | .montin rd ra rn => lineText "montin" [rd, ra, rn]
  | .montout rd ra rn => lineText "montout" [rd, ra, rn]
  | .padenc => lineText "padenc" []
  | .paddec => lineText "paddec" []
  | .rsaenc rb rn => lineText "rsaenc" [rb, rn]
  | .rsadec rb rn => lineText "rsadec" [rb, rn]

/-- The pseudo-instructions of R79. -/
inductive Pseudo where
  | clr (xd : XReg)
  | tomont (xd xa xn : XReg)
  | frommont (xd xa xn : XReg)
  | modmul (xd xa xb xn : XReg)
  | modred (xd xa xn : XReg)
  | encryptblock (xe xn : XReg)
  | decryptblock (xd xn : XReg)
deriving DecidableEq, Repr

/-- The column "Restriction" of R79: what the assembler refuses (C8). -/
def pseudoWellFormed : Pseudo → Bool
  | .clr _ => true
  | .tomont _ _ _ => true
  | .frommont _ _ _ => true
  | .modmul xd _ xb xn => decide (xd ≠ xb) && decide (xd ≠ xn)
  | .modred xd _ xn => decide (xd ≠ xn)
  | .encryptblock _ _ => true
  | .decryptblock _ _ => true

end Sys2Proof.Machine
end

