-- ==== Sys2Proof/Machine/HostProgram.lean ====
section
/-! DEFINITION. Host programs (R78, R79, R246): the host as an agent that presents bus accesses one at a time,
waits for each answer, and branches on values it has read. It adds nothing to the block: it only appends to the
block's inputs and reads its answers. What the engine and the other agents do between the host's actions is open, and
stands in the run as data (`others`). -/

namespace Sys2Proof.Machine

open Sys2Proof

/-- The MMIO registers by name (10_state.md, table of offsets). -/
inductive HostReg where
  | id | capMaxl | capOram | ctrl | status | cmd | addr0 | addr1 | len | klen | res | flags
deriving DecidableEq, Repr

/-- The offset of a register. -/
def hostRegOffset : HostReg → Nat
  | .id => 0x000
  | .capMaxl => 0x004
  | .capOram => 0x008
  | .ctrl => 0x00C
  | .status => 0x010
  | .cmd => 0x014
  | .addr0 => 0x018
  | .addr1 => 0x01C
  | .len => 0x020
  | .klen => 0x024
  | .res => 0x028
  | .flags => 0x02C

/-- The registers a `set` line can name (R78). -/
inductive SetReg where
  | addr0 | addr1 | len | klen | ctrl | status | cmd
deriving DecidableEq, Repr

/-- A register of `set` among all registers. -/
def SetReg.reg : SetReg → HostReg
  | .addr0 => .addr0
  | .addr1 => .addr1
  | .len => .len
  | .klen => .klen
  | .ctrl => .ctrl
  | .status => .status
  | .cmd => .cmd

/-- The field names of 10_state.md a host branch can test (R33, R34, R41). -/
inductive HostField where
  | ie | srst | busy | done | err | ovr | ecode | eq | lt | gt | trunc
deriving DecidableEq, Repr

/-- The value of a field in a register value read earlier (R33, R34, R41). SRST reads 0 in CTRL (R33). -/
def hostFieldValue (f : HostField) (w : Word) : Nat :=
  match f with
  | .ie => w.toNat % 2
  | .srst => w.toNat / 2 % 2
  | .busy => w.toNat % 2
  | .done => w.toNat / 2 % 2
  | .err => w.toNat / 4 % 2
  | .ovr => w.toNat / 8 % 2
  | .ecode => w.toNat / 256 % 16
  | .eq => w.toNat % 2
  | .lt => w.toNat / 2 % 2
  | .gt => w.toNat / 4 % 2
  | .trunc => w.toNat / 8 % 2

/-- A line of a host program (R78): `set` names one of the seven registers it can write, `get` any register. -/
inductive HostLine where
  | set (r : SetReg) (v : Word)
  | setVar (r : SetReg) (name : String)
  | mem (off : Nat) (bytes : List Byte)
  | command (i : Instr)
  | wait
  | get (r : HostReg) (name : String)
  | ifGoto (f : HostField) (name label : String)
  | label (name : String)
deriving DecidableEq, Repr

/-- The expansion of a pseudo-instruction (R79). Where it has two commands, a host must not issue the second after an
error of the first: that is the program's duty, with an `if` line on ERR between them. -/
def expandPseudo : Pseudo → List HostLine
  | .clr xd => [.set .len 0, .command (.ldn xd)]
  | .tomont xd xa xn => [.command (.montin xd xa xn)]
  | .frommont xd xa xn => [.command (.montout xd xa xn)]
  | .modmul xd xa xb xn => [.command (.montin xd xa xn), .command (.montmul xd xd xb xn)]
  | .modred xd xa xn => [.command (.montin xd xa xn), .command (.montout xd xd xn)]
  | .encryptblock xe xn => [.command (.rsaenc xe xn)]
  | .decryptblock xd xn => [.command (.rsadec xd xn)]

/-- The single actions a line is made of. -/
inductive HostOp where
  | write (off : Nat) (size : AccessSize) (d : Word)
  | writeVar (off : Nat) (name : String)
  | read (off : Nat) (name : String)
  | waitIdle
  | branch (f : HostField) (name label : String)
  | mark (label : String)
deriving DecidableEq, Repr

/-- Bus writes of bytes to ORAM from an offset on, in address order. -/
def memOps (off : Nat) : List Byte → List HostOp
  | [] => []
  | b :: bs => .write (0x1000 + off) .byte (b.setWidth 32) :: memOps (off + 1) bs

/-- The actions of a line (R78). -/
def lineOps : HostLine → List HostOp
  | .set r v => [.write (hostRegOffset r.reg) .word v]
  | .setVar r name => [.writeVar (hostRegOffset r.reg) name]
  | .mem off bytes => memOps off bytes
  | .command i => [.write (hostRegOffset .cmd) .word (encode i), .waitIdle]
  | .wait => [.waitIdle]
  | .get r name => [.read (hostRegOffset r) name]
  | .ifGoto f name label => [.branch f name label]
  | .label name => [.mark name]

/-- The actions of a program. -/
def programOps (ls : List HostLine) : List HostOp := ls.flatMap lineOps

/-- Where the host stands with its current action. -/
inductive HostPhase where
  /-- The other agents' next moves have still to arrive. -/
  | arrive
  /-- The host acts once the block has made all moves that have arrived. -/
  | act
  /-- It waits for the answer to its access; while the access is held, the other agents' moves go on arriving. -/
  | await
deriving DecidableEq, Repr

/-- What became of the last command of the host that the block accepted (R246). -/
inductive LastCommand where
  /-- None was accepted so far. -/
  | unissued
  | running
  | completed
  /-- A reset ended it without completion (R232, R233). -/
  | aborted
deriving DecidableEq, Repr

/-- The host together with the block. -/
structure HostRun where
  block : State
  ops : List HostOp
  here : Nat
  phase : HostPhase
  vars : List (String × Word)
  /-- What the other agents do before each further action of the host, and while the host is stalled on an access
  that waits (R242): turns of the engine, RNG bytes, samples of the reset pin, accesses of other masters. The spec
  leaves it open (U4, U5, U13, R59): each list is a possible run. Where it ends the engine has one turn each time, so
  that no run starves it (R244; log 23). -/
  others : List (List Input)
  /-- What became of the host's last accepted command (R246). -/
  last : LastCommand
deriving DecidableEq, Repr

/-- The value named `name`; 0 if no line has named one (DESIGN CHOICE, log 23). -/
def lookupVar (vars : List (String × Word)) (name : String) : Word :=
  match vars with
  | [] => 0
  | (n, w) :: vs => if n = name then w else lookupVar vs name

/-- The place of a label: the first line that bears it, and past the end if none does (DESIGN CHOICE, log 23: R78 says
nothing of two lines with one label, nor of a label no line has). -/
def labelIndex (label : String) : List HostOp → Nat
  | [] => 0
  | op :: ops => if op = .mark label then 0 else labelIndex label ops + 1

/-- The bus access an action presents, at the window's bus address. -/
def opAccess (h : HostRun) : HostOp → Option BusAccess
  | .write off sz d => some ⟨h.block.params.base + off, sz, some d⟩
  | .writeVar off name => some ⟨h.block.params.base + off, .word, some (lookupVar h.vars name)⟩
  | .read off _ => some ⟨h.block.params.base + off, .word, none⟩
  | .waitIdle => some ⟨h.block.params.base + hostRegOffset .status, .word, none⟩
  | .branch _ _ _ => none
  | .mark _ => none

/-- The host is done with its action and goes on at `here`; the other agents move next. -/
def HostRun.goto (h : HostRun) (here : Nat) : HostRun := { h with here := here, phase := .arrive }

/-- What the host does with the data of an answered access; a `wait` reads STATUS again while BUSY is 1 (R78). -/
def takeAnswer (h : HostRun) (op : HostOp) (d : Word) : HostRun :=
  match op with
  | .write _ _ _ => h.goto (h.here + 1)
  | .writeVar _ _ => h.goto (h.here + 1)
  | .read _ name => { h with vars := (name, d) :: h.vars }.goto (h.here + 1)
  | .waitIdle => if hostFieldValue .busy d = 0 then h.goto (h.here + 1) else h.goto h.here
  | .branch _ _ _ => h.goto (h.here + 1)
  | .mark _ => h.goto (h.here + 1)

/-- What became of the last command after a step to the block state `s`: a command ends when BUSY goes to 0, with DONE
set if it completed (R203, R204), and clear if a reset ended it (R233). -/
def LastCommand.after (l : LastCommand) (s : State) : LastCommand :=
  match l with
  | .running => if s.status.busy then .running else if s.status.done then .completed else .aborted
  | .unissued => .unissued
  | .completed => .completed
  | .aborted => .aborted

/-- The run with the block stepped to `s`. -/
def HostRun.stepped (h : HostRun) (s : State) : HostRun := { h with block := s, last := h.last.after s }

/-- One step of the block inside the run, with what the host then does. -/
def blockMove (h : HostRun) (next : HostRun → HostRun) : Host.Outcome HostRun Fault Refusal :=
  match step h.block with
  | .next s => .next (next (h.stepped s))
  | .fault r => .fault r
  | .refused r => .refused r

/-- The next moves of the other agents: the next of `others`, or, where that list has ended, one turn of the engine
(weak fairness, R244; DESIGN CHOICE, log 23). -/
def nextOthers (others : List (List Input)) : List Input :=
  match others with
  | [] => [.engine]
  | o :: _ => o

/-- They arrive at the block. -/
def HostRun.othersArrive (h : HostRun) : HostRun :=
  { h with
    block := { h.block with inputs := h.block.inputs ++ nextOthers h.others }
    others := h.others.tail }

/-- Whether the block has a move to make before more arrives: one at its port, or a held access that BUSY no longer
holds (R58). -/
def HostRun.blockPending (h : HostRun) : Bool :=
  !h.block.inputs.isEmpty || (!h.block.held.isEmpty && !h.block.status.busy)

/-- The host acts: it presents its access, or takes a branch or passes a label, which need none. After the last
line only the other agents move (R246). -/
def HostRun.act (h : HostRun) : HostRun :=
  match h.ops[h.here]? with
  | none => h.goto h.here
  | some op =>
    match opAccess h op with
    | some a => { h with block := { h.block with inputs := h.block.inputs ++ [.bus a] }, phase := .await }
    | none =>
      match op with
      | .branch f name label =>
        if hostFieldValue f (lookupVar h.vars name) = 0 then h.goto (h.here + 1)
        else h.goto (labelIndex label h.ops)
      | _ => h.goto (h.here + 1)

/-- The host looks at the answer the block gave in its last step, if it is the one to its own access. An answer to an
equal access of another master counts as that (DESIGN CHOICE, log 23). Where BUSY rose in that step from `wasBusy`
false, the access was a CMD write of the host that the block accepted (R201). -/
def HostRun.look (h : HostRun) (wasBusy : Bool) : HostRun :=
  match h.ops[h.here]?, h.block.answer with
  | some op, some ans =>
    if some ans.access = opAccess h op then
      takeAnswer { h with last := if h.block.status.busy && !wasBusy then .running else h.last } op ans.rdata
    else h
  | _, _ => h

/-- One move of the host and the block. Whether the engine moves between two accesses of the host is open (U5), so
it is `others` that says it, at every action and not only in a `wait`; and while the host's own access is held, RNG
bytes, the reset pin and other masters move as `others` says too (U4, R242; log 23). -/
def hostStep (h : HostRun) : Host.Outcome HostRun Fault Refusal :=
  match h.phase with
  | .arrive => .next { h.othersArrive with phase := .act }
  | .act => if h.block.inputs.isEmpty then .next h.act else blockMove h id
  | .await => if h.blockPending then blockMove h (HostRun.look · h.block.status.busy) else .next h.othersArrive

/-- The end of a host program run: the last line is issued, STATUS.BUSY is 0, and the last command was not ended by a
reset, for a run whose last command never completes has no end (R246). A CMD write that was dropped is no command that
runs: as in column (a) of P4, the run then ends with the last accepted one (DEDUCED, log 23). -/
def HostRun.ended (h : HostRun) : Bool :=
  decide (h.ops.length ≤ h.here) && !h.block.status.busy && decide (h.last ≠ .aborted)

/-- A host program at the block in state `s`, the other agents moving as `others` says. -/
def HostRun.start (s : State) (ls : List HostLine) (others : List (List Input)) : HostRun :=
  { block := s, ops := programOps ls, here := 0, phase := .arrive, vars := [], others := others, last := .unissued }

end Sys2Proof.Machine
end

