-- ==== Sys2Proof/Laws/HostProgram.lean ====
section
/-! SUPPORT. What a move of a host program can do to the block. -/

namespace Sys2Proof.Machine

open Sys2Proof

/-- R33, R78: SRST of a CTRL value that was read is 0, so a branch on it is never taken. -/
theorem hostFieldValue_srst_ctrl (s : State) :
    hostFieldValue .srst (s.readReg (hostRegOffset .ctrl)) = 0 := by
  show (ctrlImage s.ie).toNat / 2 % 2 = 0
  cases s.ie <;> decide

@[simp] theorem HostRun.goto_block (h : HostRun) (k : Nat) : (h.goto k).block = h.block := rfl
@[simp] theorem HostRun.goto_others (h : HostRun) (k : Nat) : (h.goto k).others = h.others := rfl
@[simp] theorem HostRun.othersArrive_others (h : HostRun) : h.othersArrive.others = h.others.tail := rfl

@[simp] theorem takeAnswer_block (h : HostRun) (op : HostOp) (d : Word) : (takeAnswer h op d).block = h.block := by
  cases op <;> simp [takeAnswer]
  split <;> rfl

@[simp] theorem HostRun.stepped_block (h : HostRun) (s : State) : (h.stepped s).block = s := rfl
@[simp] theorem HostRun.stepped_last (h : HostRun) (s : State) : (h.stepped s).last = h.last.after s := rfl

@[simp] theorem takeAnswer_last (h : HostRun) (op : HostOp) (d : Word) : (takeAnswer h op d).last = h.last := by
  cases op <;> simp only [takeAnswer] <;> try rfl
  split <;> rfl

/-- A command once aborted or completed stays so; a running one ends as DONE says (R203, R204, R233). -/
theorem LastCommand.after_eq_aborted {l : LastCommand} {s : State} :
    l.after s = .aborted ↔ l = .aborted ∨ (l = .running ∧ s.status.busy = false ∧ s.status.done = false) := by
  cases l <;> simp [LastCommand.after]
  split
  · simp_all
  · split <;> simp_all

/-- R246: a run whose last command a reset ended has no end. -/
theorem HostRun.not_ended_of_aborted {h : HostRun} (hl : h.last = .aborted) : h.ended = false := by
  simp [HostRun.ended, hl]

@[simp] theorem HostRun.look_block (h : HostRun) (b : Bool) : (h.look b).block = h.block := by
  unfold HostRun.look
  split
  · split <;> simp
  · rfl

/-- The host's own action adds at most one access to what waits at the block. -/
theorem HostRun.act_block (h : HostRun) :
    h.act.block = h.block ∨ ∃ a, h.act.block = { h.block with inputs := h.block.inputs ++ [.bus a] } := by
  unfold HostRun.act
  split
  · exact .inl rfl
  · split
    · exact .inr ⟨_, rfl⟩
    · split
      · split <;> exact .inl rfl
      · exact .inl rfl

/-- All a move of the run can do to the block: one step of it, or inputs added after those that wait. -/
theorem hostStep_cases {h h' : HostRun} (hs : hostStep h = .next h') :
    step h.block = .next h'.block ∨ ∃ more, h'.block = { h.block with inputs := h.block.inputs ++ more } := by
  unfold hostStep at hs
  split at hs
  · cases hs; exact .inr ⟨_, rfl⟩
  · split at hs
    · cases hs
      rcases h.act_block with e | ⟨a, e⟩
      · exact .inr ⟨[], by simp [e]⟩
      · exact .inr ⟨_, e⟩
    · unfold blockMove at hs
      split at hs <;> cases hs
      exact .inl ‹_›
  · split at hs
    · unfold blockMove at hs
      split at hs <;> cases hs
      left; simpa using ‹step h.block = _›
    · cases hs; exact .inr ⟨_, rfl⟩

/-- Weak fairness (R244): once `others` has ended, a turn of the engine is added before each action of the host. -/
theorem hostStep_arrive_fair {h : HostRun} (hp : h.phase = .arrive) (ho : h.others = []) :
    hostStep h = .next { h with
      block := { h.block with inputs := h.block.inputs ++ [.engine] }, others := [], phase := .act } := by
  simp [hostStep, hp, HostRun.othersArrive, nextOthers, ho]

/-- While the host is stalled on a held access, the next moves of the other agents arrive (U4, R242). -/
theorem hostStep_stalled {h : HostRun} (hp : h.phase = .await) (hi : h.block.inputs = [])
    (hb : h.block.status.busy = true) : hostStep h = .next h.othersArrive := by
  simp [hostStep, hp, HostRun.blockPending, hi, hb]

end Sys2Proof.Machine
end

