-- ==== Sys2Proof/Laws/PerInstr.lean ====
section
/-! SUPPORT. Statements made for every command, one lemma per constructor (LAWS.json). -/

namespace Sys2Proof.Laws.EncodeFormat

open Sys2Proof

/-- The word of a command carries the opcode of its row of R74, and is not illegal by the formats of R72 (R75). -/
def Statement (i : Instr) : Prop :=
  (∃ r, opRows[rowIndex i]? = some r ∧ wordOp (encode i) = r.value.toNat / 2 ^ 24) ∧
    wordWellFormed (encode i) = true

/-- A packed word of format `f` is well formed if every field `f` lacks is 0. -/
theorem of_format {op : Nat} {f : Format} {rd ra rb rn : XReg} (hop : op < 256) (hf : formatOfOp op = some f)
    (h1 : f.hasRd = true ∨ rd = 0) (h2 : f.hasRa = true ∨ ra = 0) (h3 : f.hasRb = true ∨ rb = 0)
    (h4 : f.hasRn = true ∨ rn = 0) :
    wordOp (packWord op rd ra rb rn) = op ∧ wordWellFormed (packWord op rd ra rb rn) = true := by
  obtain ⟨e0, e1, e2, e3, e4, e5⟩ := packWord_fields hop rd ra rb rn
  refine ⟨e0, wordWellFormed_of_format (by rw [e0]; exact hf) ?_ ?_ ?_ ?_ e5⟩
  · exact h1.imp id fun h => by rw [e1, h]; rfl
  · exact h2.imp id fun h => by rw [e2, h]; rfl
  · exact h3.imp id fun h => by rw [e3, h]; rfl
  · exact h4.imp id fun h => by rw [e4, h]; rfl

theorem nop : Statement .nop :=
  have h := of_format (op := 0x00) (f := .fN) (rd := 0) (ra := 0) (rb := 0) (rn := 0) (by decide) rfl
    (.inr rfl) (.inr rfl) (.inr rfl) (.inr rfl)
  ⟨⟨_, rfl, h.1⟩, h.2⟩

theorem ldn (rd : XReg) : Statement (.ldn rd) :=
  have h := of_format (op := 0x01) (f := .fD) (rd := rd) (ra := 0) (rb := 0) (rn := 0) (by decide) rfl
    (.inl rfl) (.inr rfl) (.inr rfl) (.inr rfl)
  ⟨⟨_, rfl, h.1⟩, h.2⟩

theorem stn (ra : XReg) : Statement (.stn ra) :=
  have h := of_format (op := 0x02) (f := .fA) (rd := 0) (ra := ra) (rb := 0) (rn := 0) (by decide) rfl
    (.inr rfl) (.inl rfl) (.inr rfl) (.inr rfl)
  ⟨⟨_, rfl, h.1⟩, h.2⟩

theorem mov (rd ra : XReg) : Statement (.mov rd ra) :=
  have h := of_format (op := 0x03) (f := .fDA) (rd := rd) (ra := ra) (rb := 0) (rn := 0) (by decide) rfl
    (.inl rfl) (.inl rfl) (.inr rfl) (.inr rfl)
  ⟨⟨_, rfl, h.1⟩, h.2⟩

theorem cmp (ra rb : XReg) : Statement (.cmp ra rb) :=
  have h := of_format (op := 0x04) (f := .fAB) (rd := 0) (ra := ra) (rb := rb) (rn := 0) (by decide) rfl
    (.inr rfl) (.inl rfl) (.inl rfl) (.inr rfl)
  ⟨⟨_, rfl, h.1⟩, h.2⟩

theorem bitlen (ra : XReg) : Statement (.bitlen ra) :=
  have h := of_format (op := 0x05) (f := .fA) (rd := 0) (ra := ra) (rb := 0) (rn := 0) (by decide) rfl
    (.inr rfl) (.inl rfl) (.inr rfl) (.inr rfl)
  ⟨⟨_, rfl, h.1⟩, h.2⟩

theorem bytelen (ra : XReg) : Statement (.bytelen ra) :=
  have h := of_format (op := 0x06) (f := .fA) (rd := 0) (ra := ra) (rb := 0) (rn := 0) (by decide) rfl
    (.inr rfl) (.inl rfl) (.inr rfl) (.inr rfl)
  ⟨⟨_, rfl, h.1⟩, h.2⟩

theorem modexp (rd ra rb rn : XReg) : Statement (.modexp rd ra rb rn) :=
  have h := of_format (op := 0x10) (f := .fDABN) (rd := rd) (ra := ra) (rb := rb) (rn := rn) (by decide) rfl
    (.inl rfl) (.inl rfl) (.inl rfl) (.inl rfl)
  ⟨⟨_, rfl, h.1⟩, h.2⟩

theorem montmul (rd ra rb rn : XReg) : Statement (.montmul rd ra rb rn) :=
  have h := of_format (op := 0x11) (f := .fDABN) (rd := rd) (ra := ra) (rb := rb) (rn := rn) (by decide) rfl
    (.inl rfl) (.inl rfl) (.inl rfl) (.inl rfl)
  ⟨⟨_, rfl, h.1⟩, h.2⟩

theorem montin (rd ra rn : XReg) : Statement (.montin rd ra rn) :=
  have h := of_format (op := 0x12) (f := .fDAN) (rd := rd) (ra := ra) (rb := 0) (rn := rn) (by decide) rfl
    (.inl rfl) (.inl rfl) (.inr rfl) (.inl rfl)
  ⟨⟨_, rfl, h.1⟩, h.2⟩

theorem montout (rd ra rn : XReg) : Statement (.montout rd ra rn) :=
  have h := of_format (op := 0x13) (f := .fDAN) (rd := rd) (ra := ra) (rb := 0) (rn := rn) (by decide) rfl
    (.inl rfl) (.inl rfl) (.inr rfl) (.inl rfl)
  ⟨⟨_, rfl, h.1⟩, h.2⟩

theorem padenc : Statement .padenc :=
  have h := of_format (op := 0x20) (f := .fN) (rd := 0) (ra := 0) (rb := 0) (rn := 0) (by decide) rfl
    (.inr rfl) (.inr rfl) (.inr rfl) (.inr rfl)
  ⟨⟨_, rfl, h.1⟩, h.2⟩

theorem paddec : Statement .paddec :=
  have h := of_format (op := 0x21) (f := .fN) (rd := 0) (ra := 0) (rb := 0) (rn := 0) (by decide) rfl
    (.inr rfl) (.inr rfl) (.inr rfl) (.inr rfl)
  ⟨⟨_, rfl, h.1⟩, h.2⟩

theorem rsaenc (rb rn : XReg) : Statement (.rsaenc rb rn) :=
  have h := of_format (op := 0x30) (f := .fBN) (rd := 0) (ra := 0) (rb := rb) (rn := rn) (by decide) rfl
    (.inr rfl) (.inr rfl) (.inl rfl) (.inl rfl)
  ⟨⟨_, rfl, h.1⟩, h.2⟩

theorem rsadec (rb rn : XReg) : Statement (.rsadec rb rn) :=
  have h := of_format (op := 0x31) (f := .fBN) (rd := 0) (ra := 0) (rb := rb) (rn := rn) (by decide) rfl
    (.inr rfl) (.inr rfl) (.inl rfl) (.inl rfl)
  ⟨⟨_, rfl, h.1⟩, h.2⟩

end Sys2Proof.Laws.EncodeFormat
end

