-- ==== Sys2Proof/Laws/Step.lean ====
section
/-! SUPPORT. Which move a step makes, by the head of the inputs and the held accesses. -/

namespace Sys2Proof.Machine

open Sys2Proof

/-- All a step can do: perform the oldest held access, or make the move at the head of the inputs. -/
theorem step_cases {s : State} :
    (∃ a rest, s.held = a :: rest ∧ s.status.busy = false ∧
        step s = .next (State.performAccess { s with answer := none, held := rest } a)) ∨
      step s = inputMove { s with answer := none } := by
  unfold step nextMove
  split
  · exact .inr rfl
  · rename_i a rest h
    split
    · exact .inr rfl
    · rename_i hb
      simp only [Bool.or_eq_true, not_or, Bool.not_eq_true] at hb
      exact .inl ⟨a, rest, h, hb.1, rfl⟩

/-- A step with no held access to perform makes the move at the head of the inputs. -/
theorem step_eq_inputMove {s : State} (h : s.held = [] ∨ s.status.busy = true) :
    step s = inputMove { s with answer := none } := by
  rcases step_cases (s := s) with ⟨a, rest, h1, h2, -⟩ | h'
  · rcases h with h | h
    · rw [h] at h1; cases h1
    · rw [h] at h2; cases h2
  · exact h'

/-- A bus access at the head of the inputs arrives at the port. -/
theorem step_bus {s : State} {a : BusAccess} {rest : List Input} (h : s.held = [] ∨ s.status.busy = true)
    (hi : s.inputs = .bus a :: rest) : step s = busArrives { s with answer := none, inputs := rest } a := by
  rw [step_eq_inputMove h]; simp only [inputMove, hi]

/-- Once BUSY is 0 the oldest held access is performed, unless the pin is sampled next (log 8, 20). -/
theorem step_held {s : State} {a : BusAccess} {rest : List BusAccess} (hb : s.status.busy = false)
    (hh : s.held = a :: rest) (hp : pinNext s = false) :
    step s = .next (State.performAccess { s with answer := none, held := rest } a) := by
  have hp' : pinNext { s with answer := none } = false := hp
  unfold step nextMove
  simp only [hh] at hp' ⊢
  simp only [hb, hp', Bool.or_self, Bool.false_eq_true, if_false]

/-- The pin is sampled whatever is held (log 20). -/
theorem step_rstPin {s : State} {level : Bool} {rest : List Input} (hi : s.inputs = .rstPin level :: rest) :
    step s = .next (State.samplePin { s with answer := none, inputs := rest } level) := by
  unfold step nextMove
  split
  · simp only [inputMove, hi]
  · simp [pinNext, hi, inputMove]

/-- All the engine's turn can do. -/
theorem engineTurn_cases {s t : State} (h : engineTurn s = .next t) :
    t = s ∨ (s.rstN = true ∧ s.status.busy = true ∧
      ((∃ e, decode s.latch.cmd = .error e ∧ t = s.raise .illegalCommand) ∨
        ∃ i, decode s.latch.cmd = .ok i ∧ exec i s = .next t)) := by
  unfold engineTurn at h
  split at h
  · rename_i hc
    simp only [Bool.and_eq_true] at hc
    unfold engineStep at h
    split at h
    · rename_i e he
      exact .inr ⟨hc.1, hc.2, .inl ⟨e, he, (Host.Outcome.next.inj h).symm⟩⟩
    · rename_i i hi
      exact .inr ⟨hc.1, hc.2, .inr ⟨i, hi, h⟩⟩
  · exact .inl (Host.Outcome.next.inj h).symm

end Sys2Proof.Machine
end

