-- ==== Sys2Proof/Tests/Slice0.lean ====
section
/-! SUPPORT. Tests of the model against the spec's own vectors (95_test_vectors.md), smoke tests of the
well-formedness checks, and for every statement with hypotheses a witness that meets them. Every expected result
is the vector's, or a hand calculation from the rule named. -/

set_option Elab.async false

namespace Sys2Proof.Tests

open Sys2Proof Sys2Proof.Machine

/-! ### Helpers -/

/-- The state a result carries; the state after reset if it carries none. -/
def after (r : Result) : State :=
  match r with
  | .next s => s
  | _ => State.reset

/-- Whether a result is a next state. -/
def answers (r : Result) : Bool :=
  match r with
  | .next _ => true
  | _ => false

/-- ORAM with some bytes from an offset on. -/
def oramAt (a : Nat) (bs : List Byte) : Memory := Memory.writeBytes [] a bs

/-- A state in which command `i` runs with the latches `addr0 len addr1 klen`. -/
def running (i : Instr) (addr0 len addr1 klen : Word) (m : Memory) (x : Vector Nat 8) : State :=
  { State.reset with
    latch := ⟨encode i, addr0, addr1, len, klen⟩, status := { Status.clear with busy := true }
    oram := m, x := x }

/-- The same with no ORAM operand. -/
def runningX (i : Instr) (x : Vector Nat 8) : State := running i 0 0 0 0 [] x

/-- A block with one input waiting. -/
def withInput (s : State) (a : Input) : State := { s with inputs := [a] }

def zeros : Vector Nat 8 := Vector.replicate 8 0

/-- The toy key T: X0 = n, X1 = e, X2 = d. -/
def keyT : Vector Nat 8 := #v[3233, 17, 2753, 0, 0, 0, 0, 0]

/-- The 128-bit key K: X0 = n, X1 = e, X2 = d. -/
def keyK : Vector Nat 8 :=
  #v[0xA800000000000012A000000000000055, 65537, 0x526CBD93426CBD9B999E6661999E6681, 0, 0, 0, 0, 0]

/-- The block of V-PE-1. -/
def blockPE1 : List Byte :=
  [0x00, 0x02, 0x5A, 0xA5, 0x01, 0xFF, 0x33, 0x44, 0x55, 0x66, 0x77, 0x88, 0x99, 0x00, 0x48, 0x49]

/-- The RNG stream of V-PE-1. -/
def rngPE1 : List Byte := [0x5A, 0x00, 0xA5, 0x01, 0xFF, 0x00, 0x33, 0x44, 0x55, 0x66, 0x77, 0x88, 0x99]

/-! ### Ill-formed terms the checks refuse (R6, R75, R79) -/

theorem test_params_maxl_low : ¬ Params.WellFormed { Params.default with maxl := 255 } := by decide
theorem test_params_maxl_high : ¬ Params.WellFormed { maxl := 4097, oramBytes := 0xF000, base := 0 } := by decide
theorem test_params_oram_low : ¬ Params.WellFormed { Params.default with oramBytes := 1023 } := by decide
theorem test_params_oram_high : ¬ Params.WellFormed { Params.default with oramBytes := 0xF001 } := by decide
theorem test_params_base : ¬ Params.WellFormed { Params.default with base := 0x8000 } := by decide
theorem test_word_opcode : wordOpAssigned 0x07000000 = false := by decide
theorem test_word_field : wordFieldsZero 0x01040000 = false := by decide
theorem test_word_rsv : wordRsvZero 0x10650800 = false := by decide
theorem test_word_illegal : wordWellFormed 0x20200000 = false := by decide
theorem test_pseudo_modmul_xb : pseudoWellFormed (.modmul 3 1 3 0) = false := by decide
theorem test_pseudo_modmul_xn : pseudoWellFormed (.modmul 0 1 2 0) = false := by decide
theorem test_pseudo_modred_xn : pseudoWellFormed (.modred 5 1 5) = false := by decide

/-! ### Decoding: words of R77, of 95_test_vectors.md, and for BITLEN and BYTELEN written out by hand -/

theorem test_decode_nop : decode 0x00000000 = .ok .nop := by decide
theorem test_decode_ldn : decode 0x01E00000 = .ok (.ldn 7) := by decide
theorem test_decode_stn : decode 0x02100000 = .ok (.stn 4) := by decide
theorem test_decode_mov : decode 0x035C0000 = .ok (.mov 2 7) := by decide
theorem test_decode_cmp : decode 0x041C8000 = .ok (.cmp 7 1) := by decide
/-- 00000101 000 011 000 000 0…0. -/
theorem test_decode_bitlen : decode 0x050C0000 = .ok (.bitlen 3) := by decide
/-- 00000110 000 110 000 000 0…0. -/
theorem test_decode_bytelen : decode 0x06180000 = .ok (.bytelen 6) := by decide
theorem test_decode_modexp : decode 0x10650000 = .ok (.modexp 3 1 2 0) := by decide
theorem test_decode_modexp_rn : decode 0x10401000 = .ok (.modexp 2 0 0 1) := by decide
theorem test_decode_montmul : decode 0x118D0000 = .ok (.montmul 4 3 2 0) := by decide
theorem test_decode_montin : decode 0x12640000 = .ok (.montin 3 1 0) := by decide
theorem test_decode_montout : decode 0x13EC0000 = .ok (.montout 7 3 0) := by decide
theorem test_decode_padenc : decode 0x20000000 = .ok .padenc := by decide
theorem test_decode_paddec : decode 0x21000000 = .ok .paddec := by decide
theorem test_decode_rsaenc : decode 0x30008000 = .ok (.rsaenc 1 0) := by decide
theorem test_decode_rsadec : decode 0x31010000 = .ok (.rsadec 2 0) := by decide
/-- V-ENC-8 and V-ENC-12. -/
theorem test_decode_illegal : decode 0x01040000 = .error .fieldNotZero ∧ decode 0x10650800 = .error .rsvNotZero := by
  decide
theorem test_decodeTableWord : decodeTableWord 32 0x118D0000 = some (.montmul 4 3 2 0) := by decide
/-- R77: the syntax column. -/
theorem test_asmText : asmText (.modexp 3 1 2 0) = "modexp x3, x1, x2, x0" ∧ asmText .padenc = "padenc" := by
  decide

/-! ### Commands -/

/-- V-CM-9 with R210. -/
theorem test_nop : (after (exec .nop { runningX .nop zeros with ie := true })).status.image = 0x00000002 ∧
    (after (exec .nop { runningX .nop zeros with ie := true })).irq = true := by decide
/-- V-CV-2. -/
theorem test_ldn_leading_zeros :
    (after (exec (.ldn 0) (running (.ldn 0) 0 4 0 0 (oramAt 0 [0, 0, 0x0C, 0xA1]) zeros))).readX 0 = 3233 := by decide
/-- V-CV-17: no 32-bit wrap. -/
theorem test_ldn_no_wrap :
    (after (exec (.ldn 0) (running (.ldn 0) 0xFFFFFFFF 2 0 0 [] zeros))).status.image = 0x00000306 := by decide
/-- V-CV-7. -/
theorem test_stn_pads :
    (after (exec (.stn 0) (running (.stn 0) 0 4 0x10 0 [] keyT))).oram.readBytes 0x10 4 = [0, 0, 0x0C, 0xA1] := by decide
/-- V-CV-8. -/
theorem test_stn_trunc :
    (after (exec (.stn 0) (running (.stn 0) 0 1 0x10 0 [] keyT))).oram.readBytes 0x10 1 = [0xA1] ∧
    (after (exec (.stn 0) (running (.stn 0) 0 1 0x10 0 [] keyT))).flags.image = 0x00000008 := by decide
/-- V-CM-8. -/
theorem test_mov : (after (exec (.mov 2 7) (runningX (.mov 2 7) (zeros.set 7 17)))).readX 2 = 17 := by decide
/-- V-CM-5 and V-CM-7: GT, and TRUNC stays. -/
theorem test_cmp_full : (after (exec (.cmp 0 1) { runningX (.cmp 0 1) ((zeros.set 0 (2 ^ 4095 + 5)).set 1 5) with
    flags := { Flags.clear with trunc := true } })).flags.image = 0x0000000C := by decide +kernel
/-- V-CM-3. -/
theorem test_cmp_lt :
    (after (exec (.cmp 1 0) (runningX (.cmp 1 0) ((zeros.set 0 3233).set 1 1234)))).flags.image = 0x00000002 := by decide
/-- V-LEN-4 and V-LEN-1. -/
theorem test_bitlen : (after (exec (.bitlen 3) (runningX (.bitlen 3) (zeros.set 3 256)))).res = 9 ∧
    (after (exec (.bitlen 3) (runningX (.bitlen 3) zeros))).res = 0 := by decide +kernel
/-- V-LEN-4 and V-LEN-3. -/
theorem test_bytelen : (after (exec (.bytelen 3) (runningX (.bytelen 3) (zeros.set 3 256)))).res = 2 ∧
    (after (exec (.bytelen 3) (runningX (.bytelen 3) (zeros.set 3 255)))).res = 1 := by decide +kernel
/-- The aliasing example after V-ME-15: 65^65 mod 3233 = 1878, into a source. -/
theorem test_modexp_alias :
    (after (exec (.modexp 1 1 1 0) (runningX (.modexp 1 1 1 0) (keyT.set 1 65)))).readX 1 = 1878 := by decide +kernel
/-- V-ME-12. -/
theorem test_modexp_even :
    (after (exec (.modexp 2 0 0 1) (runningX (.modexp 2 0 0 1) (keyT.set 1 3234)))).status.image = 0x00000406 := by
  decide +kernel
/-- V-MM-1. -/
theorem test_montmul : (after (exec (.montmul 4 1 2 0)
    (runningX (.montmul 4 1 2 0) #v[3233, 1234, 2345, 0, 0, 0, 0, 0]))).readX 4 = 3045 := by decide +kernel
/-- V-MM-12: a = b = n - 1. -/
theorem test_montmul_top : (after (exec (.montmul 4 1 1 0)
    (runningX (.montmul 4 1 1 0) (keyT.set 1 3232)))).readX 4 = 513 := by decide +kernel
/-- V-MM-11. -/
theorem test_montin : (after (exec (.montin 3 1 0)
    (runningX (.montin 3 1 0) (keyT.set 1 4000)))).readX 3 = 2661 := by decide +kernel
/-- V-MM-4. -/
theorem test_montout : (after (exec (.montout 3 1 0)
    (runningX (.montout 3 1 0) (keyT.set 1 1234)))).readX 3 = 2607 := by decide +kernel
/-- V-MM-16. -/
theorem test_montout_K : (after (exec (.montout 3 1 0)
    (runningX (.montout 3 1 0) (keyK.set 1 1)))).readX 3 = 0x8E269727B848D979BD59975512D08E94 := by decide +kernel
/-- V-PE-1, with one byte left over. -/
theorem test_padenc :
    (after (exec .padenc { running .padenc 0x20 2 0x40 16 (oramAt 0x20 [0x48, 0x49]) zeros with
      rng := rngPE1 ++ [0x77] })).oram.readBytes 0x40 16 = blockPE1 ∧
    (after (exec .padenc { running .padenc 0x20 2 0x40 16 (oramAt 0x20 [0x48, 0x49]) zeros with
      rng := rngPE1 ++ [0x77] })).rng = [0x77] := by decide
/-- V-PE-10: still BUSY. -/
theorem test_padenc_waits :
    (after (exec .padenc { running .padenc 0x20 2 0x40 16 [] zeros with rng := [0, 0, 0] })).status.image =
      0x00000001 := by decide
/-- V-PD-8. -/
theorem test_paddec :
    (after (exec .paddec (running .paddec 0 16 0x100 16 (oramAt 0 [0x00, 0x02, 0x11, 0x00, 0x22, 0x00, 0x33, 0x44,
      0x55, 0x66, 0x77, 0x88, 0x99, 0xAA, 0xBB, 0xCC]) zeros))).oram.readBytes 0x100 13 =
      [0x22, 0x00, 0x33, 0x44, 0x55, 0x66, 0x77, 0x88, 0x99, 0xAA, 0xBB, 0xCC, 0x00] := by decide
/-- V-PD-12: the window is KLEN bytes. -/
theorem test_paddec_window :
    (after (exec .paddec (running .paddec 0 16 0xFF8 16 (oramAt 0 blockPE1) zeros))).status.image = 0x00000306 := by
  decide
/-- V-RSA-1. -/
theorem test_rsaenc :
    (after (exec (.rsaenc 1 0) (running (.rsaenc 1 0) 0 2 0x10 0 (oramAt 0 [0x00, 0x41]) keyT))).oram.readBytes 0x10 2 =
      [0x0A, 0xE6] := by decide +kernel
/-- V-RSA-10: RangeError before InvalidModulus. -/
theorem test_rsaenc_order :
    (after (exec (.rsaenc 1 0) (running (.rsaenc 1 0) 0 2 0xFFF 0 [] (keyT.set 0 3234)))).status.image =
      0x00000306 := by decide +kernel
/-- V-RSA-8. -/
theorem test_rsadec_K :
    (after (exec (.rsadec 2 0) (running (.rsadec 2 0) 0 16 0x60 0 (oramAt 0 [0x24, 0x79, 0x6B, 0xB0, 0x61, 0xDD, 0x29,
      0x06, 0x82, 0x15, 0x31, 0x4D, 0x0A, 0x59, 0xC8, 0xCC]) keyK))).oram.readBytes 0x60 16 = blockPE1 := by
  decide +kernel

/-! ### Lifecycle, bus, reset -/

/-- V-ENC-13 on the lifecycle. -/
theorem test_illegal_word :
    (after (step { runningX .nop zeros with latch := { Latch.clear with cmd := 0xFF000000 } })).status.image =
      0x00000106 := by decide
/-- The very next step after withFetchWord runs the command: V-CM-8's word after reset. -/
theorem test_withFetchWord :
    (after (step ({ State.reset with x := zeros.set 7 17 }.withFetchWord 32 0x035C0000))).readX 2 = 17 := by decide
/-- V-ERR-4. -/
theorem test_status_w1c : (after (step (withInput { State.reset with
    status := { busy := false, done := true, err := true, ovr := false, ecode := .invalidParameter } }
      (.bus ⟨0x010, .word, some 0x00000006⟩)))).status.image = 0x00000200 := by decide
/-- V-ERR-6. -/
theorem test_overrun :
    (after (step (withInput (runningX .nop zeros) (.bus ⟨0x014, .word, some 0x20000000⟩)))).status.image =
      0x00000009 := by decide
/-- V-BUS-2. -/
theorem test_bus_lanes_read : (after (step (withInput { State.reset with oram := oramAt 0 [0x0C, 0xA1, 0x5A, 0x00] }
    (.bus ⟨0x1000, .word, none⟩)))).answer = some ⟨⟨0x1000, .word, none⟩, 0x005AA10C, .okay⟩ := by decide
/-- V-BUS-4. -/
theorem test_bus_lanes_write : (after (step (withInput State.reset
    (.bus ⟨0x1000, .word, some 0x11223344⟩)))).oram.readBytes 0 4 = [0x44, 0x33, 0x22, 0x11] := by decide
/-- V-BUS-5. -/
theorem test_bus_misaligned : (after (step (withInput State.reset
    (.bus ⟨0x1001, .half, none⟩)))).answer = some ⟨⟨0x1001, .half, none⟩, 0, .error⟩ := by decide
/-- V-BUS-10: held while BUSY, then performed on the ORAM as the command (STN of A1) left it. -/
theorem test_bus_held :
    (after (step (after (step (after (step { running (.stn 0) 0 1 0 0 [] keyT with
      inputs := [.bus ⟨0x1000, .byte, none⟩, .engine] })))))).answer =
        some ⟨⟨0x1000, .byte, none⟩, 0xA1, .okay⟩ := by decide
/-- V-RST-3 and V-RST-4. -/
theorem test_soft_reset_idle :
    (after (step (withInput { State.reset with x := keyT, ie := true, len := 7 }
      (.bus ⟨0x00C, .word, some 0x00000002⟩)))).len = 0 ∧
    (after (step (withInput { State.reset with x := keyT, ie := true, len := 7 }
      (.bus ⟨0x00C, .word, some 0x00000002⟩)))).x = keyT := by decide
/-- V-RST-2: the other X registers stay; no DONE. -/
theorem test_soft_reset_abort :
    (after (step (withInput (runningX (.modexp 3 1 2 0) keyT)
      (.bus ⟨0x00C, .word, some 0x00000003⟩)))).status.image = 0 ∧
    (after (step (withInput (runningX (.modexp 3 1 2 0) keyT)
      (.bus ⟨0x00C, .word, some 0x00000003⟩)))).readX 1 = 17 := by decide +kernel

/-- Runs a host program for `k` moves. -/
def runHost : Nat → HostRun → HostRun
  | 0, h => h
  | k + 1, h =>
    match hostStep h with
    | .next h' => runHost k h'
    | _ => h

/-- R78 on a small program: `mem`, `set`, a command with its wait, and `get`. -/
theorem test_host_program :
    lookupVar (runHost 70 (HostRun.start State.reset
      [.mem 0 [0x0C, 0xA1], .set .len 2, .command (.ldn 5), .command (.bytelen 5), .get .res "L"] [])).vars "L" = 2 := by
  decide +kernel
/-- The end of P4: two CMD writes with no wait between them, then a wait and a read of STATUS. -/
def endOfP4 (others : List (List Input)) : HostRun :=
  runHost 40 (HostRun.start State.reset [.set .cmd 0x10600000, .set .cmd 0, .wait, .get .status "s"] others)
/-- P4, column (a): the first command is still busy at the second write. (With X0 = 0 it ends with InvalidModulus.) -/
theorem test_P4_still_busy : (endOfP4 [[], []]).block.latch.cmd = 0x10600000 ∧
    lookupVar (endOfP4 [[], []]).vars "s" = 0x0000040E ∧ (endOfP4 [[], []]).ended = true := by decide +kernel
/-- P4, column (b): it is done by then. -/
theorem test_P4_already_done : (endOfP4 []).block.latch.cmd = 0 ∧
    lookupVar (endOfP4 []).vars "s" = 0x00000002 ∧ (endOfP4 []).ended = true := by decide +kernel
/-- R244, R246: a loop that only polls STATUS lets the command complete, and the run ends. -/
theorem test_polling_loop_ends :
    (runHost 40 (HostRun.start State.reset
      [.set .cmd 0x10600000, .label "l", .get .status "s", .ifGoto .busy "s" "l"] [[], [], []])).ended = true := by
  decide +kernel
/-- R246, R232: a run whose last command a soft reset ends has no end, though BUSY is 0 and every line is issued. -/
def abortedRun (others : List (List Input)) : HostRun :=
  runHost 30 (HostRun.start State.reset [.set .cmd 0x10600000, .set .ctrl 2] others)
theorem test_aborted_run_has_no_end : (abortedRun [[], []]).here = 2 ∧ (abortedRun [[], []]).block.status.busy = false ∧
    (abortedRun [[], []]).ended = false ∧ (abortedRun []).ended = true := by decide +kernel
/-- R242: a host stalled on its ORAM write goes on once the bytes that a waiting PADENC needs arrive. -/
def stalledHost : HostRun :=
  runHost 30 (HostRun.start (running .padenc 0x20 2 0x40 13 [] zeros) [.mem 0 [0x55]]
    [[.engine], [.rngByte 1, .rngByte 2, .rngByte 3, .rngByte 4], [], [.rngByte 5, .rngByte 6, .rngByte 7, .rngByte 8]])
theorem test_stalled_host : stalledHost.ended = true ∧ stalledHost.block.status.err = false ∧
    stalledHost.block.oram.readBytes 0 1 = [0x55] ∧
    stalledHost.block.oram.readBytes 0x40 11 = [0, 2, 1, 2, 3, 4, 5, 6, 7, 8, 0] := by decide +kernel
/-- R79: the expansion of `modmul`. -/
theorem test_expand_modmul : expandPseudo (.modmul 4 1 2 0) = [.command (.montin 4 1 0), .command (.montmul 4 4 2 0)] := by
  decide

/-! ### Witnesses: states and operands that meet the hypotheses of the statements, clause by clause -/

theorem witness_DecodedWordIsTheEncoding : decode 0x10650000 = .ok (.modexp 3 1 2 0) := by decide
theorem witness_NoWordMatchesTwoRows : ∃ (w : Word) (j k : Fin opRows.length),
    w &&& opRows[j].mask = opRows[j].value ∧ w &&& opRows[k].mask = opRows[k].value :=
  ⟨0x01200000, ⟨1, by decide⟩, ⟨1, by decide⟩, by decide, by decide⟩

theorem witness_StepRunsTheDecodedCommand :
    let s := runningX (.mov 2 7) keyT
    decode s.latch.cmd = .ok (.mov 2 7) ∧ s.rstN = true ∧ s.status.busy = true ∧ s.inputs = [] ∧
      (withInput s .engine).inputs = .engine :: [] := by decide
theorem witness_IllegalWordEndsWithIllegalCommand :
    let s := { runningX .nop zeros with latch := { Latch.clear with cmd := 0xFF000000 } }
    decode s.latch.cmd = .error .unassignedOpcode ∧ s.rstN = true ∧ s.status.busy = true ∧ s.inputs = [] ∧
      (withInput s .engine).inputs = .engine :: [] := by decide

/-- The block idle after reset, with a write of a register waiting. -/
def writeWaits (off : Nat) (d : Word) : State := withInput State.reset (.bus (regWriteAccess State.reset off d))

theorem witness_CmdWriteIsAcceptedOrDropped :
    Listening (writeWaits 0x014 0x20000000) ∧ (writeWaits 0x014 0x20000000).status.busy = false ∧
      (writeWaits 0x014 0x20000000).inputs =
        .bus (regWriteAccess (writeWaits 0x014 0x20000000) 0x014 0x20000000) :: [] :=
  ⟨⟨rfl, .inl rfl⟩, rfl, rfl⟩
theorem witness_CmdWriteIsAcceptedOrDropped_busy :
    let s := withInput (runningX .nop zeros) (.bus (regWriteAccess State.reset 0x014 0))
    (s.rstN = true ∧ (s.held = [] ∨ s.status.busy = true)) ∧ s.status.busy = true ∧ s.inputs = .bus (regWriteAccess s 0x014 0) :: [] := by decide

/-- LDN past the end of the ORAM (V-CV-14). -/
def ldnPastEnd : State := running (.ldn 3) 0xFFF 2 0 0 [] zeros

theorem witness_ErrorsArePrecise : ldnPastEnd.status.err = false ∧
    exec (.ldn 3) ldnPastEnd = .next (ldnPastEnd.raise .rangeError) ∧ (ldnPastEnd.raise .rangeError).status.err = true :=
  ⟨rfl, rfl, rfl⟩
theorem witness_CommandsRaiseOnlyTheirErrors :
    (runningX (.modexp 2 0 0 1) (keyT.set 1 3234)).status.err = false ∧
      exec (.modexp 2 0 0 1) (runningX (.modexp 2 0 0 1) (keyT.set 1 3234)) =
        .next ((runningX (.modexp 2 0 0 1) (keyT.set 1 3234)).raise .invalidModulus) ∧
      ((runningX (.modexp 2 0 0 1) (keyT.set 1 3234)).raise .invalidModulus).status.err = true :=
  ⟨rfl, rfl, rfl⟩
theorem witness_EveryCommandButPadencCompletes : Instr.nop ≠ .padenc ∧ Instr.paddec ≠ .padenc := by decide
theorem witness_NopOnlyCompletes :
    (0x00000000 : Word).toNat / 2 ^ 24 = 0 ∧ (0x00FFFFFF : Word).toNat / 2 ^ 24 = 0 := by decide

/-- LEN just above MAXL; a range one byte past the end; a range that ends at the end (R206). -/
theorem witness_LdnLoadsBigEndian :
    let long := running (.ldn 0) 0 513 0 0 [] zeros
    let past := running (.ldn 0) 0xE01 512 0 0 [] zeros
    let fits := running (.ldn 0) 0xE00 512 0 0 [] zeros
    long.params.maxl < long.latch.len.toNat ∧
      (past.latch.len.toNat ≤ past.params.maxl ∧
        past.params.oramBytes < past.latch.addr0.toNat + past.latch.len.toNat) ∧
      fits.latch.len.toNat ≤ fits.params.maxl ∧
        fits.latch.addr0.toNat + fits.latch.len.toNat ≤ fits.params.oramBytes := by decide
theorem witness_StnStoresCanonicalBytes :
    let long := running (.stn 0) 0 513 0 0 [] keyT
    let past := running (.stn 0) 0 512 0xE01 0 [] keyT
    let fits := running (.stn 0) 0 512 0xE00 0 [] keyT
    long.oram.wf ∧ long.params.maxl < long.latch.len.toNat ∧
      (past.latch.len.toNat ≤ past.params.maxl ∧
        past.params.oramBytes < past.latch.addr1.toNat + past.latch.len.toNat) ∧
      fits.latch.len.toNat ≤ fits.params.maxl ∧
        fits.latch.addr1.toNat + fits.latch.len.toNat ≤ fits.params.oramBytes := by decide

/-- The bytes `0C A1` at offset 0, loaded and stored again at 0x10. -/
def loadT : State := running (.ldn 5) 0 2 0x10 0 (oramAt 0 [0x0C, 0xA1]) keyT

theorem witness_LoadAndStoreAreInverse_load :
    let t := after (exec (.ldn 5) loadT)
    loadT.oram.wf ∧ t.oram.wf ∧ loadT.latch.len.toNat ≤ loadT.params.maxl ∧
      loadT.latch.addr0.toNat + loadT.latch.len.toNat ≤ loadT.params.oramBytes ∧
      answers (exec (.ldn 5) loadT) = true ∧ t.latch.len = loadT.latch.len ∧
      t.latch.addr1.toNat + t.latch.len.toNat ≤ t.params.oramBytes ∧ answers (exec (.stn 5) t) = true := by
  decide +kernel
theorem witness_LoadAndStoreAreInverse_store :
    let t := after (exec (.stn 0) loadT)
    let u := { t with latch := { t.latch with addr0 := 0x10 } }
    loadT.latch.addr1.toNat + loadT.latch.len.toNat ≤ loadT.params.oramBytes ∧
      answers (exec (.stn 0) loadT) = true ∧ u.params = loadT.params ∧ u.latch.len = loadT.latch.len ∧
      u.latch.addr0 = loadT.latch.addr1 ∧ answers (exec (.ldn 1) u) = true := by decide +kernel

theorem witness_BitlenWritesTheBitLength :
    let low := runningX (.bitlen 3) zeros
    let top := runningX (.bitlen 3) (zeros.set 3 (2 ^ 4096 - 1))
    low.params.WellFormed ∧ low.readX 3 = 0 ∧ top.readX 3 ≠ 0 ∧ top.readX 3 < 2 ^ (8 * top.params.maxl) := by
  decide +kernel
theorem witness_BytelenWritesTheByteLength :
    let top := runningX (.bytelen 3) (zeros.set 3 (2 ^ 4096 - 1))
    top.params.WellFormed ∧ top.readX 3 < 2 ^ (8 * top.params.maxl) := by decide +kernel

/-- The modulus at the edges of `ValidMod`: 0, 1 and 2 fail it, 3 meets it. -/
theorem witness_modulus_clauses :
    (runningX .nop (zeros.set 0 0)).readX 0 ≤ 1 ∧ (runningX .nop (zeros.set 0 1)).readX 0 ≤ 1 ∧
      (runningX .nop (zeros.set 0 2)).readX 0 % 2 = 0 ∧
      (runningX .nop (zeros.set 0 3)).readX 0 % 2 = 1 ∧ 1 < (runningX .nop (zeros.set 0 3)).readX 0 := by decide
/-- For n = 3 the radix is 256 and its inverse is 1. -/
theorem witness_MontgomeryCommandsComputeTheirProducts :
    (3 : Nat) % 2 = 1 ∧ 1 < 3 ∧ 0 < 1 ∧ 2 ^ (8 * byteLength 3) * 1 % 3 = 1 := by decide +kernel
theorem witness_MontgomeryRadixHasOneInverse : (3 : Nat) % 2 = 1 ∧ 1 < 3 := by decide
theorem witness_MontgomeryLawsHold : (3233 : Nat) % 2 = 1 ∧ 1 < 3233 := by decide
theorem witness_ModularResultsAreFullyReduced :
    ∀ i ∈ [Instr.modexp 3 1 2 0, .montmul 3 1 2 0, .montin 3 1 0, .montout 3 1 0],
      (runningX i keyT).status.err = false ∧ answers (exec i (runningX i keyT)) = true ∧
        (after (exec i (runningX i keyT))).status.err = false := by decide +kernel

theorem witness_RsaCommandsWriteThePower :
    let long := running (.rsaenc 1 0) 0 513 0 0 [] keyT
    let src := running (.rsaenc 1 0) 0xFFF 2 0 0 [] keyT
    let dst := running (.rsaenc 1 0) 0 2 0xFFF 0 [] keyT
    let fits := running (.rsaenc 1 0) 0xFFE 2 0xFFE 0 [] keyT
    long.oram.wf ∧ long.params.maxl < long.latch.len.toNat ∧
      src.params.oramBytes < src.latch.addr0.toNat + src.latch.len.toNat ∧
      dst.params.oramBytes < dst.latch.addr1.toNat + byteLength (dst.readX 0) ∧
      fits.latch.len.toNat ≤ fits.params.maxl ∧
      fits.latch.addr0.toNat + fits.latch.len.toNat ≤ fits.params.oramBytes ∧
      fits.latch.addr1.toNat + byteLength (fits.readX 0) ≤ fits.params.oramBytes ∧
      fits.readX 0 % 2 = 1 ∧ 1 < fits.readX 0 := by decide +kernel

/-- V-RSA-1's operands. -/
def encT : State := running (.rsaenc 1 0) 0 2 0x10 0 (oramAt 0 [0x00, 0x41]) keyT

theorem witness_PipelineEqualsItsParts :
    let s2 := after (exec (.ldn 5) encT)
    let s4 := after (exec (.modexp 5 5 1 0) s2)
    let s5 := after (exec (.stn 5) s4)
    let r := after (exec (.rsaenc 1 0) encT)
    (5 : XReg) ≠ 1 ∧ (5 : XReg) ≠ 0 ∧ encT.status.err = false ∧ s2.status.err = false ∧ s4.status.err = false ∧
      answers (exec (.rsaenc 1 0) encT) = true ∧ r.status.err = false ∧ answers (exec (.ldn 5) encT) = true ∧
      answers (exec (.modexp 5 5 1 0) s2) = true ∧ s4.latch.len.toNat = byteLength (encT.readX 0) ∧
      s4.latch.addr1 = encT.latch.addr1 ∧ answers (exec (.stn 5) s4) = true ∧ s5.status.err = false := by
  decide +kernel

/-- RSAENC then RSADEC with the primes 3 and 11, e = 3, d = 7 and the one-byte input 2. -/
def encSmall : State := running (.rsaenc 1 0) 0 1 0x10 0 (oramAt 0 [0x02]) #v[33, 3, 7, 0, 0, 0, 0, 0]

theorem witness_RsadecInvertsRsaenc :
    let t := after (exec (.rsaenc 1 0) encSmall)
    let u := { t with latch := { t.latch with addr0 := 0x10, addr1 := 0x20 } }
    let v := after (exec (.rsadec 2 0) u)
    (3 ≠ 11) ∧ encSmall.oram.wf ∧ encSmall.readX 0 = 3 * 11 ∧
      encSmall.readX 1 * encSmall.readX 2 % ((3 - 1) * (11 - 1)) = 1 % ((3 - 1) * (11 - 1)) ∧
      encSmall.aLen = byteLength (3 * 11) ∧ beValue encSmall.sourceBytes < 3 * 11 ∧
      encSmall.status.err = false ∧ answers (exec (.rsaenc 1 0) encSmall) = true ∧ t.status.err = false ∧
      u.x = encSmall.x ∧ u.params = encSmall.params ∧ u.latch.addr0 = encSmall.latch.addr1 ∧
      u.latch.len = encSmall.latch.len ∧ u.status.err = false ∧ answers (exec (.rsadec 2 0) u) = true ∧
      v.status.err = false := by decide +kernel
theorem witness_primes : Nat.Prime 3 ∧ Nat.Prime 11 := by decide

/-- V-PE-1 with one byte more; and V-PE-3, the shortest padding. -/
def padPE1 : State :=
  { running .padenc 0x20 2 0x40 16 (oramAt 0x20 [0x48, 0x49]) zeros with rng := rngPE1 ++ [0x77] }

theorem witness_PadencWritesThePaddedBlock :
    padPE1.oram.wf ∧ padPE1.latch.len.toNat ≤ padPE1.params.maxl ∧ padPE1.latch.klen.toNat ≤ padPE1.params.maxl ∧
      padPE1.latch.addr0.toNat + padPE1.latch.len.toNat ≤ padPE1.params.oramBytes ∧
      padPE1.latch.addr1.toNat + padPE1.latch.klen.toNat ≤ padPE1.params.oramBytes ∧
      padPE1.latch.len.toNat + 11 ≤ padPE1.latch.klen.toNat ∧ padPE1.rng = rngPE1 ++ [0x77] ∧
      rngPE1.getLast? ≠ some 0#8 ∧
      padPE1.ps.length + (rngPE1.filter (· ≠ 0#8)).length =
        padPE1.latch.klen.toNat - padPE1.latch.len.toNat - 3 ∧ padPE1.psOk := by decide
theorem witness_PadencWritesThePaddedBlock_shortest :
    let s := { running .padenc 0xFFB 5 0xFF0 16 [] zeros with rng := [0x11, 0x22, 0x33, 0x44, 0x55, 0x66, 0x77, 0x88] }
    s.oram.wf ∧ s.latch.len.toNat ≤ s.params.maxl ∧ s.latch.klen.toNat ≤ s.params.maxl ∧
      s.latch.addr0.toNat + s.latch.len.toNat ≤ s.params.oramBytes ∧
      s.latch.addr1.toNat + s.latch.klen.toNat ≤ s.params.oramBytes ∧
      s.latch.len.toNat + 11 ≤ s.latch.klen.toNat ∧ s.rng.getLast? ≠ some 0#8 ∧
      s.ps.length + (s.rng.filter (· ≠ 0#8)).length = s.latch.klen.toNat - s.latch.len.toNat - 3 := by decide
theorem witness_PadencWaitsForPaddingBytes :
    let s := { running .padenc 0x20 2 0x40 16 [] zeros with rng := [0x00, 0x5A] }
    s.latch.len.toNat ≤ s.params.maxl ∧ s.latch.klen.toNat ≤ s.params.maxl ∧
      s.latch.addr0.toNat + s.latch.len.toNat ≤ s.params.oramBytes ∧
      s.latch.addr1.toNat + s.latch.klen.toNat ≤ s.params.oramBytes ∧
      s.latch.len.toNat + 11 ≤ s.latch.klen.toNat ∧
      s.ps.length + (s.rng.filter (· ≠ 0#8)).length < s.latch.klen.toNat - s.latch.len.toNat - 3 := by decide
theorem witness_PadencRaisesInOrder :
    let len := running .padenc 0 513 0 16 [] zeros
    let klen := running .padenc 0 0 0 513 [] zeros
    let src := running .padenc 0xFFF 2 0 16 [] zeros
    let dst := running .padenc 0 2 0xFF1 16 [] zeros
    let long := running .padenc 0 6 0 16 [] zeros
    len.params.maxl < len.latch.len.toNat ∧ klen.params.maxl < klen.latch.klen.toNat ∧
      src.params.oramBytes < src.latch.addr0.toNat + src.latch.len.toNat ∧
      dst.params.oramBytes < dst.latch.addr1.toNat + dst.latch.klen.toNat ∧
      src.latch.len.toNat ≤ src.params.maxl ∧ src.latch.klen.toNat ≤ src.params.maxl ∧
      dst.latch.len.toNat ≤ dst.params.maxl ∧ dst.latch.klen.toNat ≤ dst.params.maxl ∧
      long.latch.len.toNat ≤ long.params.maxl ∧ long.latch.klen.toNat ≤ long.params.maxl ∧
      long.latch.klen.toNat < long.latch.len.toNat + 11 ∧
      long.latch.addr0.toNat + long.latch.len.toNat ≤ long.params.oramBytes ∧
      long.latch.addr1.toNat + long.latch.klen.toNat ≤ long.params.oramBytes := by decide

/-- The block of V-PD-1 and its tampered forms; the separator at the first and at the last place. -/
theorem witness_PaddecExtractsTheMessage_errors :
    let len := running .paddec 0 513 0 16 [] zeros
    let dst := running .paddec 0 16 0xFF1 16 [] zeros
    let uneven := running .paddec 0 16 0x100 15 (oramAt 0 blockPE1) zeros
    let short := running .paddec 0 1 0x100 1 [] zeros
    let first := running .paddec 0 2 0x100 2 (oramAt 0 [0x01, 0x02]) zeros
    let second := running .paddec 0 2 0x100 2 (oramAt 0 [0x00, 0x01]) zeros
    len.oram.wf ∧ len.params.maxl < len.latch.len.toNat ∧
      dst.latch.len.toNat ≤ dst.params.maxl ∧ dst.latch.klen.toNat ≤ dst.params.maxl ∧
      dst.params.oramBytes < dst.latch.addr1.toNat + dst.latch.klen.toNat ∧
      (∀ s ∈ [uneven, short, first, second], s.oram.wf ∧ s.latch.len.toNat ≤ s.params.maxl ∧
        s.latch.klen.toNat ≤ s.params.maxl ∧ s.latch.addr0.toNat + s.latch.len.toNat ≤ s.params.oramBytes ∧
        s.latch.addr1.toNat + s.latch.klen.toNat ≤ s.params.oramBytes) ∧
      uneven.latch.len ≠ uneven.latch.klen ∧ short.latch.len.toNat < 2 ∧
      first.oram.read first.latch.addr0.toNat ≠ 0#8 ∧ second.oram.read (second.latch.addr0.toNat + 1) ≠ 2#8 := by
  decide
/-- A two-byte block has no index from 2 on, so no separator. -/
theorem witness_PaddecExtractsTheMessage_none :
    let s := running .paddec 0 2 0x100 2 (oramAt 0 [0x00, 0x02]) zeros
    ∀ j, 2 ≤ j → j < s.latch.len.toNat → s.oram.read (s.latch.addr0.toNat + j) ≠ 0#8 :=
  fun _ h h' => absurd h' (Nat.not_lt.2 h)
theorem witness_PaddecExtractsTheMessage_success :
    let s := running .paddec 0 4 0x100 4 (oramAt 0 [0x00, 0x02, 0x00, 0x41]) zeros
    let e := running .paddec 0 4 0xFFC 4 (oramAt 0 [0x00, 0x02, 0x41, 0x00]) zeros
    (∀ v ∈ [s, e], v.oram.wf ∧ v.latch.len.toNat ≤ v.params.maxl ∧ v.latch.klen.toNat ≤ v.params.maxl ∧
      v.latch.addr0.toNat + v.latch.len.toNat ≤ v.params.oramBytes ∧
      v.latch.addr1.toNat + v.latch.klen.toNat ≤ v.params.oramBytes) ∧
    (s.latch.len = s.latch.klen ∧ s.oram.read s.latch.addr0.toNat = 0#8 ∧
      s.oram.read (s.latch.addr0.toNat + 1) = 2#8 ∧ 2 < s.latch.len.toNat ∧
      s.oram.read (s.latch.addr0.toNat + 2) = 0#8) ∧
    (e.latch.len = e.latch.klen ∧ e.oram.read e.latch.addr0.toNat = 0#8 ∧
      e.oram.read (e.latch.addr0.toNat + 1) = 2#8 ∧ 3 < e.latch.len.toNat ∧
      e.oram.read (e.latch.addr0.toNat + 3) = 0#8 ∧ e.oram.read (e.latch.addr0.toNat + 2) ≠ 0#8) := by decide

theorem witness_PaddecInvertsPadenc :
    let t := after (exec .padenc padPE1)
    let u := { t with
      latch := { t.latch with addr0 := 0x40, len := 16, addr1 := 0x100 }
      oram := t.oram.write 0x50 0xFF }
    padPE1.oram.wf ∧ padPE1.psOk ∧ padPE1.status.busy = true ∧ padPE1.status.err = false ∧
      answers (exec .padenc padPE1) = true ∧ t.status.busy = false ∧ t.status.err = false ∧
      u.oram.wf ∧ (∀ a < 16, u.oram.read (padPE1.aAddr1 + a) = t.oram.read (padPE1.aAddr1 + a)) ∧ u.oram ≠ t.oram ∧
      padPE1.aAddr1 = 0x40 ∧ padPE1.aKlen = 16 ∧ u.params = padPE1.params ∧
      u.latch.addr0 = padPE1.latch.addr1 ∧ u.latch.len = padPE1.latch.klen ∧
      u.latch.klen = padPE1.latch.klen ∧ u.latch.addr1.toNat + u.latch.klen.toNat ≤ u.params.oramBytes := by
  decide +kernel
/-- The key K has 16 bytes, as the block of V-PE-1. -/
theorem witness_PaddedBlockIsBelowTheModulus :
    byteLength 0xA800000000000012A000000000000055 = padPE1.aKlen := by decide +kernel

theorem witness_CommandsChangeOnlyTheirDestinations :
    encT.oram.wf ∧ encT.psOk ∧ answers (exec (.rsaenc 1 0) encT) = true ∧ ¬ mayWriteX (.rsaenc 1 0) 3 ∧
      (after (exec (.rsaenc 1 0) encT)).res ≠ encT.res := by
  refine ⟨by decide, by decide, by decide +kernel, fun h => h, by decide +kernel⟩
theorem witness_CommandsChangeOnlyTheirDestinations_oram :
    ¬ mayWriteOram encT (.rsaenc 1 0) 0x0F ∧ ¬ mayWriteOram encT (.rsaenc 1 0) 0x12 :=
  ⟨fun h => absurd h.1 (by decide), fun h => absurd h.2 (by decide +kernel)⟩
theorem witness_CommandsChangeOnlyTheirDestinations_flags_rng :
    let s := runningX (.cmp 0 1) keyT
    (after (exec (.cmp 0 1) s)).flags ≠ s.flags ∧ (after (exec .padenc padPE1)).rng ≠ padPE1.rng := by decide +kernel
theorem witness_FlagsHaveOneWriterEach :
    ldnPastEnd.status.err = false ∧ answers (exec (.ldn 3) ldnPastEnd) = true ∧
      (∀ a b, Instr.ldn 3 ≠ .cmp a b) ∧ (∀ a, Instr.ldn 3 ≠ .stn a) ∧
      (after (exec (.ldn 3) ldnPastEnd)).status.err = true :=
  ⟨rfl, rfl, fun _ _ => Instr.noConfusion, fun _ => Instr.noConfusion, rfl⟩

/-- A running PADENC that has drawn one byte, with an access held: in the invariant, and it can step. -/
def midPadenc : State :=
  { running .padenc 0x20 2 0x40 16 (oramAt 0x20 [0x48, 0x49]) zeros with
    ps := [0x5A], held := [⟨0x1000, .word, none⟩], inputs := [.rngByte 0xA5] }

theorem witness_StepKeepsTheInvariant : midPadenc.Inv ∧ answers (step midPadenc) = true := by
  refine ⟨⟨by decide, fun i => ?_, by decide, by decide, by decide, by decide, by decide, by decide⟩, by decide⟩
  have : midPadenc.readX i = 0 := by revert i; decide
  rw [this]; exact Nat.two_pow_pos _
theorem witness_StepKeepsTheParameters : answers (step midPadenc) = true := by decide
theorem witness_MemoriesThatReadAlikeAreEqual : Memory.wf [(3, 7#8)] ∧ Memory.wf [(3, 7#8)] ∧
    ∀ a, Memory.read [(3, 7#8)] a = Memory.read [(3, 7#8)] a := ⟨by decide, by decide, fun _ => rfl⟩

theorem witness_SoftResetClearsTheRegisters :
    Listening (writeWaits 0x00C 3) ∧ (3 : Word)[1] = true ∧
      (writeWaits 0x00C 3).inputs = .bus (regWriteAccess (writeWaits 0x00C 3) 0x00C 3) :: [] ∧
      (writeWaits 0x00C 3).status.busy = false := ⟨⟨rfl, .inl rfl⟩, rfl, rfl, rfl⟩
/-- V-RST-2's MODEXP aborted. -/
theorem witness_AbortTouchesOnlyTheDestination :
    let s := withInput (runningX (.modexp 3 1 2 0) keyT) (.bus (regWriteAccess State.reset 0x00C 2))
    s.rstN = true ∧ s.status.busy = true ∧ s.oram.wf ∧ (2 : Word)[1] = true ∧
      s.inputs = .bus (regWriteAccess s 0x00C 2) :: [] ∧ answers (step s) = true ∧
      decode s.latch.cmd = .ok (.modexp 3 1 2 0) := by decide +kernel
theorem witness_AbortTouchesOnlyTheDestination_clauses :
    ¬ mayWriteX (.modexp 3 1 2 0) 2 ∧ mayWriteX (.modexp 3 1 2 0) 3 ∧ ¬ mayWriteOram encT (.stn 0) 0x12 :=
  ⟨fun h => absurd (show (2 : XReg) = 3 from h) (by decide), rfl, fun h => absurd h.2 (by decide)⟩
/-- An LDN that would raise, and an illegal word, aborted. -/
theorem witness_AbortTouchesOnlyTheDestination_errors :
    decode ldnPastEnd.latch.cmd = .ok (.ldn 3) ∧ exec (.ldn 3) ldnPastEnd = .next (ldnPastEnd.raise .rangeError) ∧
      (ldnPastEnd.raise .rangeError).status.err = true ∧ decode 0xFF000000 = .error .unassignedOpcode :=
  ⟨by decide, rfl, rfl, by decide⟩
theorem witness_PowerOnResetClearsTheRegisters :
    (withInput midPadenc (.rstPin false)).inputs = .rstPin false :: [] ∧
      (withInput midPadenc (.rstPin true)).inputs = .rstPin true :: [] := ⟨rfl, rfl⟩

/-- The block held in reset. -/
def inReset : State := { State.reset with rstN := false }

theorem witness_NothingRunsInReset : inReset.rstN = false ∧ inReset.held = [] ∧
    (withInput inReset (.bus ⟨0x010, .word, none⟩)).inputs = .bus ⟨0x010, .word, none⟩ :: [] ∧
    (withInput inReset .engine).inputs = .engine :: [] ∧ inReset.inputs = [] := ⟨rfl, rfl, rfl, rfl, rfl⟩
theorem witness_IdleEngineDoesNothing : State.reset.status.busy = false ∧ State.reset.held = [] ∧
    State.reset.inputs = [] ∧ (withInput State.reset .engine).inputs = .engine :: [] := ⟨rfl, rfl, rfl, rfl⟩

/-- A read of each register from 0x000 to 0x02C. -/
theorem witness_RegisterReadsReturnTheFields :
    ∀ off ∈ [0x000, 0x004, 0x008, 0x00C, 0x010, 0x014, 0x018, 0x01C, 0x020, 0x024, 0x028, 0x02C],
      let s := withInput midPadenc (.bus (regReadAccess midPadenc off))
      s.rstN = true ∧ s.status.busy = true ∧ off ≤ 0x02C ∧ off % 4 = 0 ∧
        s.inputs = .bus (regReadAccess s off) :: [] := by decide
/-- A write of each register, all bits set. -/
theorem witness_register_writes :
    ∀ off ∈ [0x000, 0x004, 0x008, 0x00C, 0x010, 0x014, 0x018, 0x01C, 0x020, 0x024, 0x028, 0x02C],
      (writeWaits off 0xFFFFFFFF).rstN = true ∧ (writeWaits off 0xFFFFFFFF).held = [] ∧
        (writeWaits off 0xFFFFFFFF).inputs =
          .bus (regWriteAccess (writeWaits off 0xFFFFFFFF) off 0xFFFFFFFF) :: [] := by decide
theorem witness_CtrlAndReadOnlyWrites : (1 : Word)[1] = false ∧ (0xFFFFFFFD : Word)[1] = false := by decide

/-- One access per disjunct, at the edges of the parts of the window (R52). -/
theorem witness_BusErrorsChangeNothing :
    let p := Params.default
    (∀ a ∈ [(⟨0xFFC, .half, none⟩ : BusAccess), ⟨0x02E, .word, none⟩],
      (withInput State.reset (.bus a)).rstN = true ∧ (withInput State.reset (.bus a)).held = [] ∧
        (withInput State.reset (.bus a)).inputs = .bus a :: [] ∧
        p.base ≤ a.addr ∧ a.addr < p.base + 0x10000 ∧ a.addr - p.base < 0x1000 ∧
        (a.size ≠ .word ∨ (a.addr - p.base) % 4 ≠ 0)) ∧
    (∀ a ∈ [(⟨0x1001, .half, none⟩ : BusAccess), ⟨0x1FFE, .word, some 0⟩, ⟨0x2001, .half, none⟩, ⟨0xFFFE, .word, none⟩],
      a.addr < p.base + 0x10000 ∧ 0x1000 ≤ a.addr - p.base ∧ (a.addr - p.base) % a.size.bytes ≠ 0) ∧
    State.reset.params = p ∧ State.reset.status.busy = false ∧ 0x1000 + p.oramBytes ≤ 0x2001 - p.base := by decide
theorem witness_ReservedSpaceReadsZero :
    let p := Params.default
    (∀ a ∈ [(⟨0x030, .word, none⟩ : BusAccess), ⟨0xFFC, .word, some 0xFFFFFFFF⟩],
      (withInput State.reset (.bus a)).rstN = true ∧ (withInput State.reset (.bus a)).held = [] ∧
        (withInput State.reset (.bus a)).inputs = .bus a :: [] ∧
        0x0030 ≤ a.addr - p.base ∧ a.addr - p.base < 0x1000 ∧ a.size = .word ∧ (a.addr - p.base) % 4 = 0) ∧
    (∀ a ∈ [(⟨0x2000, .byte, none⟩ : BusAccess), ⟨0xFFFC, .word, some 0xFFFFFFFF⟩],
      p.base ≤ a.addr ∧ a.addr < p.base + 0x10000 ∧ 0x1000 + p.oramBytes ≤ a.addr - p.base ∧
        (a.addr - p.base) % a.size.bytes = 0) := by decide
theorem witness_ReadsHaveNoSideEffect :
    let s := withInput midPadenc (.bus ⟨0x1FFC, .word, none⟩)
    s.rstN = true ∧ s.status.busy = true ∧ s.inputs = .bus ⟨0x1FFC, .word, none⟩ :: [] ∧
      s.params.base ≤ 0x1FFC ∧ 0x1FFC < s.params.base + 0x10000 := by decide
/-- The last byte, half-word and word of the ORAM, read and written. -/
theorem witness_ByteLanesAreLittleEndian :
    State.reset.params.WellFormed ∧ State.reset.oram.wf ∧ State.reset.status.busy = false ∧
    ∀ c ∈ [(AccessSize.byte, 4095), (.half, 4094), (.word, 4092)],
      c.2 % c.1.bytes = 0 ∧ c.2 + c.1.bytes ≤ State.reset.params.oramBytes ∧
      (withInput State.reset (.bus ⟨State.reset.params.base + 0x1000 + c.2, c.1, none⟩)).inputs =
        .bus ⟨State.reset.params.base + 0x1000 + c.2, c.1, none⟩ :: [] := by decide
/-- Held at the end of the ORAM: reads and writes of each width, aligned and not. -/
theorem witness_OramAccessWaitsOutBusy :
    ∀ c ∈ [((⟨0x1FFC, .word, none⟩ : BusAccess), 0xFFC, 0), (⟨0x1FFE, .half, some 0x1234⟩, 0xFFE, 0),
        (⟨0x1FFF, .byte, some 0xFF⟩, 0xFFF, 0), (⟨0x1FFF, .half, none⟩, 0xFFF, 1),
        (⟨0x1FFD, .word, some 0⟩, 0xFFD, 1), (⟨0x1000, .word, some 1⟩, 0, 0)],
      let s := withInput midPadenc (.bus c.1)
      let t := { State.reset with held := [c.1] }
      s.params.WellFormed ∧ s.oram.wf ∧ s.rstN = true ∧ c.1.addr = s.params.base + 0x1000 + c.2.1 ∧
        c.2.1 < s.params.oramBytes ∧ s.status.busy = true ∧ s.inputs = .bus c.1 :: [] ∧
        t.params = s.params ∧ t.oram.wf ∧ t.rstN = true ∧ t.status.busy = false ∧ t.held = c.1 :: [] ∧ t.inputs = [] ∧
        c.2.1 % c.1.size.bytes = c.2.2 := by decide
/-- V-BUS-4 on a held write: its lanes are stored once BUSY is 0. -/
theorem test_held_write : ((after (step { State.reset with held := [⟨0x1000, .word, some 0x11223344⟩] })).oram.readBytes 0 5)
    = [0x44, 0x33, 0x22, 0x11, 0x00] := by decide
theorem witness_ResultsAppearAtCompletion :
    midPadenc.status.busy = true ∧ answers (step midPadenc) = true ∧ (after (step midPadenc)).status.busy = true := by
  decide
theorem witness_BusCannotReachTheXRegisters :
    let s := withInput State.reset (.bus ⟨0x028, .word, none⟩)
    s.rstN = true ∧ s.held = [] ∧ s.inputs = .bus ⟨0x028, .word, none⟩ :: [] ∧ answers (step s) = true ∧
      answers (step { s with x := keyT }) = true ∧ s.status.busy = false := by decide
theorem witness_InterruptIsCleared :
    (∀ c ∈ [(0x010, (0x0000000A : Word)), (0x014, 0), (0x00C, 0)], answers (step (writeWaits c.1 c.2)) = true) ∧
      (0x0000000A : Word)[1] = true ∧ (0x0000000A : Word)[3] = true ∧ (0 : Word)[0] = false ∧
      State.reset.status.ovr = false := by decide +kernel
theorem witness_InterruptIsCleared_pin : ∃ t, step (withInput State.reset (.rstPin false)) = .next t := ⟨_, rfl⟩
theorem witness_RngBytesAreTakenOnlyWhenReady :
    midPadenc.status.busy = true ∧ (withInput midPadenc (.rngByte 0x33)).inputs = .rngByte 0x33 :: [] ∧
    answers (step { midPadenc with inputs := [], rng := [0x33] }) = true ∧
      (after (step { midPadenc with inputs := [], rng := [0x33] })).rng = [] ∧
      { midPadenc with inputs := [], rng := [0x33] }.rngReady = true := by decide

end Sys2Proof.Tests
end

/-! PROOFS. The invariant of the block: each operation of the model keeps it, so every step does; and no step
changes the parameters. -/

namespace Sys2Proof.Machine

open Sys2Proof

/-! ### Inversion: what a step and an arriving access can do -/

/-- All a step that answers a next state can do: perform the oldest held access, give the engine its turn, let a
bus access arrive, take in an RNG byte, or sample the reset pin (R200). -/
theorem step_next_cases {s t : State} (h : step s = .next t) :
    (∃ a rest, s.held = a :: rest ∧ s.status.busy = false ∧
        t = State.performAccess { s with answer := none, held := rest } a) ∨
      ((s.inputs = [] ∨ s.inputs.head? = some .engine) ∧
        engineTurn { s with answer := none, inputs := s.inputs.tail } = .next t) ∨
      (∃ a rest, s.inputs = .bus a :: rest ∧ busArrives { s with answer := none, inputs := rest } a = .next t) ∨
      (∃ b rest, s.inputs = .rngByte b :: rest ∧
        t = { s with answer := none, inputs := rest, rng := s.rng ++ [b] }) ∨
      (∃ level rest, s.inputs = .rstPin level :: rest ∧
        t = State.samplePin { s with answer := none, inputs := rest } level) := by
  rcases step_cases (s := s) with ⟨a, rest, hheld, hbusy, hstep⟩ | hstep
  · exact .inl ⟨a, rest, hheld, hbusy, Host.Outcome.next.inj (h.symm.trans hstep)⟩
  right
  rw [hstep] at h
  match hin : s.inputs with
  | [] => simp only [inputMove, hin] at h; exact .inl ⟨.inl rfl, by rw [← h]; congr⟩
  | .engine :: rest => simp only [inputMove, hin] at h; exact .inl ⟨.inr rfl, h⟩
  | .bus a :: rest => simp only [inputMove, hin] at h; exact .inr (.inl ⟨a, rest, rfl, h⟩)
  | .rngByte b :: rest =>
    simp only [inputMove, hin] at h
    exact .inr (.inr (.inl ⟨b, rest, rfl, (Host.Outcome.next.inj h).symm⟩))
  | .rstPin level :: rest =>
    simp only [inputMove, hin] at h
    exact .inr (.inr (.inr ⟨level, rest, rfl, (Host.Outcome.next.inj h).symm⟩))

/-- All an access that arrives can do: out of reset and inside the window it is held or performed (R58, R59). -/
theorem busArrives_next_cases {s t : State} {a : BusAccess} (h : busArrives s a = .next t) :
    s.rstN = true ∧ inWindow s.params a.addr = true ∧
      ((s.holds a = true ∧ t = { s with held := s.held ++ [a] }) ∨
        (s.holds a = false ∧ t = s.performAccess a)) := by
  unfold busArrives at h
  split_ifs at h with hreset hwindow hholds <;> refine ⟨by simpa using hreset, by simpa using hwindow, ?_⟩
  · exact .inl ⟨hholds, (Host.Outcome.next.inj h).symm⟩
  · exact .inr ⟨by simpa using hholds, (Host.Outcome.next.inj h).symm⟩

/-- All a performed access can do: answer and change nothing else, or answer and write (R55, R57). -/
theorem State.performAccess_cases (s : State) (a : BusAccess) :
    ∃ answer, s.performAccess a = { s with answer := answer } ∨
      ∃ d, a.wdata = some d ∧ s.performAccess a = { s.accessWrite a d with answer := answer } := by
  unfold State.performAccess
  split
  · split
    · exact ⟨_, .inl rfl⟩
    · exact ⟨_, .inr ⟨_, ‹_›, rfl⟩⟩
  · exact ⟨_, .inl rfl⟩

/-- All a write access can do: write a register, write ORAM, or nothing in the reserved space (R52). -/
theorem State.accessWrite_cases (s : State) (a : BusAccess) (d : Word) :
    s.accessWrite a d = s.writeReg (busOffset s.params a) d ∨
      s.accessWrite a d = s.busWrite (oramOffset (busOffset s.params a)) d a.size.bytes ∨
      s.accessWrite a d = s := by
  unfold State.accessWrite
  cases hregion : regionOf s.params (busOffset s.params a) with
  | regs => exact .inl (by simp only [hregion])
  | oram => exact .inr (.inl (by simp only [hregion]))
  | above => exact .inr (.inr (by simp only [hregion]))

/-! ### ORAM destinations -/

/-- A command whose checks pass has its destination inside the ORAM (R206, R233). -/
theorem destOram_inside {s : State} {i : Instr} {a k : Nat} (hd : destOram s i = some (a, k))
    (hc : checkError s i = none) : a + k ≤ s.params.oramBytes := by
  cases i <;> simp only [destOram, reduceCtorEq, Option.some.injEq, Prod.mk.injEq] at hd <;>
    obtain ⟨rfl, rfl⟩ := hd
  case stn => exact (stnError_eq_none.1 hc).2
  case padenc => exact (padencError_eq_none.1 hc).2.1.2
  case paddec => exact (paddecError_eq_none.1 hc).2.1.2
  case rsaenc => exact (rsaError_eq_none.1 hc).2.1.2
  case rsadec => exact (rsaError_eq_none.1 hc).2.1.2

/-- The message of a block is no longer than the block. -/
theorem length_paddedMessage_le (block : List Byte) : (paddedMessage block).length ≤ block.length := by
  unfold paddedMessage
  split <;> simp

@[simp] theorem length_sourceBytes (s : State) : s.sourceBytes.length = s.aLen := by simp [State.sourceBytes]

/-! ### Flags -/

theorem Flags.ok_compare (f : Flags) (a b : Nat) : (f.compare a b).ok := by
  rcases Nat.lt_trichotomy a b with h | h | h
  · simp [Flags.ok, Flags.compare, h, h.ne, h.not_gt]
  · simp [Flags.ok, Flags.compare, h]
  · simp [Flags.ok, Flags.compare, h, h.ne', h.not_gt]

/-! ### The invariant under each operation of the state -/

section Operations

variable {s : State}

theorem State.inv_writeX (h : s.Inv) (i : XReg) {v : Nat} (hv : v < 2 ^ s.params.width) : (s.writeX i v).Inv := by
  obtain ⟨hp, hx, hrest⟩ := h
  exact ⟨hp, State.xOk_writeX hx hv, hrest⟩

theorem State.inv_freeX (h : s.Inv) (i : XReg) : (s.freeX i).Inv := by
  obtain ⟨hp, hx, hrest⟩ := h
  exact ⟨hp, State.xOk_freeX hx i, hrest⟩

theorem State.inv_writeOram (h : s.Inv) {a : Nat} {bs : List Byte}
    (hr : bs = [] ∨ a + bs.length ≤ s.params.oramBytes) : (s.writeOram a bs).Inv := by
  obtain ⟨hp, hx, ho, hrest⟩ := h
  exact ⟨hp, hx, State.oramOk_writeOram ho hr, hrest⟩

theorem State.inv_freeOram (h : s.Inv) {a k : Nat} (hr : a + k ≤ s.params.oramBytes) : (s.freeOram a k).Inv := by
  obtain ⟨hp, hx, ho, hrest⟩ := h
  exact ⟨hp, hx, State.oramOk_freeOram ho hr, hrest⟩

theorem State.inv_writeRes (h : s.Inv) (v : Nat) : (s.writeRes v).Inv := h

theorem State.inv_writeFlags (h : s.Inv) {f : Flags} (hf : f.ok) : (s.writeFlags f).Inv := by
  obtain ⟨hp, hx, ho, hs, -, hrest⟩ := h
  exact ⟨hp, hx, ho, hs, hf, hrest⟩

/-- Out of reset, STATUS may change to any consistent value that keeps BUSY. -/
theorem State.inv_status (h : s.Inv) (hr : s.rstN = true) {st : Status} (hst : st.ok)
    (hb : st.busy = s.status.busy) : State.Inv { s with status := st } := by
  obtain ⟨hp, hx, ho, -, hf, ⟨hnz, hps⟩, -, hheld⟩ := h
  exact ⟨hp, hx, ho, hst, hf, ⟨hnz, hps.imp_right (.imp_left hb.trans)⟩, fun h0 => by simp [hr] at h0, hheld⟩

/-- Out of reset, dropping the drawn padding bytes frees STATUS and the latches to change (R26). -/
theorem State.inv_lifecycle (h : s.Inv) (hr : s.rstN = true) {st : Status} (hst : st.ok) (l : Latch) :
    State.Inv { s with latch := l, status := st, ps := [] } := by
  obtain ⟨hp, hx, ho, -, hf, -, -, hheld⟩ := h
  exact ⟨hp, hx, ho, hst, hf, ⟨by simp, .inl rfl⟩, fun h0 => by simp [hr] at h0, hheld⟩

theorem State.inv_accept (h : s.Inv) (hr : s.rstN = true) (w : Word) : (s.accept w).Inv :=
  State.inv_lifecycle (st := (s.accept w).status) h hr ⟨by simp, by simp⟩ (s.accept w).latch

theorem State.inv_complete (h : s.Inv) (hr : s.rstN = true) : s.complete.Inv := by
  obtain ⟨-, -, -, ⟨-, herr⟩, -⟩ := id h
  exact State.inv_lifecycle (st := s.complete.status) h hr ⟨by simp, herr⟩ s.latch

theorem State.inv_raise (h : s.Inv) (hr : s.rstN = true) {e : ECode} (he : e ≠ .none) : (s.raise e).Inv :=
  State.inv_lifecycle (st := (s.raise e).status) h hr ⟨by simp, fun _ => he⟩ s.latch

theorem State.inv_writeStatus (h : s.Inv) (hr : s.rstN = true) (d : Word) : (s.writeStatus d).Inv := by
  obtain ⟨-, -, -, ⟨hbusy, herr⟩, -⟩ := id h
  refine State.inv_status h hr ⟨fun hb => ?_, fun he => herr ?_⟩ rfl
  · obtain ⟨hdone, her, hcode⟩ := hbusy hb
    simp [hdone, her, hcode]
  · simp only [Bool.and_eq_true] at he
    exact he.1

theorem State.inv_ie (h : s.Inv) (hr : s.rstN = true) (b : Bool) : State.Inv { s with ie := b } := by
  obtain ⟨hp, hx, ho, hs, hf, hps, -, hheld⟩ := h
  exact ⟨hp, hx, ho, hs, hf, hps, fun h0 => by simp [hr] at h0, hheld⟩

theorem Status.ok_clear : Status.clear.ok := by decide

theorem Flags.ok_clear : Flags.clear.ok := by decide

/-! ### The invariant under the resets -/

theorem State.inv_resetMmio (h : s.Inv) : s.resetMmio.Inv := by
  obtain ⟨hp, hx, ho, -, -, -, hpin, hheld⟩ := h
  refine ⟨hp, hx, ho, Status.ok_clear, Flags.ok_clear, ⟨by simp, .inl rfl⟩, fun h0 => ?_, hheld⟩
  obtain ⟨-, -, -, -, hnone⟩ := hpin h0
  exact ⟨rfl, rfl, rfl, rfl, hnone⟩

theorem State.inv_abort (h : s.Inv) : s.abort.Inv := by
  unfold State.abort
  split
  · split
    · exact h
    · rename_i i hi
      split
      · exact h
      · rename_i hc
        have hc : checkError s i = none := by simpa using hc
        unfold State.abortDest
        split
        · exact State.inv_freeX h _
        · split
          · exact State.inv_freeOram h (destOram_inside ‹_› hc)
          · exact h
  · exact h

theorem State.inv_softReset (h : s.Inv) : s.softReset.Inv := State.inv_resetMmio (State.inv_abort h)

theorem State.inv_foldl_freeX (h : s.Inv) (l : List XReg) : (l.foldl State.freeX s).Inv := by
  induction l generalizing s with
  | nil => exact h
  | cons i l ih => exact ih (State.inv_freeX h i)

theorem State.inv_powerOn (h : s.Inv) : s.powerOn.Inv := by
  obtain ⟨hp, hx, -⟩ := h
  have ht : State.Inv { s.resetMmio with
      xWritten := Vector.replicate 8 false, oram := [], held := [], rstN := false } :=
    ⟨hp, hx, ⟨Memory.wf_nil, by simp⟩, Status.ok_clear, Flags.ok_clear, ⟨by simp, .inl rfl⟩,
      fun _ => ⟨rfl, rfl, rfl, rfl, rfl⟩, nofun⟩
  refine State.inv_freeOram (State.inv_foldl_freeX ht _) ?_
  rw [State.foldl_freeX_eq]
  simp

theorem State.inv_samplePin (h : s.Inv) (level : Bool) : (s.samplePin level).Inv := by
  cases level with
  | false => exact State.inv_powerOn h
  | true =>
    obtain ⟨hp, hx, ho, hs, hf, hps, -, hheld⟩ := h
    exact ⟨hp, hx, ho, hs, hf, hps, nofun, hheld⟩

/-! ### The invariant under the bus -/

theorem State.inv_writeCtrl (h : s.Inv) (hr : s.rstN = true) (d : Word) : (s.writeCtrl d).Inv := by
  unfold State.writeCtrl
  split
  · exact State.inv_softReset (State.inv_ie h hr _)
  · exact State.inv_ie h hr _

theorem State.inv_writeCmd (h : s.Inv) (hr : s.rstN = true) (w : Word) : (s.writeCmd w).Inv := by
  obtain ⟨-, -, -, hs, -⟩ := id h
  unfold State.writeCmd
  split
  · exact State.inv_status h hr hs rfl
  · exact State.inv_accept h hr w

theorem State.inv_writeReg (h : s.Inv) (hr : s.rstN = true) (off : Nat) (d : Word) : (s.writeReg off d).Inv := by
  unfold State.writeReg
  split
  · exact State.inv_writeCtrl h hr d
  · exact State.inv_writeStatus h hr d
  · exact State.inv_writeCmd h hr d
  all_goals exact h

/-- A bus write stores only bytes inside the ORAM (R52). -/
theorem State.inv_busWrite (h : s.Inv) (a : Nat) (d : Word) (k : Nat) : (s.busWrite a d k).Inv := by
  refine State.inv_writeOram h ?_
  rw [State.insideOram_eq_take]
  rcases Nat.lt_or_ge a s.params.oramBytes with ha | ha
  · right
    rw [List.length_take]
    omega
  · left
    rw [Nat.sub_eq_zero_of_le ha, List.take_zero]

theorem State.inv_accessWrite (h : s.Inv) (hr : s.rstN = true) (a : BusAccess) (d : Word) :
    (s.accessWrite a d).Inv := by
  rcases s.accessWrite_cases a d with heq | heq | heq <;> rw [heq]
  · exact State.inv_writeReg h hr _ d
  · exact State.inv_busWrite h _ d _
  · exact h

theorem State.inv_performAccess (h : s.Inv) (hr : s.rstN = true) (a : BusAccess) : (s.performAccess a).Inv := by
  obtain ⟨answer, heq | ⟨d, -, heq⟩⟩ := s.performAccess_cases a
  · rw [heq]; exact h
  · rw [heq]; exact State.inv_accessWrite h hr a d

/-- An access that is held is an ORAM access of the window (R58). -/
theorem State.inv_hold (h : s.Inv) (hr : s.rstN = true) {a : BusAccess} (hw : inWindow s.params a.addr = true)
    (hh : s.holds a = true) : State.Inv { s with held := s.held ++ [a] } := by
  obtain ⟨hp, hx, ho, hs, hf, hps, -, hheld⟩ := h
  refine ⟨hp, hx, ho, hs, hf, hps, fun h0 => by simp [hr] at h0, fun b hb => ?_⟩
  rcases List.mem_append.1 hb with hb | hb
  · exact hheld b hb
  · obtain rfl := List.mem_singleton.1 hb
    simp only [State.holds, Bool.and_eq_true, decide_eq_true_eq] at hh
    exact ⟨hw, hh.2⟩

theorem inv_busArrives {t : State} {a : BusAccess} (ha : busArrives s a = .next t) (h : s.Inv) : t.Inv := by
  obtain ⟨hr, hw, ⟨hh, rfl⟩ | ⟨-, rfl⟩⟩ := busArrives_next_cases ha
  · exact State.inv_hold h hr hw hh
  · exact State.inv_performAccess h hr a

/-- The oldest held access may leave: where one is held the block is out of reset. -/
theorem State.inv_unhold (h : s.Inv) {a : BusAccess} {rest : List BusAccess} (hh : s.held = a :: rest) :
    s.rstN = true ∧ State.Inv { s with held := rest } := by
  obtain ⟨hp, hx, ho, hs, hf, hps, hpin, hheld⟩ := h
  have hr : s.rstN = true := by
    by_contra h0
    obtain ⟨-, -, -, -, hnone⟩ := hpin (by simpa using h0)
    simp [hnone] at hh
  exact ⟨hr, hp, hx, ho, hs, hf, hps, fun h0 => by simp [hr] at h0, fun b hb => hheld b (by simp [hh, hb])⟩

end Operations

/-! ### The invariant under the commands -/

theorem lt_two_pow_width_of_le {p : Params} {k v : Nat} (hk : k ≤ p.maxl) (hv : v < 2 ^ (8 * k)) :
    v < 2 ^ p.width :=
  Nat.lt_of_lt_of_le hv (Nat.pow_le_pow_right (by decide) (Nat.mul_le_mul_left 8 hk))

/-- A residue modulo a register that passes the modulus check fits a register. -/
theorem State.inv_writeX_mod {s : State} (h : s.Inv) {rn : XReg} (hc : modulusError (s.readX rn) = none)
    (rd : XReg) (v : Nat) : (s.writeX rd (v % s.readX rn)).Inv := by
  obtain ⟨-, hx, -⟩ := id h
  obtain ⟨-, hpos⟩ := (validMod_iff _).1 (modulusError_eq_none.1 hc)
  exact State.inv_writeX h rd ((Nat.mod_lt v (by omega)).trans (hx rn))

/-- The writes of the RSA commands stay inside a range of `L(n)` bytes the checks have passed (R129, R130). -/
theorem State.inv_rsaWrite {s : State} (h : s.Inv) (e : Nat) {n : Nat}
    (hr : s.aAddr1 + byteLength n ≤ s.params.oramBytes) : (s.rsaWrite e n).Inv :=
  State.inv_writeRes (State.inv_writeOram h (.inr (by simpa using hr))) _

/-- Every command but PADENC ends as `conclude` says, and the state it has written keeps the parameters and the
pin; where its checks pass, it keeps the invariant. -/
theorem exec_writes (i : Instr) (s : State) (hi : i ≠ .padenc) :
    ∃ w, exec i s = conclude s (checkError s i) w ∧ w.params = s.params ∧ w.rstN = s.rstN ∧
      (s.Inv → checkError s i = none → w.Inv) := by
  cases i with
  | nop => exact ⟨_, rfl, rfl, rfl, fun h _ => h⟩
  | ldn rd =>
    refine ⟨_, rfl, rfl, rfl, fun h hc => State.inv_writeX h rd ?_⟩
    obtain ⟨hlen, -⟩ := ldnError_eq_none.1 hc
    exact lt_two_pow_width_of_le hlen (by simpa using beValue_lt s.sourceBytes)
  | stn ra =>
    refine ⟨_, rfl, rfl, rfl, fun h hc => ?_⟩
    have hflags : (s.flags.store (s.readX ra) s.aLen).ok := by
      obtain ⟨-, -, -, -, hf, -⟩ := h
      exact hf
    exact State.inv_writeFlags (State.inv_writeOram h (.inr (by simpa using destOram_inside rfl hc))) hflags
  | mov rd ra =>
    refine ⟨_, rfl, rfl, rfl, fun h _ => ?_⟩
    obtain ⟨-, hx, -⟩ := id h
    exact State.inv_writeX h rd (hx ra)
  | cmp ra rb => exact ⟨_, rfl, rfl, rfl, fun h _ => State.inv_writeFlags h (Flags.ok_compare _ _ _)⟩
  | bitlen ra => exact ⟨_, rfl, rfl, rfl, fun h _ => State.inv_writeRes h _⟩
  | bytelen ra => exact ⟨_, rfl, rfl, rfl, fun h _ => State.inv_writeRes h _⟩
  | modexp rd ra rb rn =>
    refine ⟨_, rfl, rfl, rfl, fun h hc => ?_⟩
    rw [powMod_eq]
    exact State.inv_writeX_mod h hc rd _
  | montmul rd ra rb rn => exact ⟨_, rfl, rfl, rfl, fun h hc => State.inv_writeX_mod h hc rd _⟩
  | montin rd ra rn => exact ⟨_, rfl, rfl, rfl, fun h hc => State.inv_writeX_mod h hc rd _⟩
  | montout rd ra rn => exact ⟨_, rfl, rfl, rfl, fun h hc => State.inv_writeX_mod h hc rd _⟩
  | padenc => exact absurd rfl hi
  | paddec =>
    refine ⟨_, rfl, rfl, rfl, fun h hc => State.inv_writeRes (State.inv_writeOram h (.inr ?_)) _⟩
    obtain ⟨-, -, hblock⟩ := paddecError_eq_none.1 hc
    obtain ⟨hlen, -⟩ := paddingBad_eq_false.1 hblock
    have hinside : s.aAddr1 + s.aKlen ≤ s.params.oramBytes := destOram_inside rfl hc
    have hmessage := length_paddedMessage_le s.sourceBytes
    rw [length_sourceBytes] at hmessage
    omega
  | rsaenc rb rn => exact ⟨_, rfl, rfl, rfl, fun h hc => State.inv_rsaWrite h _ (destOram_inside rfl hc)⟩
  | rsadec rb rn => exact ⟨_, rfl, rfl, rfl, fun h hc => State.inv_rsaWrite h _ (destOram_inside rfl hc)⟩

/-- A running PADENC may draw non-zero bytes up to the number it needs (R101). -/
theorem State.inv_drawn {s : State} (h : s.Inv) (hb : s.status.busy = true) (hc : padencError s = none)
    {drawn : List Byte} (hnz : ∀ b ∈ drawn, b ≠ 0#8) (hlen : s.ps.length + drawn.length ≤ s.psCount)
    (rest : List Byte) : State.Inv { s with ps := s.ps ++ drawn, rng := rest } := by
  obtain ⟨hp, hx, ho, hs, hf, ⟨hold, -⟩, hpin, hheld⟩ := h
  obtain ⟨-, -, hk⟩ := padencError_eq_none.1 hc
  refine ⟨hp, hx, ho, hs, hf, ⟨fun b hm => ?_, .inr ⟨hb, ?_⟩⟩, hpin, hheld⟩
  · exact (List.mem_append.1 hm).elim (hold b) (hnz b)
  · change s.aLen + 3 + (s.ps ++ drawn).length ≤ s.aKlen
    rw [List.length_append]
    unfold State.psCount at hlen
    omega

/-- The padded block of a PADENC with all its padding bytes fills the destination exactly (R100). -/
theorem State.inv_padencWrite {s : State} (h : s.Inv) (hc : padencError s = none) {ps : List Byte}
    (hlen : ps.length = s.psCount) : (s.padencWrite ps).Inv := by
  refine State.inv_writeRes (State.inv_writeOram h (.inr ?_)) _
  obtain ⟨-, ⟨-, hinside⟩, hk⟩ := padencError_eq_none.1 hc
  rw [length_paddedBlock, length_sourceBytes, hlen, State.psCount]
  omega

/-- The padding bytes drawn are never more than a PADENC whose checks pass needs. -/
theorem State.length_ps_le_psCount {s : State} (h : s.psOk) : s.ps.length ≤ s.psCount := by
  unfold State.psCount
  obtain ⟨-, hps | ⟨-, hlen⟩⟩ := h
  · simp [hps]
  · omega

theorem inv_execPadenc {s t : State} (h : s.Inv) (hr : s.rstN = true) (hb : s.status.busy = true)
    (he : exec .padenc s = .next t) : t.Inv := by
  obtain ⟨-, -, -, -, -, hps, -⟩ := id h
  have hold := State.length_ps_le_psCount hps
  rcases execPadenc_cases he with ⟨e, hc, rfl⟩ | ⟨hc, taken, rest, -, -, hmax, hend⟩
  · exact State.inv_raise h hr (checkError_allowed (i := .padenc) hc).2
  · rw [max_eq_right hold] at hmax
    have hdrawn := State.inv_drawn h hb hc (drawn := taken.filter (· ≠ 0#8)) (by simp) hmax
    rcases hend with ⟨-, -, rfl⟩ | ⟨hall, rfl⟩
    · exact hdrawn []
    · refine State.inv_complete (State.inv_padencWrite (hdrawn rest) hc ?_) hr
      rw [List.length_append]
      exact le_antisymm hmax hall

theorem inv_exec {i : Instr} {s t : State} (h : s.Inv) (hr : s.rstN = true) (hb : s.status.busy = true)
    (he : exec i s = .next t) : t.Inv := by
  by_cases hi : i = .padenc
  · subst hi
    exact inv_execPadenc h hr hb he
  · obtain ⟨w, hw, -, hpin, hinv⟩ := exec_writes i s hi
    rcases conclude_eq_next (hw ▸ he) with ⟨e, hc, rfl⟩ | ⟨hc, rfl⟩
    · exact State.inv_raise h hr (checkError_allowed hc).2
    · exact State.inv_complete (hinv h hc) (hpin.trans hr)

theorem inv_engineTurn {s t : State} (he : engineTurn s = .next t) (h : s.Inv) : t.Inv := by
  rcases engineTurn_cases he with rfl | ⟨hr, hb, ⟨-, -, rfl⟩ | ⟨i, -, hi⟩⟩
  · exact h
  · exact State.inv_raise h hr (by decide)
  · exact inv_exec h hr hb hi

/-! ### The parameters -/

theorem exec_params {i : Instr} {s t : State} (h : exec i s = .next t) : t.params = s.params := by
  by_cases hi : i = .padenc
  · subst hi
    rcases execPadenc_cases h with ⟨e, -, rfl⟩ | ⟨-, taken, rest, -, -, -, ⟨-, -, rfl⟩ | ⟨-, rfl⟩⟩ <;> rfl
  · obtain ⟨w, hw, hp, -⟩ := exec_writes i s hi
    rcases conclude_eq_next (hw ▸ h) with ⟨e, -, rfl⟩ | ⟨-, rfl⟩
    · rfl
    · exact hp

theorem engineTurn_params {s t : State} (h : engineTurn s = .next t) : t.params = s.params := by
  rcases engineTurn_cases h with rfl | ⟨-, -, ⟨-, -, rfl⟩ | ⟨i, -, hi⟩⟩
  · rfl
  · rfl
  · exact exec_params hi

theorem State.accessWrite_params (s : State) (a : BusAccess) (d : Word) : (s.accessWrite a d).params = s.params := by
  rcases s.accessWrite_cases a d with heq | heq | heq <;> rw [heq]
  · exact s.writeReg_params _ d
  · rfl

theorem State.performAccess_params (s : State) (a : BusAccess) : (s.performAccess a).params = s.params := by
  obtain ⟨answer, heq | ⟨d, -, heq⟩⟩ := s.performAccess_cases a
  · rw [heq]
  · rw [heq]; exact s.accessWrite_params a d

theorem busArrives_params {s t : State} {a : BusAccess} (h : busArrives s a = .next t) : t.params = s.params := by
  obtain ⟨-, -, ⟨-, rfl⟩ | ⟨-, rfl⟩⟩ := busArrives_next_cases h
  · rfl
  · exact s.performAccess_params a

theorem State.samplePin_params (s : State) (level : Bool) : (s.samplePin level).params = s.params := by
  cases level with
  | false => exact (congrArg State.params s.powerOn_eq :)
  | true => rfl

/-! ### The obligations -/

/-- Settles O39, by the moves of a step: each agent's move keeps the invariant. -/
theorem stepKeepsTheInvariant : Obligations.StepKeepsTheInvariant := by
  intro s t h hstep
  have hs : State.Inv { s with answer := none } := h
  rcases step_next_cases hstep with ⟨a, rest, hheld, -, rfl⟩ | ⟨-, he⟩ | ⟨a, rest, -, ha⟩ | ⟨b, rest, -, rfl⟩ |
    ⟨level, rest, -, rfl⟩
  · obtain ⟨hr, hrest⟩ := State.inv_unhold hs hheld
    exact State.inv_performAccess hrest hr a
  · exact inv_engineTurn he hs
  · exact inv_busArrives ha hs
  · exact hs
  · exact State.inv_samplePin (s := { s with answer := none, inputs := rest }) hs level

/-- Settles O40, by the moves of a step: no agent's move writes the parameters. -/
theorem stepKeepsTheParameters : Obligations.StepKeepsTheParameters := by
  intro s t hstep
  rcases step_next_cases hstep with ⟨a, rest, -, -, rfl⟩ | ⟨-, he⟩ | ⟨a, rest, -, ha⟩ | ⟨b, rest, -, rfl⟩ |
    ⟨level, rest, -, rfl⟩
  · exact State.performAccess_params _ a
  · exact (engineTurn_params he :)
  · exact (busArrives_params ha :)
  · rfl
  · exact State.samplePin_params _ level

end Sys2Proof.Machine

/-! PROOFS. The state of the block (10_state.md): which state each command writes and what it leaves alone, the
values at reset, and what the host reads and writes at the registers. -/

namespace Sys2Proof.Machine

open Sys2Proof

/-! ### The frame of a command -/

/-- The commands that write RES (R40). -/
def mayWriteRes (i : Instr) : Prop :=
  (∃ r, i = .bitlen r) ∨ (∃ r, i = .bytelen r) ∨ i = .padenc ∨ i = .paddec ∨
    (∃ b n, i = .rsaenc b n) ∨ ∃ b n, i = .rsadec b n

/-- `t` differs from `s` in nothing but what command `i` may write, run from `s`, and in what the end of a command
writes in STATUS (R203, R204). -/
structure ChangesOnlyDest (i : Instr) (s t : State) : Prop where
  x : ∀ r, ¬ mayWriteX i r → t.readX r = s.readX r ∧ t.xWritten[r] = s.xWritten[r]
  oram : s.oram.wf → s.psOk → ∀ a, ¬ mayWriteOram s i a → t.oram.read a = s.oram.read a
  res : ¬ mayWriteRes i → t.res = s.res
  comparison : (∀ a b, i ≠ .cmp a b) →
    t.flags.eq = s.flags.eq ∧ t.flags.lt = s.flags.lt ∧ t.flags.gt = s.flags.gt
  trunc : (∀ a, i ≠ .stn a) → t.flags.trunc = s.flags.trunc
  rng : i ≠ .padenc → t.rng = s.rng
  rest : t = { s with
    x := t.x, xWritten := t.xWritten, oram := t.oram, res := t.res, flags := t.flags, rng := t.rng, ps := t.ps
    status := { s.status with
      busy := t.status.busy, done := t.status.done, err := t.status.err, ecode := t.status.ecode } }

theorem State.xWritten_writeX_ne (s : State) {i j : XReg} (v : Nat) (h : j ≠ i) :
    (s.writeX i v).xWritten[j] = s.xWritten[j] := by
  have h' : i.val ≠ j.val := fun e => h (Fin.ext e.symm)
  simp [h']

namespace ChangesOnlyDest

variable {i : Instr} {s w : State}

/-- Nothing written is nothing outside the destination. -/
theorem refl (i : Instr) (s : State) : ChangesOnlyDest i s s :=
  ⟨fun _ _ => ⟨rfl, rfl⟩, fun _ _ _ _ => rfl, fun _ => rfl, fun _ => ⟨rfl, rfl, rfl⟩, fun _ => rfl, fun _ => rfl,
    rfl⟩

theorem writeX (h : ChangesOnlyDest i s w) {r : XReg} (v : Nat) (hr : mayWriteX i r) :
    ChangesOnlyDest i s (w.writeX r v) where
  x j hj := by
    have hne : j ≠ r := fun e => hj (e ▸ hr)
    rw [State.readX_writeX_ne w v hne, State.xWritten_writeX_ne w v hne]
    exact h.x j hj
  oram := h.oram
  res := h.res
  comparison := h.comparison
  trunc := h.trunc
  rng := h.rng
  rest := congrArg (State.writeX · r v) h.rest

/-- A write to an ORAM range of the destination; nothing has written ORAM before it. -/
theorem writeOram (h : ChangesOnlyDest i s w) (ho : w.oram = s.oram) {a : Nat} {bs : List Byte}
    (hr : s.psOk → ∀ b, a ≤ b → b < a + bs.length → mayWriteOram s i b) :
    ChangesOnlyDest i s (w.writeOram a bs) where
  x := h.x
  oram hwf hps b hb := by
    have houtside : b < a ∨ a + bs.length ≤ b := by
      by_contra hin
      exact hb (hr hps b (by omega) (by omega))
    rw [State.writeOram_oram, ho, Memory.read_writeBytes_outside hwf houtside]
  res := h.res
  comparison := h.comparison
  trunc := h.trunc
  rng := h.rng
  rest := congrArg (State.writeOram · a bs) h.rest

theorem writeRes (h : ChangesOnlyDest i s w) (v : Nat) (hi : mayWriteRes i) :
    ChangesOnlyDest i s (w.writeRes v) :=
  ⟨h.x, h.oram, fun hn => absurd hi hn, h.comparison, h.trunc, h.rng, congrArg (State.writeRes · v) h.rest⟩

theorem writeCompare {ra rb : XReg} (h : ChangesOnlyDest (.cmp ra rb) s w) (a b : Nat) :
    ChangesOnlyDest (.cmp ra rb) s (w.writeFlags (w.flags.compare a b)) :=
  ⟨h.x, h.oram, h.res, fun hn => absurd rfl (hn ra rb), h.trunc, h.rng,
    congrArg (fun u => State.writeFlags u (u.flags.compare a b)) h.rest⟩

theorem writeTrunc {ra : XReg} (h : ChangesOnlyDest (.stn ra) s w) (v k : Nat) :
    ChangesOnlyDest (.stn ra) s (w.writeFlags (w.flags.store v k)) :=
  ⟨h.x, h.oram, h.res, h.comparison, fun hn => absurd rfl (hn ra), h.rng,
    congrArg (fun u => State.writeFlags u (u.flags.store v k)) h.rest⟩

theorem complete (h : ChangesOnlyDest i s w) : ChangesOnlyDest i s w.complete :=
  ⟨h.x, h.oram, h.res, h.comparison, h.trunc, h.rng, congrArg State.complete h.rest⟩

theorem raise (h : ChangesOnlyDest i s w) (e : ECode) : ChangesOnlyDest i s (w.raise e) :=
  ⟨h.x, h.oram, h.res, h.comparison, h.trunc, h.rng, congrArg (State.raise · e) h.rest⟩

/-- PADENC alone draws from the RNG stream (R62). -/
theorem draw (h : ChangesOnlyDest .padenc s w) (ps rng : List Byte) :
    ChangesOnlyDest .padenc s { w with ps := ps, rng := rng } :=
  ⟨h.x, h.oram, h.res, h.comparison, h.trunc, fun hn => absurd rfl hn,
    congrArg (fun u : State => { u with ps := ps, rng := rng }) h.rest⟩

/-- The destination of the RSA commands is the `L(n)` bytes they write (R129, R130, R233). -/
theorem rsaWrite {rn : XReg} (e : Nat) (hres : mayWriteRes i)
    (hr : ∀ b, s.aAddr1 ≤ b → b < s.aAddr1 + byteLength (s.readX rn) → mayWriteOram s i b) :
    ChangesOnlyDest i s (s.rsaWrite e (s.readX rn)) :=
  ((ChangesOnlyDest.refl i s).writeOram rfl fun _ b hle hlt => hr b hle (by simpa using hlt)).writeRes _ hres

end ChangesOnlyDest

/-- Every command but PADENC ends as `conclude` says, and what it has written where its checks pass is its
destination. -/
theorem exec_writes_dest (i : Instr) (s : State) (hi : i ≠ .padenc) :
    ∃ w, exec i s = conclude s (checkError s i) w ∧ (checkError s i = none → ChangesOnlyDest i s w) := by
  have hs := ChangesOnlyDest.refl i s
  cases i with
  | nop => exact ⟨_, rfl, fun _ => hs⟩
  | ldn rd => exact ⟨_, rfl, fun _ => hs.writeX _ rfl⟩
  | stn ra =>
    exact ⟨_, rfl, fun _ => (hs.writeOram rfl fun _ b hle hlt => ⟨hle, by simpa using hlt⟩).writeTrunc _ _⟩
  | mov rd ra => exact ⟨_, rfl, fun _ => hs.writeX _ rfl⟩
  | cmp ra rb => exact ⟨_, rfl, fun _ => hs.writeCompare _ _⟩
  | bitlen ra => exact ⟨_, rfl, fun _ => hs.writeRes _ (.inl ⟨ra, rfl⟩)⟩
  | bytelen ra => exact ⟨_, rfl, fun _ => hs.writeRes _ (.inr (.inl ⟨ra, rfl⟩))⟩
  | modexp rd ra rb rn => exact ⟨_, rfl, fun _ => hs.writeX _ rfl⟩
  | montmul rd ra rb rn => exact ⟨_, rfl, fun _ => hs.writeX _ rfl⟩
  | montin rd ra rn => exact ⟨_, rfl, fun _ => hs.writeX _ rfl⟩
  | montout rd ra rn => exact ⟨_, rfl, fun _ => hs.writeX _ rfl⟩
  | padenc => exact absurd rfl hi
  | paddec =>
    refine ⟨_, rfl, fun hc => (hs.writeOram rfl fun _ b hle hlt => ⟨hle, ?_⟩).writeRes _ (by simp [mayWriteRes])⟩
    obtain ⟨-, -, hblock⟩ := paddecError_eq_none.1 hc
    obtain ⟨hlen, -⟩ := paddingBad_eq_false.1 hblock
    have hmessage := length_paddedMessage_le s.sourceBytes
    rw [length_sourceBytes] at hmessage
    omega
  | rsaenc rb rn => exact ⟨_, rfl, fun _ => .rsaWrite _ (by simp [mayWriteRes]) fun b hle hlt => ⟨hle, hlt⟩⟩
  | rsadec rb rn => exact ⟨_, rfl, fun _ => .rsaWrite _ (by simp [mayWriteRes]) fun b hle hlt => ⟨hle, hlt⟩⟩

/-- The padded block of a PADENC with its `k` padding bytes is as long as its destination (R100). -/
theorem length_paddedBlock_of_psCount {s : State} (hc : padencError s = none) {ps : List Byte}
    (hps : ps.length = s.psCount) : (paddedBlock ps s.sourceBytes).length = s.aKlen := by
  obtain ⟨-, -, hk⟩ := padencError_eq_none.1 hc
  rw [length_paddedBlock, length_sourceBytes, hps, State.psCount]
  omega

theorem execPadenc_changesOnlyDest {s t : State} (h : exec .padenc s = .next t) : ChangesOnlyDest .padenc s t := by
  have hs := ChangesOnlyDest.refl .padenc s
  rcases execPadenc_cases h with ⟨e, -, rfl⟩ | ⟨hc, taken, rest, -, -, hmax, ⟨-, -, rfl⟩ | ⟨hall, rfl⟩⟩
  · exact hs.raise e
  · exact hs.draw _ _
  · refine (((hs.draw (s.ps ++ taken.filter (· ≠ 0#8)) rest).writeOram rfl
      fun hps b hle hlt => ⟨hle, ?_⟩).writeRes _ (by simp [mayWriteRes])).complete
    rw [max_eq_right (State.length_ps_le_psCount hps)] at hmax
    have hblock := length_paddedBlock_of_psCount (ps := s.ps ++ taken.filter (· ≠ 0#8)) hc
      (by rw [List.length_append]; exact le_antisymm hmax hall)
    exact hlt.trans_eq (congrArg (s.aAddr1 + ·) hblock)

theorem exec_changesOnlyDest {i : Instr} {s t : State} (h : exec i s = .next t) : ChangesOnlyDest i s t := by
  by_cases hi : i = .padenc
  · subst hi
    exact execPadenc_changesOnlyDest h
  · obtain ⟨w, hw, hdest⟩ := exec_writes_dest i s hi
    rcases conclude_eq_next (hw ▸ h) with ⟨e, -, rfl⟩ | ⟨hc, rfl⟩
    · exact (ChangesOnlyDest.refl i s).raise e
    · exact (hdest hc).complete

theorem Flags.eq_of_bits {f g : Flags} (heq : f.eq = g.eq) (hlt : f.lt = g.lt) (hgt : f.gt = g.gt)
    (htrunc : f.trunc = g.trunc) : f = g := by
  cases f
  cases g
  congr

/-- A command that changes FLAGS is CMP or STN (R42). -/
theorem ChangesOnlyDest.flags_eq {i : Instr} {s t : State} (h : ChangesOnlyDest i s t)
    (hcmp : ∀ a b, i ≠ .cmp a b) (hstn : ∀ a, i ≠ .stn a) : t.flags = s.flags := by
  obtain ⟨heq, hlt, hgt⟩ := h.comparison hcmp
  exact Flags.eq_of_bits heq hlt hgt (h.trunc hstn)

/-- A command that ends with an error it did not start with writes no flag (R42, R204). -/
theorem exec_flags_of_err {i : Instr} {s t : State} (hs : s.status.err = false) (h : exec i s = .next t)
    (ht : t.status.err = true) : t.flags = s.flags := by
  by_cases hi : i = .padenc
  · subst hi
    exact (exec_changesOnlyDest h).flags_eq nofun nofun
  · rcases exec_cases hi h with ⟨e, -, rfl⟩ | ⟨-, w, -, hstatus, rfl⟩
    · rfl
    · simp [hstatus, hs] at ht

/-- Settles O35, by the frame of a command. -/
theorem commandsChangeOnlyTheirDestinations : Obligations.CommandsChangeOnlyTheirDestinations := by
  intro i s t hwf hps h
  have hf := exec_changesOnlyDest h
  refine ⟨hf.x, hf.oram hwf hps, fun hne => ?_, fun hne => ?_, fun hne => ?_, hf.rest⟩
  · by_contra hres
    exact hne (hf.res hres)
  · by_contra hflags
    rw [not_or, not_exists, not_exists] at hflags
    obtain ⟨hcmp, hstn⟩ := hflags
    exact hne (hf.flags_eq (fun a b hi => hcmp a ⟨b, hi⟩) hstn)
  · by_contra hi
    exact hne (hf.rng hi)

/-- Settles O36, by the frame of a command and by what an error leaves unchanged. -/
theorem flagsHaveOneWriterEach : Obligations.FlagsHaveOneWriterEach := by
  intro i s t hs h
  have hf := exec_changesOnlyDest h
  exact ⟨hf.comparison, hf.trunc, exec_flags_of_err hs h⟩

/-! ### Register accesses of the host -/

/-- A register write that reaches the block is performed in that step, whether a command runs or not (R58, R59). -/
theorem step_regWrite {s : State} {off : Nat} {d : Word} {rest : List Input} (hl : Listening s)
    (hi : s.inputs = .bus (regWriteAccess s off d) :: rest) (hoff : off < 0x1000) (h4 : off % 4 = 0) :
    step s = .next { State.writeReg { s with inputs := rest, answer := none } off d with
      answer := some ⟨regWriteAccess s off d, 0, .okay⟩ } := by
  obtain ⟨hr, hheld⟩ := hl
  rw [step_bus hheld hi]
  exact (busArrives_reg (s := { s with inputs := rest, answer := none }) hr hoff).trans
    (congrArg _ (performAccess_regWrite hoff h4))

/-- A register read that reaches the block is answered in that step and changes nothing (R57, R58, R59). -/
theorem step_regRead {s : State} {off : Nat} {rest : List Input} (hl : Listening s)
    (hi : s.inputs = .bus (regReadAccess s off) :: rest) (hoff : off < 0x1000) (h4 : off % 4 = 0) :
    step s = .next { s with inputs := rest, answer := some ⟨regReadAccess s off, s.readReg off, .okay⟩ } := by
  obtain ⟨hr, hheld⟩ := hl
  rw [step_bus hheld hi]
  exact (busArrives_reg (s := { s with inputs := rest, answer := none }) hr hoff).trans
    (congrArg _ (performAccess_regRead hoff h4))

/-! ### The register images -/

/-- Appending a field below another one shifts the upper one up. -/
theorem toNat_append_eq {m n : Nat} (x : BitVec m) (y : BitVec n) :
    (x ++ y).toNat = x.toNat * 2 ^ n + y.toNat := by
  rw [BitVec.toNat_append, ← Nat.shiftLeft_add_eq_or_of_lt y.isLt, Nat.shiftLeft_eq]

theorem toNat_ctrlImage (ie : Bool) : (ctrlImage ie).toNat = ie.toNat := by
  rw [ctrlImage, toNat_append_eq, BitVec.toNat_ofBool]
  simp

/-- STATUS as read (R34): BUSY, DONE, ERR and OVR in bits 3:0, ECODE in bits 11:8, the rest 0. -/
theorem Status.toNat_image (st : Status) :
    st.image.toNat = st.busy.toNat + 2 * st.done.toNat + 4 * st.err.toNat + 8 * st.ovr.toNat +
      256 * st.ecode.code.toNat := by
  simp only [Status.image, toNat_append_eq, BitVec.toNat_ofBool, BitVec.toNat_ofNat]
  omega

/-- FLAGS as read (R41): EQ, LT, GT and TRUNC in bits 3:0, the rest 0. -/
theorem Flags.toNat_image (f : Flags) :
    f.image.toNat = f.eq.toNat + 2 * f.lt.toNat + 4 * f.gt.toNat + 8 * f.trunc.toNat := by
  simp only [Flags.image, toNat_append_eq, BitVec.toNat_ofBool, BitVec.toNat_ofNat]
  omega

/-- Settles O47, by the read of a register and the images of CTRL, STATUS and FLAGS. -/
theorem registerReadsReturnTheFields : Obligations.RegisterReadsReturnTheFields := by
  intro s off rest hl hoff h4 hi
  refine ⟨s.readReg off, step_regRead hl hi (by omega) h4, ?_⟩
  refine ⟨?id, ?maxl, ?oram, ?ctrl, ?status, ?cmd, ?addr0, ?addr1, ?len, ?klen, ?res, ?flags⟩ <;> rintro rfl
  case ctrl => exact toNat_ctrlImage s.ie
  case status =>
    refine s.status.toNat_image.trans ?_
    cases s.status.ecode <;> rfl
  case flags => exact s.flags.toNat_image
  all_goals rfl

/-! ### Register writes -/

/-- Settles O48, by the write of a register. -/
theorem operandRegisterWritesAreNotLatched : Obligations.OperandRegisterWritesAreNotLatched := by
  intro s d rest hl
  refine ⟨fun hi => ?_, fun hi => ?_, fun hi => ?_, fun hi => ?_⟩ <;>
    exact step_regWrite hl hi (by decide) (by decide)

theorem clearedBit_eq_ite (b written : Bool) : (b && !written) = if written then false else b := by
  cases written <;> simp

/-- Settles O49, by the write of a register: a bit of STATUS is cleared where a 1 is written. -/
theorem statusWriteClearsWrittenOnes : Obligations.StatusWriteClearsWrittenOnes := by
  intro s d rest hl hi
  rw [step_regWrite hl hi (by decide) (by decide)]
  simp only [← clearedBit_eq_ite]
  rfl

/-- A CTRL write without SRST writes IE alone (R33). -/
theorem State.writeReg_ctrl (s : State) {d : Word} (h : d[1] = false) :
    s.writeReg 0x00C d = { s with ie := d[0] } := by
  simp [State.writeReg, State.writeCtrl, h]

/-- The read-only registers ignore writes (R30 to R32, R40, R41). -/
theorem State.writeReg_readOnly (s : State) {off : Nat} (d : Word)
    (h : off ∈ [0x000, 0x004, 0x008, 0x028, 0x02C]) : s.writeReg off d = s := by
  simp only [List.mem_cons, List.not_mem_nil, or_false] at h
  rcases h with rfl | rfl | rfl | rfl | rfl <;> rfl

/-- Settles O50, by the write of a register. -/
theorem ctrlAndReadOnlyWrites : Obligations.CtrlAndReadOnlyWrites := by
  intro s d rest hl
  refine ⟨fun hsrst hi => ?_, fun off hoff hi => ?_⟩
  · rw [step_regWrite hl hi (by decide) (by decide), State.writeReg_ctrl _ hsrst]
  · have hfit : ∀ o ∈ [0x000, 0x004, 0x008, 0x028, 0x02C], o < 0x1000 ∧ o % 4 = 0 := by decide
    obtain ⟨hlt, h4⟩ := hfit off hoff
    rw [step_regWrite hl hi hlt h4, State.writeReg_readOnly _ d hoff]

/-! ### The values at reset -/

/-- Settles O37, by evaluation of the reset state. -/
theorem resetHasTheSpecsValues : Obligations.ResetHasTheSpecsValues := by
  unfold Obligations.ResetHasTheSpecsValues
  decide

theorem Params.wellFormed_default : Params.default.WellFormed := by decide

theorem State.readX_reset (i : XReg) : State.reset.readX i = 0 := by
  simp [State.readX, State.reset]

/-- Settles O38, by the parts of the invariant. -/
theorem resetMeetsTheInvariant : Obligations.ResetMeetsTheInvariant := by
  refine ⟨Params.wellFormed_default, fun i => ?_, ⟨reset_oram_wf, nofun⟩, Status.ok_clear, Flags.ok_clear,
    ⟨nofun, .inl rfl⟩, nofun, nofun⟩
  rw [State.readX_reset]
  exact Nat.two_pow_pos _

/-! ### The X registers and the bus -/

/-- A register write neither reads nor writes the X registers, unless it is a CTRL write with SRST = 1 (R232). -/
theorem State.writeReg_with_x (s : State) (off : Nat) (d : Word) :
    (∀ x, State.writeReg { s with x := x } off d = State.softReset { s with x := x, ie := d[0] }) ∨
      ∀ x, State.writeReg { s with x := x } off d = { s.writeReg off d with x := x } := by
  unfold State.writeReg
  split
  · unfold State.writeCtrl
    split
    · exact .inl fun x => rfl
    · exact .inr fun x => rfl
  · exact .inr fun x => rfl
  · unfold State.writeCmd
    right
    intro x
    dsimp only
    split <;> rfl
  all_goals exact .inr fun x => rfl

/-- A write access neither reads nor writes the X registers, unless it is a CTRL write with SRST = 1 (R232). -/
theorem State.accessWrite_with_x (s : State) (a : BusAccess) (d : Word) :
    (∀ x, State.accessWrite { s with x := x } a d = State.softReset { s with x := x, ie := d[0] }) ∨
      ∀ x, State.accessWrite { s with x := x } a d = { s.accessWrite a d with x := x } := by
  unfold State.accessWrite
  dsimp only
  split
  · exact s.writeReg_with_x _ d
  · exact .inr fun x => by simp only [State.busWrite, State.insideOram_eq_take, State.writeOram]
  · exact .inr fun x => rfl

/-- The data of a read are the same whatever the X registers hold (R21). -/
theorem State.accessData_with_x (s : State) (a : BusAccess) (x : Vector Nat 8) :
    State.accessData { s with x := x } a = s.accessData a := by
  unfold State.accessData
  dsimp only
  split
  · rfl
  · rw [State.busRead_congr (s := { s with x := x }) (t := s) rfl rfl]
  · rfl

theorem performAccess_read {s : State} {a : BusAccess} (hok : accessOk s.params (busOffset s.params a) a.size = true)
    (hw : a.wdata = none) : s.performAccess a = { s with answer := some ⟨a, s.accessData a, .okay⟩ } := by
  simp [State.performAccess, hok, hw]

theorem performAccess_write {s : State} {a : BusAccess} {d : Word}
    (hok : accessOk s.params (busOffset s.params a) a.size = true) (hw : a.wdata = some d) :
    s.performAccess a = { s.accessWrite a d with answer := some ⟨a, 0, .okay⟩ } := by
  simp [State.performAccess, hok, hw]

/-- The block performs an access the same way whatever the X registers hold, and leaves them alone, unless the access
is the write that resets it (R21, R232). -/
theorem State.performAccess_with_x (s : State) (a : BusAccess) :
    (∃ (ie : Bool) (answer : Option BusAnswer), ∀ x, State.performAccess { s with x := x } a =
        { State.softReset { s with x := x, ie := ie } with answer := answer }) ∨
      ∀ x, State.performAccess { s with x := x } a = { s.performAccess a with x := x } := by
  cases hok : accessOk s.params (busOffset s.params a) a.size with
  | false =>
    refine .inr fun x => (performAccess_error (s := { s with x := x }) hok).trans ?_
    rw [performAccess_error hok]
  | true =>
    cases hw : a.wdata with
    | none =>
      refine .inr fun x => (performAccess_read (s := { s with x := x }) hok hw).trans ?_
      rw [performAccess_read hok hw, State.accessData_with_x]
    | some d =>
      rcases s.accessWrite_with_x a d with hreset | hkeep
      · refine .inl ⟨d[0], some ⟨a, 0, .okay⟩, fun x => (performAccess_write (s := { s with x := x }) hok hw).trans ?_⟩
        rw [hreset x]
      · refine .inr fun x => (performAccess_write (s := { s with x := x }) hok hw).trans ?_
        rw [hkeep x, performAccess_write hok hw]

theorem State.abort_of_idle {s : State} (h : s.status.busy = false) : s.abort = s := by
  simp [State.abort, h]

/-- A performed access answers and writes STATUS, RES and FLAGS the same whatever the X registers hold, and changes
the X registers only where it ends a running command (R21, R233). -/
theorem State.performAccess_ignores_x (s : State) (a : BusAccess) (x : Vector Nat 8) :
    let t := s.performAccess a
    let u := State.performAccess { s with x := x } a
    t.answer = u.answer ∧ t.status = u.status ∧ t.res = u.res ∧ t.flags = u.flags ∧
      (s.status.busy = false ∨ t.status.busy = true → t.x = s.x) := by
  intro t u
  rcases s.performAccess_with_x a with ⟨ie, answer, hreset⟩ | hkeep
  · have ht : t = { State.softReset { s with ie := ie } with answer := answer } := hreset s.x
    have hu : u = { State.softReset { s with x := x, ie := ie } with answer := answer } := hreset x
    rw [ht, hu]
    refine ⟨rfl, rfl, rfl, rfl, fun h => ?_⟩
    have hidle : s.status.busy = false := h.resolve_right nofun
    exact (congrArg State.x (State.abort_of_idle (s := { s with ie := ie }) hidle) :)
  · have ht : t = { t with x := s.x } := hkeep s.x
    have hu : u = { t with x := x } := hkeep x
    rw [hu]
    exact ⟨rfl, rfl, rfl, rfl, fun _ => (congrArg State.x ht :)⟩

/-- Settles O57: an access is held or performed whatever the X registers hold, and a performed one ignores them. -/
theorem busCannotReachTheXRegisters : Obligations.BusCannotReachTheXRegisters := by
  intro s t u x a rest hl hi ht hu
  obtain ⟨-, hheld⟩ := hl
  rw [step_bus hheld hi] at ht
  rw [step_bus (s := { s with x := x }) hheld hi] at hu
  obtain ⟨-, -, ⟨hh, rfl⟩ | ⟨hh, rfl⟩⟩ := busArrives_next_cases ht <;>
    obtain ⟨-, -, ⟨hh', rfl⟩ | ⟨hh', rfl⟩⟩ := busArrives_next_cases hu
  · exact ⟨rfl, rfl, rfl, rfl, fun _ => rfl⟩
  · exact absurd (hh.symm.trans hh') (by decide)
  · exact absurd (hh.symm.trans hh') (by decide)
  · exact State.performAccess_ignores_x _ a x

end Sys2Proof.Machine

/-! PROOFS. The memory and the bus (20_memory.md): the canonical form of ORAM, what an access to each part of the
window answers and changes, the held accesses, and the bytes of the RNG port. -/

namespace Sys2Proof.Machine

open Sys2Proof

/-! ### The canonical form of ORAM -/

/-- A byte read that is not the one of an unlisted offset is listed. -/
theorem Memory.mem_of_read {m : Memory} {c : Host.Cell} (hread : m.read c.1 = c.2) (hlisted : c.2 ≠ Memory.unlisted) :
    c ∈ m := by
  induction m with
  | nil => exact absurd hread.symm hlisted
  | cons d m ih =>
    obtain ⟨k, b⟩ := d
    rw [Memory.read_cons] at hread
    split_ifs at hread with hk
    · exact List.mem_cons.2 (.inl (Prod.ext hk.symm hread.symm))
    · exact List.mem_cons_of_mem _ (ih hread)

/-- In canonical form the listed cells are those whose byte is read and is not the one of an unlisted offset. -/
theorem Memory.mem_iff {m : Memory} (hm : m.wf) {c : Host.Cell} :
    c ∈ m ↔ m.read c.1 = c.2 ∧ c.2 ≠ Memory.unlisted :=
  ⟨fun hc => ⟨Memory.read_of_mem hm hc, hm.2 c hc⟩, fun ⟨hread, hlisted⟩ => Memory.mem_of_read hread hlisted⟩

/-- Settles O41: canonical memories that read alike list the same cells, and lists in the same order with the same
members are equal. -/
theorem memoriesThatReadAlikeAreEqual : Obligations.MemoriesThatReadAlikeAreEqual := by
  intro m n hm hn hread
  have : Std.Irrefl fun c d : Host.Cell => c.1 < d.1 := ⟨fun _ => Nat.lt_irrefl _⟩
  have : Std.Antisymm fun c d : Host.Cell => c.1 < d.1 := ⟨fun _ _ hlt hgt => absurd hlt (Nat.lt_asymm hgt)⟩
  exact hm.1.eq_of_mem_iff hn.1 fun c => by rw [Memory.mem_iff hm, Memory.mem_iff hn, hread]

/-! ### The parts of the window (R51, R52) -/

theorem inWindow_iff {p : Params} {addr : Nat} :
    inWindow p addr = true ↔ p.base ≤ addr ∧ addr < p.base + 0x10000 := by
  simp [inWindow]

theorem regionOf_eq_regs_iff {p : Params} {off : Nat} : regionOf p off = .regs ↔ off < 0x1000 := by
  unfold regionOf
  split_ifs <;> simp [*]

theorem regionOf_eq_oram_iff {p : Params} {off : Nat} :
    regionOf p off = .oram ↔ 0x1000 ≤ off ∧ off < 0x1000 + p.oramBytes := by
  unfold regionOf
  split_ifs <;> simp only [false_iff, true_iff] <;> omega

theorem regionOf_eq_above_iff {p : Params} {off : Nat} :
    regionOf p off = .above ↔ 0x1000 ≤ off ∧ 0x1000 + p.oramBytes ≤ off := by
  unfold regionOf
  split_ifs <;> simp only [false_iff, true_iff] <;> omega

/-- In the register space only an aligned 32-bit access gets OKAY (R55). -/
theorem accessOk_regs_iff {p : Params} {off : Nat} {sz : AccessSize} (h : off < 0x1000) :
    accessOk p off sz = true ↔ sz = .word ∧ off % 4 = 0 := by
  simp [accessOk, regionOf_eq_regs_iff.2 h]

/-- Above the register space every aligned access gets OKAY (R52, R56). -/
theorem accessOk_above_regs_iff {p : Params} {off : Nat} {sz : AccessSize} (h : 0x1000 ≤ off) :
    accessOk p off sz = true ↔ off % sz.bytes = 0 := by
  unfold accessOk regionOf
  rw [if_neg (Nat.not_lt.2 h)]
  split_ifs <;> simp

/-! ### A bus access of the window at the head of the inputs -/

/-- An access of the window that is not held is performed as it arrives (R59). -/
theorem busArrives_performed {s : State} {a : BusAccess} (hr : s.rstN = true) (hw : inWindow s.params a.addr = true)
    (hh : s.holds a = false) : busArrives s a = .next (s.performAccess a) := by
  simp [busArrives, hr, hw, hh]

/-- An ORAM access of the window that arrives while BUSY is held (R58). -/
theorem busArrives_held {s : State} {a : BusAccess} (hr : s.rstN = true) (hw : inWindow s.params a.addr = true)
    (hh : s.holds a = true) : busArrives s a = .next { s with held := s.held ++ [a] } := by
  simp [busArrives, hr, hw, hh]

section BusStep

variable {s : State} {a : BusAccess} {rest : List Input} (hl : Listening s) (hi : s.inputs = .bus a :: rest)
  (hw : inWindow s.params a.addr = true)

include hl hi hw

theorem step_bus_performed (hh : s.holds a = false) {t : State}
    (ht : State.performAccess { s with answer := none, inputs := rest } a = t) : step s = .next t := by
  obtain ⟨hr, hheld⟩ := hl
  rw [← ht]
  exact (step_bus hheld hi).trans (busArrives_performed hr hw hh)

theorem step_bus_held (hh : s.holds a = true) :
    step s = .next { s with inputs := rest, held := s.held ++ [a], answer := none } := by
  obtain ⟨hr, hheld⟩ := hl
  exact (step_bus hheld hi).trans (busArrives_held hr hw hh)

end BusStep

/-- Settles O51: the response is ERROR in each of the cases, and an access that gets ERROR is performed without
effect. -/
theorem busErrorsChangeNothing : Obligations.BusErrorsChangeNothing := by
  intro s a rest hl hi hlo hhi hbad
  have hoff : busOffset s.params a = a.addr - s.params.base := rfl
  have hholds : s.holds a = false := by
    simp only [State.holds, Bool.and_eq_false_iff, decide_eq_false_iff_not, regionOf_eq_oram_iff, hoff]
    rcases hbad with ⟨hregs, -⟩ | ⟨-, -, hbusy | habove⟩
    · omega
    · exact .inl hbusy
    · omega
  have herror : accessOk s.params (busOffset s.params a) a.size = false := by
    rw [← Bool.not_eq_true]
    rcases hbad with ⟨hregs, hwrong⟩ | ⟨horam, hmisaligned, -⟩
    · rw [hoff, accessOk_regs_iff hregs, not_and_or]
      exact hwrong
    · rw [hoff, accessOk_above_regs_iff horam]
      exact hmisaligned
  exact ⟨0, step_bus_performed hl hi (inWindow_iff.2 ⟨hlo, hhi⟩) hholds (performAccess_error herror), fun _ => rfl⟩

/-! ### The reserved space (R52) -/

/-- The reserved offsets of the window: above the last register, and above the ORAM. -/
def reservedOffset (p : Params) (off : Nat) : Prop :=
  0x30 ≤ off ∧ off < 0x1000 ∨ 0x1000 + p.oramBytes ≤ off

theorem regionOf_of_reserved {p : Params} {off : Nat} (h : reservedOffset p off) :
    regionOf p off = .regs ∧ 0x30 ≤ off ∨ regionOf p off = .above := by
  rw [regionOf_eq_regs_iff, regionOf_eq_above_iff]
  unfold reservedOffset at h
  omega

theorem State.holds_reserved {s : State} {a : BusAccess} (h : reservedOffset s.params (busOffset s.params a)) :
    s.holds a = false := by
  rcases regionOf_of_reserved h with ⟨hregion, -⟩ | hregion <;> simp [State.holds, hregion]

theorem State.accessData_reserved {s : State} {a : BusAccess} (h : reservedOffset s.params (busOffset s.params a)) :
    s.accessData a = 0 := by
  rcases regionOf_of_reserved h with ⟨hregion, hlast⟩ | hregion
  · simp only [State.accessData, hregion, s.readReg_reserved _ hlast]
  · simp only [State.accessData, hregion]

theorem State.accessWrite_reserved {s : State} {a : BusAccess} (h : reservedOffset s.params (busOffset s.params a))
    (d : Word) : s.accessWrite a d = s := by
  rcases regionOf_of_reserved h with ⟨hregion, hlast⟩ | hregion
  · simp only [State.accessWrite, hregion, s.writeReg_reserved _ d hlast]
  · simp only [State.accessWrite, hregion]

theorem performAccess_reserved {s : State} {a : BusAccess} (h : reservedOffset s.params (busOffset s.params a))
    (hok : accessOk s.params (busOffset s.params a) a.size = true) :
    s.performAccess a = { s with answer := some ⟨a, 0, .okay⟩ } := by
  cases hw : a.wdata with
  | none => rw [performAccess_read hok hw, State.accessData_reserved h]
  | some d => rw [performAccess_write hok hw, State.accessWrite_reserved h]

/-- Settles O52, by the access of the reserved space: it is never held, and it is performed without effect. -/
theorem reservedSpaceReadsZero : Obligations.ReservedSpaceReadsZero := by
  intro s a rest hl hi hlo hhi hallowed
  have hreserved : reservedOffset s.params (busOffset s.params a) :=
    hallowed.imp (fun ⟨hlast, hregs, _⟩ => ⟨hlast, hregs⟩) And.left
  have hok : accessOk s.params (busOffset s.params a) a.size = true := by
    rcases hallowed with ⟨-, hregs, hword⟩ | ⟨habove, haligned⟩
    · exact (accessOk_regs_iff hregs).2 hword
    · exact (accessOk_above_regs_iff (Nat.le_of_add_right_le habove)).2 haligned
  exact step_bus_performed hl hi (inWindow_iff.2 ⟨hlo, hhi⟩) (State.holds_reserved hreserved)
    (performAccess_reserved hreserved hok)

/-! ### Reads (R57) -/

/-- A performed read changes nothing but the port's answer. -/
theorem performAccess_of_read (s : State) {a : BusAccess} (hread : a.wdata = none) :
    ∃ answer, s.performAccess a = { s with answer := answer } := by
  obtain ⟨answer, heq | ⟨d, hwrite, -⟩⟩ := s.performAccess_cases a
  · exact ⟨answer, heq⟩
  · rw [hread] at hwrite
    cases hwrite

/-- Settles O53: a read is held or performed, and neither has an effect on the block. -/
theorem readsHaveNoSideEffect : Obligations.ReadsHaveNoSideEffect := by
  intro s a rest hl hi hread hlo hhi
  have hw := inWindow_iff.2 ⟨hlo, hhi⟩
  cases hh : s.holds a with
  | true => exact ⟨s.held ++ [a], none, step_bus_held hl hi hw hh⟩
  | false =>
    obtain ⟨answer, heq⟩ := performAccess_of_read { s with answer := none, inputs := rest } hread
    exact ⟨s.held, answer, step_bus_performed hl hi hw hh heq⟩

/-! ### ORAM accesses (R54, R56) -/

theorem AccessSize.bytes_pos (sz : AccessSize) : 0 < sz.bytes := by cases sz <;> decide

theorem AccessSize.bytes_dvd_oramStart (sz : AccessSize) : sz.bytes ∣ 0x1000 := by cases sz <;> decide

/-- The data of an access are never wider than a word. -/
theorem AccessSize.lanes_le_word (sz : AccessSize) : 256 ^ sz.bytes ≤ 2 ^ 32 := by cases sz <;> decide

/-- A bus write stores lane `i - a` at each ORAM offset `i` of the access and nothing elsewhere, nor past the end of
the ORAM (R54, R52). -/
theorem State.read_busWrite {s : State} (hm : s.oram.wf) (a : Nat) (d : Word) (k i : Nat) :
    (s.busWrite a d k).oram.read i =
      if a ≤ i ∧ i < a + k ∧ i < s.params.oramBytes then BitVec.ofNat 8 (d.toNat / 256 ^ (i - a))
      else s.oram.read i := by
  have hlen : (s.insideOram a (lanes d.toNat k)).length = min (s.params.oramBytes - a) k := by
    rw [State.insideOram_eq_take, List.length_take, length_lanes]
  rw [State.busWrite, State.writeOram_oram, Memory.read_writeBytes hm]
  split_ifs with hin hlane hlane
  · rw [← Option.some.injEq, ← List.getElem?_eq_getElem, State.insideOram_eq_take, List.getElem?_take_of_lt (by omega),
      lanes_getElem? (by omega)]
  · omega
  · omega
  · rfl

section OramAccess

variable {s : State} {a : BusAccess} {o : Nat} (ha : a.addr = s.params.base + 0x1000 + o)

include ha in
theorem busOffset_oram : busOffset s.params a = 0x1000 + o := by
  unfold busOffset
  omega

include ha in
theorem oramOffset_busOffset : oramOffset (busOffset s.params a) = o := by
  rw [busOffset_oram ha]
  unfold oramOffset
  omega

include ha in
/-- An access at an ORAM offset gets OKAY exactly when the offset is aligned to its width (R56). -/
theorem accessOk_oram_iff : accessOk s.params (busOffset s.params a) a.size = true ↔ o % a.size.bytes = 0 := by
  rw [busOffset_oram ha, accessOk_above_regs_iff (by omega), ← Nat.dvd_iff_mod_eq_zero, ← Nat.dvd_iff_mod_eq_zero,
    Nat.dvd_add_right a.size.bytes_dvd_oramStart]

variable (ho : o < s.params.oramBytes)

include ha ho

theorem regionOf_oram_access : regionOf s.params (busOffset s.params a) = .oram := by
  rw [busOffset_oram ha, regionOf_eq_oram_iff]
  omega

/-- The window holds all of the ORAM (R6, R51). -/
theorem inWindow_oram_access (hp : s.params.WellFormed) : inWindow s.params a.addr = true := by
  obtain ⟨-, -, -, hsize, -⟩ := hp
  rw [inWindow_iff]
  omega

theorem holds_oram_access : s.holds a = s.status.busy := by
  simp [State.holds, regionOf_oram_access ha ho]

theorem accessData_oram : s.accessData a = BitVec.ofNat 32 (s.busRead o a.size.bytes) := by
  simp only [State.accessData, regionOf_oram_access ha ho, oramOffset_busOffset ha]

theorem accessWrite_oram (d : Word) : s.accessWrite a d = s.busWrite o d a.size.bytes := by
  simp only [State.accessWrite, regionOf_oram_access ha ho, oramOffset_busOffset ha]

/-- Lane `j` of the data of an ORAM read is the byte at `o + j` (R54). -/
theorem accessData_oram_lane {j : Nat} (hj : j < a.size.bytes) (hin : o + j < s.params.oramBytes) :
    (s.accessData a).toNat / 256 ^ j % 256 = (s.oram.read (o + j)).toNat := by
  have hfits : s.busRead o a.size.bytes < 2 ^ 32 := (s.busRead_lt o _).trans_le a.size.lanes_le_word
  rw [accessData_oram ha ho, BitVec.toNat_ofNat, Nat.mod_eq_of_lt hfits, s.busRead_lane o _ j hj, State.busByte,
    if_pos hin]

/-- A performed aligned ORAM write changes ORAM and the port's answer alone: it stores the lanes that lie in the ORAM,
and no other byte changes (R54, R52). -/
theorem performAccess_oramWrite (hm : s.oram.wf) {d : Word} (haligned : o % a.size.bytes = 0)
    (hw : a.wdata = some d) :
    ∃ m, s.performAccess a = { s with oram := m, answer := some ⟨a, 0, .okay⟩ } ∧
      (∀ j < a.size.bytes, o + j < s.params.oramBytes → (m.read (o + j)).toNat = d.toNat / 256 ^ j % 256) ∧
      ∀ b, b < o ∨ o + a.size.bytes ≤ b ∨ s.params.oramBytes ≤ b → m.read b = s.oram.read b := by
  refine ⟨(s.busWrite o d a.size.bytes).oram, ?_, fun j hj hin => ?_, fun b hb => ?_⟩
  · rw [performAccess_write ((accessOk_oram_iff ha).2 haligned) hw, accessWrite_oram ha ho, State.busWrite_eq]
  · rw [State.read_busWrite hm, if_pos (by omega), Nat.add_sub_cancel_left, BitVec.toNat_ofNat]
  · rw [State.read_busWrite hm, if_neg (by omega)]

/-- While IDLE an ORAM access is performed in the step it arrives in (R58, R59). -/
theorem step_bus_oram_performed (hp : s.params.WellFormed) {rest : List Input} (hl : Listening s)
    (hidle : s.status.busy = false) (hi : s.inputs = .bus a :: rest) {t : State}
    (ht : State.performAccess { s with answer := none, inputs := rest } a = t) : step s = .next t :=
  step_bus_performed hl hi (inWindow_oram_access ha ho hp) ((holds_oram_access ha ho).trans hidle) ht

end OramAccess

/-- Settles O54: while IDLE an ORAM access is performed as it arrives, with the lanes of R54. -/
theorem byteLanesAreLittleEndian : Obligations.ByteLanesAreLittleEndian := by
  intro s sz o rest hp hm hl hidle haligned hinside
  have ho : o < s.params.oramBytes := (Nat.lt_add_of_pos_right sz.bytes_pos).trans_le hinside
  have hin : ∀ j < sz.bytes, o + j < s.params.oramBytes := fun j hj => (Nat.add_lt_add_left hj o).trans_le hinside
  refine ⟨fun hi => ?_, fun d hi => ?_⟩
  · exact ⟨_, step_bus_oram_performed rfl ho hp hl hidle hi
        (performAccess_read ((accessOk_oram_iff rfl).2 haligned) rfl),
      fun j hj => accessData_oram_lane (s := { s with answer := none, inputs := rest }) rfl ho hj (hin j hj)⟩
  · obtain ⟨m, heq, hlanes, hframe⟩ := performAccess_oramWrite
      (s := { s with answer := none, inputs := rest }) (a := ⟨s.params.base + 0x1000 + o, sz, some d⟩)
      rfl ho hm haligned rfl
    exact ⟨m, step_bus_oram_performed rfl ho hp hl hidle hi heq, fun j hj => hlanes j hj (hin j hj),
      fun b hb => hframe b (hb.imp_right .inl)⟩

/-! ### Held accesses (R58) -/

theorem pinNext_eq_false {s : State} (h : ∀ level rest, s.inputs ≠ .rstPin level :: rest) : pinNext s = false := by
  unfold pinNext
  split
  · exact absurd ‹_› (h _ _)
  · rfl

/-- Settles O55: an ORAM access that arrives while BUSY is held, and a held one is performed as it would be on
arrival while IDLE: misaligned, a read, or a write. -/
theorem oramAccessWaitsOutBusy : Obligations.OramAccessWaitsOutBusy := by
  intro s a o hp hm hr ha ho
  refine ⟨fun rest hbusy hi => ?_, fun more hidle hheld hpin => ?_⟩
  · exact step_bus_held ⟨hr, .inr hbusy⟩ hi (inWindow_oram_access ha ho hp) ((holds_oram_access ha ho).trans hbusy)
  have hstep := step_held hidle hheld (pinNext_eq_false hpin)
  by_cases haligned : o % a.size.bytes = 0
  · have hok := (accessOk_oram_iff ha).2 haligned
    cases hw : a.wdata with
    | none =>
      refine ⟨s.oram, _, .okay, hstep.trans (congrArg _ (performAccess_read hok hw)), fun h => absurd haligned h,
        fun _ => rfl, fun _ _ => ⟨rfl, fun j hj hin => ?_⟩, nofun⟩
      exact accessData_oram_lane (s := { s with answer := none, held := more }) ha ho hj hin
    | some d =>
      obtain ⟨m, heq, hstored⟩ := performAccess_oramWrite
        (s := { s with answer := none, held := more }) ha ho hm haligned hw
      refine ⟨m, 0, .okay, hstep.trans (congrArg _ heq), fun h => absurd haligned h, fun _ => rfl, nofun,
        fun w _ hsome => ?_⟩
      obtain rfl := Option.some.inj hsome
      exact hstored
  · have herror : accessOk s.params (busOffset s.params a) a.size = false := by
      rw [← Bool.not_eq_true, accessOk_oram_iff ha]
      exact haligned
    exact ⟨s.oram, 0, .error, hstep.trans (congrArg _ (performAccess_error herror)), fun _ => ⟨rfl, rfl, fun _ => rfl⟩,
      fun h => absurd h haligned, fun h => absurd h haligned, fun _ h => absurd h haligned⟩

/-! ### The RNG port (R62) -/

/-- The block requests a byte exactly while, out of reset, it runs a PADENC past its checks that needs one. -/
theorem State.rngReady_iff {s : State} :
    s.rngReady = true ↔ s.rstN = true ∧ decode s.latch.cmd = .ok .padenc ∧ s.status.busy = true ∧
      padencError s = none ∧ s.ps.length < s.psCount := by
  unfold State.rngReady State.needsPs
  split <;> simp_all [and_assoc]

theorem State.accessWrite_rng (s : State) (a : BusAccess) (d : Word) : (s.accessWrite a d).rng = s.rng := by
  rcases s.accessWrite_cases a d with heq | heq | heq <;> rw [heq]
  · exact s.writeReg_rng _ d
  · rfl

theorem State.performAccess_rng (s : State) (a : BusAccess) : (s.performAccess a).rng = s.rng := by
  obtain ⟨answer, heq | ⟨d, -, heq⟩⟩ := s.performAccess_cases a
  · rw [heq]
  · rw [heq]; exact s.accessWrite_rng a d

theorem State.samplePin_rng (s : State) (level : Bool) : (s.samplePin level).rng = s.rng := by
  cases level with
  | false => exact (congrArg State.rng s.powerOn_eq :)
  | true => rfl

theorem busArrives_rng {s t : State} {a : BusAccess} (h : busArrives s a = .next t) : t.rng = s.rng := by
  obtain ⟨-, -, ⟨-, rfl⟩ | ⟨-, rfl⟩⟩ := busArrives_next_cases h
  · rfl
  · exact s.performAccess_rng a

/-- PADENC takes bytes from the front of the stream, and only if its checks pass and it still needs one (R101). -/
theorem execPadenc_rng {s t : State} (h : exec .padenc s = .next t) :
    t.rng = s.rng ∨ padencError s = none ∧ s.ps.length < s.psCount ∧ ∃ taken, s.rng = taken ++ t.rng := by
  rcases execPadenc_cases h with ⟨e, -, rfl⟩ | ⟨hc, taken, rest, hsplit, hnone, -, hend⟩
  · exact .inl rfl
  have hrng : t.rng = rest := by
    rcases hend with ⟨-, rfl, rfl⟩ | ⟨-, rfl⟩ <;> rfl
  rcases Nat.lt_or_ge s.ps.length s.psCount with hneeds | hfull
  · exact .inr ⟨hc, hneeds, taken, by rw [hsplit, hrng]⟩
  · rw [hnone hfull, List.nil_append] at hsplit
    exact .inl (hrng.trans hsplit.symm)

/-- The engine takes bytes of the stream only while the block requests them (R62). -/
theorem engineTurn_rng {s t : State} (h : engineTurn s = .next t) :
    t.rng = s.rng ∨ s.rngReady = true ∧ ∃ taken, s.rng = taken ++ t.rng := by
  rcases engineTurn_cases h with rfl | ⟨hr, hb, ⟨-, -, rfl⟩ | ⟨i, hdec, hi⟩⟩
  · exact .inl rfl
  · exact .inl rfl
  by_cases hpad : i = .padenc
  · subst hpad
    exact (execPadenc_rng hi).imp_right fun ⟨hc, hneeds, htaken⟩ =>
      ⟨State.rngReady_iff.2 ⟨hr, hdec, hb, hc, hneeds⟩, htaken⟩
  · exact .inl ((exec_changesOnlyDest hi).rng hpad)

/-- Settles O60, by the moves of a step: the source's byte joins the stream, the engine alone takes from it, and every
other move leaves it. -/
theorem rngBytesAreTakenOnlyWhenReady : Obligations.RngBytesAreTakenOnlyWhenReady := by
  refine ⟨fun s b rest hheld hi => ?_, fun s t hstep => ?_⟩
  · rw [step_eq_inputMove hheld]
    simp only [inputMove, hi]
  rcases step_next_cases hstep with ⟨a, rest, -, -, rfl⟩ | ⟨-, he⟩ | ⟨a, rest, -, ha⟩ | ⟨b, rest, hi, rfl⟩ |
    ⟨level, rest, -, rfl⟩
  · exact .inl (State.performAccess_rng _ a)
  · refine (engineTurn_rng he).imp_right fun ⟨hready, htaken⟩ => .inr ?_
    obtain ⟨-, hdec, hb, -⟩ := State.rngReady_iff.1 hready
    exact ⟨hready, hdec, hb, htaken⟩
  · exact .inl (busArrives_rng ha :)
  · exact .inr (.inl ⟨b, rest, hi, rfl⟩)
  · exact .inl (State.samplePin_rng _ level)

end Sys2Proof.Machine

/-! PROOFS. The encoding (30_encoding.md): the opcode map's match and mask columns (R74) against the fields and
formats of R71, R72 and R75, the round trips between words and commands (R74, R76), and the end of an illegal
word (R75, R204). -/

namespace Sys2Proof

/-! ### The fields of a word (R71) -/

theorem wordOp_lt (w : Word) : wordOp w < 256 := by
  have := w.isLt
  unfold wordOp
  omega

theorem word_eq_iff_fields {w v : Word} :
    w = v ↔ wordOp w = wordOp v ∧ wordRd w = wordRd v ∧ wordRa w = wordRa v ∧ wordRb w = wordRb v ∧
      wordRn w = wordRn v ∧ wordRsv w = wordRsv v := by
  constructor
  · rintro rfl
    exact ⟨rfl, rfl, rfl, rfl, rfl, rfl⟩
  · unfold wordOp wordRd wordRa wordRb wordRn wordRsv
    intro h
    apply BitVec.eq_of_toNat_eq
    omega

/-- A 3-bit field of a masked number is the field, masked. -/
theorem and_div_mod_eight (a b lo : Nat) : (a &&& b) / 2 ^ lo % 8 = a / 2 ^ lo % 8 &&& b / 2 ^ lo % 8 := by
  rw [Nat.and_div_two_pow]
  exact Nat.and_mod_two_pow (n := 3)

theorem wordOp_and (w m : Word) : wordOp (w &&& m) = wordOp w &&& wordOp m := by
  unfold wordOp
  rw [BitVec.toNat_and, Nat.and_div_two_pow]

theorem wordRd_and (w m : Word) : wordRd (w &&& m) = wordRd w &&& wordRd m := and_div_mod_eight ..

theorem wordRa_and (w m : Word) : wordRa (w &&& m) = wordRa w &&& wordRa m := and_div_mod_eight ..

theorem wordRb_and (w m : Word) : wordRb (w &&& m) = wordRb w &&& wordRb m := and_div_mod_eight ..

theorem wordRn_and (w m : Word) : wordRn (w &&& m) = wordRn w &&& wordRn m := and_div_mod_eight ..

theorem wordRsv_and (w m : Word) : wordRsv (w &&& m) = wordRsv w &&& wordRsv m := Nat.and_mod_two_pow

/-! ### The four register fields together -/

/-- The values of the register fields rd, ra, rb and rn of a word (R71). -/
@[ext] structure RegFields where
  rd : XReg
  ra : XReg
  rb : XReg
  rn : XReg

def wordRegs (w : Word) : RegFields := ⟨regField w 21, regField w 18, regField w 15, regField w 12⟩

/-- The word with this opcode and these register fields (R74). -/
def RegFields.pack (x : RegFields) (op : Nat) : Word := packWord op x.rd x.ra x.rb x.rn

/-- The fields with 0 in those that the format does not have (R72). -/
def Format.keep (f : Format) (x : RegFields) : RegFields :=
  ⟨bif f.hasRd then x.rd else 0, bif f.hasRa then x.ra else 0, bif f.hasRb then x.rb else 0,
    bif f.hasRn then x.rn else 0⟩

/-- The command that a row of the opcode map gives for these fields (R76). -/
def OpRow.command (r : OpRow) (x : RegFields) : Instr := r.build x.rd x.ra x.rb x.rn

theorem wordOp_pack (x : RegFields) {op : Nat} (h : op < 256) : wordOp (x.pack op) = op :=
  (packWord_fields h ..).1

theorem wordRsv_pack (x : RegFields) {op : Nat} (h : op < 256) : wordRsv (x.pack op) = 0 := by
  obtain ⟨-, -, -, -, -, hrsv⟩ := packWord_fields h x.rd x.ra x.rb x.rn
  exact hrsv

theorem wordRegs_pack (x : RegFields) {op : Nat} (h : op < 256) : wordRegs (x.pack op) = x := by
  obtain ⟨-, hrd, hra, hrb, hrn, -⟩ := packWord_fields h x.rd x.ra x.rb x.rn
  exact congr (congr (congr (congrArg RegFields.mk (Fin.ext hrd)) (Fin.ext hra)) (Fin.ext hrb)) (Fin.ext hrn)

theorem pack_wordRegs {w : Word} (h : wordRsv w = 0) : (wordRegs w).pack (wordOp w) = w := by
  obtain ⟨hop, hrd, hra, hrb, hrn, hrsv⟩ :=
    packWord_fields (wordOp_lt w) (wordRegs w).rd (wordRegs w).ra (wordRegs w).rb (wordRegs w).rn
  exact word_eq_iff_fields.2 ⟨hop, hrd, hra, hrb, hrn, hrsv.trans h.symm⟩

theorem Format.keep_keep (f : Format) (x : RegFields) : f.keep (f.keep x) = f.keep x := by
  cases f <;> rfl

theorem Format.keep_eq_self_iff {f : Format} {x : RegFields} :
    f.keep x = x ↔ (f.hasRd = true ∨ x.rd = 0) ∧ (f.hasRa = true ∨ x.ra = 0) ∧ (f.hasRb = true ∨ x.rb = 0) ∧
      (f.hasRn = true ∨ x.rn = 0) := by
  have kept (has : Bool) (i : XReg) : (bif has then i else 0) = i ↔ has = true ∨ i = 0 := by
    cases has <;> simp [eq_comm]
  simp only [Format.keep, RegFields.ext_iff, ← kept]

/-- A word whose opcode has a format is legal if the fields that the format does not have are 0, and `rsv` (R75). -/
theorem wordWellFormed_iff {w : Word} {f : Format} (hf : formatOfOp (wordOp w) = some f) :
    wordWellFormed w = true ↔ (f.hasRd = true ∨ wordRd w = 0) ∧ (f.hasRa = true ∨ wordRa w = 0) ∧
      (f.hasRb = true ∨ wordRb w = 0) ∧ (f.hasRn = true ∨ wordRn w = 0) ∧ wordRsv w = 0 := by
  simp [wordWellFormed, wordOpAssigned, wordFieldsZero, wordRsvZero, hf, and_assoc]

theorem wordWellFormed_iff_keep {w : Word} {f : Format} (hf : formatOfOp (wordOp w) = some f) :
    wordWellFormed w = true ↔ f.keep (wordRegs w) = wordRegs w ∧ wordRsv w = 0 := by
  simp only [wordWellFormed_iff hf, Format.keep_eq_self_iff, wordRegs, Fin.ext_iff, and_assoc]
  rfl

/-- The three conditions of R75 on the opcode, the fields that the format does not have, and `rsv`. -/
theorem wordWellFormed_eq_false_iff {w : Word} :
    wordWellFormed w = false ↔ formatOfOp (wordOp w) = none ∨
      (∃ f, formatOfOp (wordOp w) = some f ∧
        ((f.hasRd = false ∧ wordRd w ≠ 0) ∨ (f.hasRa = false ∧ wordRa w ≠ 0) ∨
          (f.hasRb = false ∧ wordRb w ≠ 0) ∨ (f.hasRn = false ∧ wordRn w ≠ 0))) ∨
      wordRsv w ≠ 0 := by
  cases hf : formatOfOp (wordOp w) with
  | none => simp [wordWellFormed, wordOpAssigned, hf]
  | some f =>
    rw [← Bool.not_eq_true, wordWellFormed_iff hf]
    simp only [not_and_or, not_or, Bool.not_eq_true, Option.some.injEq, exists_eq_left', reduceCtorEq, false_or,
      or_assoc, ne_eq]

/-! ### The rows of the opcode map (R74) -/

/-- The mask over a register field: no bit of it where the format has the field, else all three. -/
def fieldMask (has : Bool) : Nat := bif has then 0 else 7

/-- What R72 and R74 say of the row of a format: the match column holds the opcode alone, the mask column covers
all but the operand fields, and the command built has the word of that opcode and those operands. -/
structure OpRow.HasFormat (r : OpRow) (f : Format) : Prop where
  format : formatOfOp (wordOp r.value) = some f
  value : r.value = packWord (wordOp r.value) 0 0 0 0
  maskOp : wordOp r.mask = 2 ^ 8 - 1
  maskRd : wordRd r.mask = fieldMask f.hasRd
  maskRa : wordRa r.mask = fieldMask f.hasRa
  maskRb : wordRb r.mask = fieldMask f.hasRb
  maskRn : wordRn r.mask = fieldMask f.hasRn
  maskRsv : wordRsv r.mask = 2 ^ 12 - 1
  encode_command : ∀ x, encode (r.command x) = (f.keep x).pack (wordOp r.value)
  command_keep : ∀ x, r.command (f.keep x) = r.command x

theorem opRows_hasFormat : ∀ r ∈ opRows, ∃ f, r.HasFormat f := by
  simp only [opRows, List.forall_mem_cons, List.not_mem_nil, false_imp_iff, implies_true, and_true]
  and_intros
  all_goals exact ⟨_, rfl, rfl, rfl, rfl, rfl, rfl, rfl, rfl, fun _ => rfl, fun _ => rfl⟩

/-- Every opcode with a format has a row. -/
theorem exists_row_of_format {op : Nat} {f : Format} (hf : formatOfOp op = some f) :
    ∃ r ∈ opRows, wordOp r.value = op := by
  unfold formatOfOp at hf
  split at hf
  case h_16 => cases hf
  all_goals decide

theorem opRows_opcodes_nodup : (opRows.map fun r => wordOp r.value).Nodup := by decide

theorem row_eq_of_opcode_eq {r r' : OpRow} (hr : r ∈ opRows) (hr' : r' ∈ opRows)
    (h : wordOp r.value = wordOp r'.value) : r = r' :=
  List.inj_on_of_nodup_map opRows_opcodes_nodup hr hr' h

/-- Every command is the one that some row gives for some fields. -/
theorem exists_row_command (i : Instr) : ∃ r ∈ opRows, ∃ x, r.command x = i :=
  match i with
  | .nop => ⟨_, List.mem_of_getElem? (i := 0) rfl, ⟨0, 0, 0, 0⟩, rfl⟩
  | .ldn rd => ⟨_, List.mem_of_getElem? (i := 1) rfl, ⟨rd, 0, 0, 0⟩, rfl⟩
  | .stn ra => ⟨_, List.mem_of_getElem? (i := 2) rfl, ⟨0, ra, 0, 0⟩, rfl⟩
  | .mov rd ra => ⟨_, List.mem_of_getElem? (i := 3) rfl, ⟨rd, ra, 0, 0⟩, rfl⟩
  | .cmp ra rb => ⟨_, List.mem_of_getElem? (i := 4) rfl, ⟨0, ra, rb, 0⟩, rfl⟩
  | .bitlen ra => ⟨_, List.mem_of_getElem? (i := 5) rfl, ⟨0, ra, 0, 0⟩, rfl⟩
  | .bytelen ra => ⟨_, List.mem_of_getElem? (i := 6) rfl, ⟨0, ra, 0, 0⟩, rfl⟩
  | .modexp rd ra rb rn => ⟨_, List.mem_of_getElem? (i := 7) rfl, ⟨rd, ra, rb, rn⟩, rfl⟩
  | .montmul rd ra rb rn => ⟨_, List.mem_of_getElem? (i := 8) rfl, ⟨rd, ra, rb, rn⟩, rfl⟩
  | .montin rd ra rn => ⟨_, List.mem_of_getElem? (i := 9) rfl, ⟨rd, ra, 0, rn⟩, rfl⟩
  | .montout rd ra rn => ⟨_, List.mem_of_getElem? (i := 10) rfl, ⟨rd, ra, 0, rn⟩, rfl⟩
  | .padenc => ⟨_, List.mem_of_getElem? (i := 11) rfl, ⟨0, 0, 0, 0⟩, rfl⟩
  | .paddec => ⟨_, List.mem_of_getElem? (i := 12) rfl, ⟨0, 0, 0, 0⟩, rfl⟩
  | .rsaenc rb rn => ⟨_, List.mem_of_getElem? (i := 13) rfl, ⟨0, 0, rb, rn⟩, rfl⟩
  | .rsadec rb rn => ⟨_, List.mem_of_getElem? (i := 14) rfl, ⟨0, 0, rb, rn⟩, rfl⟩

/-! ### The match and mask columns against the formats (R74, R75) -/

theorem and_fieldMask_eq_zero_iff {has : Bool} {n : Nat} (h : n < 8) :
    n &&& fieldMask has = 0 ↔ has = true ∨ n = 0 := by
  cases has with
  | true => simp [fieldMask]
  | false =>
    have hall : n &&& 7 = n := (Nat.and_two_pow_sub_one_eq_mod n 3).trans (Nat.mod_eq_of_lt h)
    simp [fieldMask, hall]

/-- The match and mask columns say what R75 says: a word matches a row exactly if it has the row's opcode and is
legal by its format. -/
theorem matches_row_iff {r : OpRow} (hr : r ∈ opRows) {w : Word} :
    w &&& r.mask = r.value ↔ wordOp w = wordOp r.value ∧ wordWellFormed w = true := by
  obtain ⟨f, hrow⟩ := opRows_hasFormat r hr
  obtain ⟨-, hrd, hra, hrb, hrn, hrsv⟩ := packWord_fields (wordOp_lt r.value) 0 0 0 0
  rw [← hrow.value] at hrd hra hrb hrn hrsv
  have hop : wordOp w &&& 2 ^ 8 - 1 = wordOp w :=
    (Nat.and_two_pow_sub_one_eq_mod _ 8).trans (Nat.mod_eq_of_lt (wordOp_lt w))
  have hlow : wordRsv w &&& 2 ^ 12 - 1 = wordRsv w :=
    (Nat.and_two_pow_sub_one_eq_mod _ 12).trans (Nat.mod_mod _ _)
  rw [word_eq_iff_fields, wordOp_and, wordRd_and, wordRa_and, wordRb_and, wordRn_and, wordRsv_and, hrow.maskOp,
    hrow.maskRd, hrow.maskRa, hrow.maskRb, hrow.maskRn, hrow.maskRsv, hrd, hra, hrb, hrn, hrsv, hop, hlow]
  refine and_congr_right fun heq => ?_
  have hfield (lo : Nat) : w.toNat / 2 ^ lo % 8 < 8 := Nat.mod_lt _ (by decide)
  rw [wordWellFormed_iff (heq ▸ hrow.format)]
  simp only [wordRd, wordRa, wordRb, wordRn, Fin.val_zero, and_fieldMask_eq_zero_iff (hfield _)]

/-! ### What the decoder answers (R76) -/

theorem decodeIn_eq_none_iff {w : Word} {rs : List OpRow} :
    decodeIn w rs = none ↔ ∀ r ∈ rs, w &&& r.mask ≠ r.value := by
  induction rs with
  | nil => simp [decodeIn]
  | cons r rs ih =>
    unfold decodeIn
    split_ifs with h <;> simp [h, ih]

theorem decode_eq_ok_iff {w : Word} {i : Instr} : decode w = .ok i ↔ decodeIn w opRows = some i := by
  unfold decode
  split <;> simp_all

theorem decode_eq_error_iff {w : Word} : (∃ e, decode w = .error e) ↔ decodeIn w opRows = none := by
  unfold decode
  split <;> simp_all

/-- The decoder rejects exactly the words that are illegal by R75. -/
theorem decode_rejects_iff {w : Word} : (∃ e, decode w = .error e) ↔ wordWellFormed w = false := by
  rw [decode_eq_error_iff, decodeIn_eq_none_iff, ← Bool.not_eq_true]
  constructor
  · intro hnone hlegal
    have hassigned : wordOpAssigned w = true := by simp_all [wordWellFormed]
    obtain ⟨f, hf⟩ := Option.isSome_iff_exists.1 hassigned
    obtain ⟨r, hr, hop⟩ := exists_row_of_format hf
    exact hnone r hr ((matches_row_iff hr).2 ⟨hop.symm, hlegal⟩)
  · intro hillegal r hr hmatch
    exact hillegal ((matches_row_iff hr).1 hmatch).2

/-- The command a word decodes to is the one its row gives for its register fields. -/
theorem exists_row_of_decode {w : Word} {i : Instr} (h : decode w = .ok i) :
    ∃ r ∈ opRows, w &&& r.mask = r.value ∧ i = r.command (wordRegs w) :=
  decodeIn_eq_some (decode_eq_ok_iff.1 h)

/-- A word that matches a row decodes to that row's command, because it matches no other. -/
theorem decode_of_matches {r : OpRow} (hr : r ∈ opRows) {w : Word} (hmatch : w &&& r.mask = r.value) :
    decode w = .ok (r.command (wordRegs w)) := by
  obtain ⟨hop, hlegal⟩ := (matches_row_iff hr).1 hmatch
  cases hdec : decode w with
  | error e => exact absurd (decode_rejects_iff.1 ⟨e, hdec⟩) (by simp [hlegal])
  | ok i =>
    obtain ⟨r', hr', hmatch', rfl⟩ := exists_row_of_decode hdec
    have hop' := ((matches_row_iff hr').1 hmatch').1
    rw [row_eq_of_opcode_eq hr' hr (hop'.symm.trans hop)]

/-! ### The round trips (R74, R76) -/

/-- Settles O2: the command is the one some row gives for some fields, its word is that row's opcode with the
fields the format has, and that word matches the row and gives those fields back. -/
theorem decodeOfEncodeIsIdentity : Obligations.DecodeOfEncodeIsIdentity := by
  intro i
  obtain ⟨r, hr, x, rfl⟩ := exists_row_command i
  obtain ⟨f, hrow⟩ := opRows_hasFormat r hr
  have hlt := wordOp_lt r.value
  have hop : wordOp ((f.keep x).pack (wordOp r.value)) = wordOp r.value := wordOp_pack _ hlt
  have hlegal : wordWellFormed ((f.keep x).pack (wordOp r.value)) = true :=
    (wordWellFormed_iff_keep (hop.symm ▸ hrow.format)).2
      ⟨by rw [wordRegs_pack _ hlt, Format.keep_keep], wordRsv_pack _ hlt⟩
  rw [hrow.encode_command, decode_of_matches hr ((matches_row_iff hr).2 ⟨hop, hlegal⟩), wordRegs_pack _ hlt,
    hrow.command_keep]

/-- Settles O3: the word matches a row, so it is legal, and a legal word is its opcode with the fields its format
has. -/
theorem decodedWordIsTheEncoding : Obligations.DecodedWordIsTheEncoding := by
  intro w i hdec
  obtain ⟨r, hr, hmatch, rfl⟩ := exists_row_of_decode hdec
  obtain ⟨f, hrow⟩ := opRows_hasFormat r hr
  obtain ⟨hop, hlegal⟩ := (matches_row_iff hr).1 hmatch
  obtain ⟨hkeep, hrsv⟩ := (wordWellFormed_iff_keep (hop ▸ hrow.format)).1 hlegal
  rw [hrow.encode_command, hkeep, ← hop, pack_wordRegs hrsv]

/-- Settles O4: the word has the opcode of each row it matches, and no two rows have the same opcode. -/
theorem noWordMatchesTwoRows : Obligations.NoWordMatchesTwoRows := by
  intro w j k hj hk
  have hopj := ((matches_row_iff (List.getElem_mem j.isLt)).1 hj).1
  have hopk := ((matches_row_iff (List.getElem_mem k.isLt)).1 hk).1
  apply List.nodup_iff_injective_get.1 (opRows_opcodes_nodup.of_map)
  exact row_eq_of_opcode_eq (List.getElem_mem j.isLt) (List.getElem_mem k.isLt) (hopj.symm.trans hopk)

/-- Settles O5: the decoder rejects the words that are illegal, and those are the words of R75's conditions. -/
theorem illegalWordsAreThoseOfTheFormats : Obligations.IllegalWordsAreThoseOfTheFormats := fun _ =>
  decode_rejects_iff.trans wordWellFormed_eq_false_iff

/-- Settles O1, by evaluation of the decoder. -/
theorem specWordsDecode : Obligations.SpecWordsDecode := by
  unfold Obligations.SpecWordsDecode
  decide

end Sys2Proof

namespace Sys2Proof.Machine

open Sys2Proof

/-! ### The end of an illegal word (R75, R204) -/

theorem engineTurn_of_illegal {s : State} {e : DecodeError} (hdec : decode s.latch.cmd = .error e)
    (hr : s.rstN = true) (hb : s.status.busy = true) : engineTurn s = .next (afterError s .illegalCommand) := by
  unfold engineTurn engineStep
  rw [hr, hb, hdec]
  rfl

/-- Settles O8: while BUSY the step is the engine's turn, which raises IllegalCommand. -/
theorem illegalWordEndsWithIllegalCommand : Obligations.IllegalWordEndsWithIllegalCommand := by
  intro s e hdec hr hb
  rw [step_eq_inputMove (.inr hb)]
  refine ⟨fun rest hi => ?_, fun hi => ?_⟩ <;> simp only [inputMove, hi]
  · exact engineTurn_of_illegal hdec hr hb
  · exact engineTurn_of_illegal hdec hr hb

end Sys2Proof.Machine

/-! PROOFS. The padder (R100 to R110): the errors of PADENC and PADDEC in their order, what each writes, and that
PADDEC undoes PADENC. -/

namespace Sys2Proof.Machine

open Sys2Proof

/-! ### The checks of the padder in their order (R206) -/

/-- The checks of PADENC and of PADDEC: the first two are the same, `bad` is the third, which raises `e`. -/
def padderError (s : State) (bad : Bool) (e : ECode) : Option ECode :=
  firstError [
    (s.lenTooLong || s.klenTooLong, .invalidParameter),
    (s.rangeBad s.aAddr0 s.aLen || s.rangeBad s.aAddr1 s.aKlen, .rangeError),
    (bad, e)]

theorem padencError_eq_padderError (s : State) :
    padencError s = padderError s (decide (s.aKlen < s.aLen + 11)) .messageTooLong := rfl

theorem paddecError_eq_padderError (s : State) :
    paddecError s = padderError s (paddingBad s s.sourceBytes) .invalidPadding := rfl

section ErrorOrder

variable {s : State} {bad : Bool} {e : ECode}

theorem padderError_eq_ite : padderError s bad e =
    if s.params.maxl < s.aLen ∨ s.params.maxl < s.aKlen then some .invalidParameter
    else if s.params.oramBytes < s.aAddr0 + s.aLen ∨ s.params.oramBytes < s.aAddr1 + s.aKlen then some .rangeError
    else if bad then some e else none := by
  simp only [padderError, firstError, State.lenTooLong, State.klenTooLong, State.rangeBad, Bool.or_eq_true,
    decide_eq_true_eq]

theorem padderError_of_tooLong (h : s.params.maxl < s.aLen ∨ s.params.maxl < s.aKlen) :
    padderError s bad e = some .invalidParameter := by
  rw [padderError_eq_ite, if_pos h]

variable (hlen : s.aLen ≤ s.params.maxl) (hklen : s.aKlen ≤ s.params.maxl)

include hlen hklen

theorem padderError_of_rangeBad
    (h : s.params.oramBytes < s.aAddr0 + s.aLen ∨ s.params.oramBytes < s.aAddr1 + s.aKlen) :
    padderError s bad e = some .rangeError := by
  rw [padderError_eq_ite, if_neg (by omega), if_pos h]

theorem padderError_of_bad (hsrc : s.aAddr0 + s.aLen ≤ s.params.oramBytes)
    (hdst : s.aAddr1 + s.aKlen ≤ s.params.oramBytes) (h : bad = true) : padderError s bad e = some e := by
  rw [padderError_eq_ite, if_neg (by omega), if_neg (by omega), if_pos h]

end ErrorOrder

/-! ### PADENC (R100 to R103) -/

theorem execPadenc_of_error {s : State} {e : ECode} (h : padencError s = some e) :
    exec .padenc s = .next (afterError s e) := by
  simp only [exec, execPadenc, h]
  rfl

theorem execPadenc_of_passed {s : State} (h : padencError s = none) : exec .padenc s = .next s.padencDraw := by
  simp only [exec, execPadenc, h]

/-- Settles O31, by the order of the checks; no byte is drawn before they pass. -/
theorem padencRaisesInOrder : Obligations.PadencRaisesInOrder := by
  intro s
  have hraise {e : ECode} (h : padderError s (decide (s.aKlen < s.aLen + 11)) .messageTooLong = some e) :
      exec .padenc s = .next (afterError s e) :=
    execPadenc_of_error ((padencError_eq_padderError s).trans h)
  exact ⟨fun h => hraise (padderError_of_tooLong h), fun hlen hklen =>
    ⟨fun h => hraise (padderError_of_rangeBad hlen hklen h), fun hsrc hdst h =>
      hraise (padderError_of_bad hlen hklen hsrc hdst (decide_eq_true h))⟩⟩

/-- A draw that leaves too few padding bytes only records them (R103). -/
theorem State.padencDraw_of_short {s : State} {drawn rest : List Byte}
    (hdraw : drawPs (s.psCount - s.ps.length) s.rng = (drawn, rest))
    (hshort : s.ps.length + drawn.length < s.psCount) :
    s.padencDraw = { s with ps := s.ps ++ drawn, rng := rest } := by
  simp only [State.padencDraw, hdraw, List.length_append, if_pos hshort]

/-- A draw that leaves enough padding bytes writes the block and completes (R100, R203). -/
theorem State.padencDraw_of_enough {s : State} {drawn rest : List Byte}
    (hdraw : drawPs (s.psCount - s.ps.length) s.rng = (drawn, rest))
    (henough : s.psCount ≤ s.ps.length + drawn.length) :
    s.padencDraw = afterSuccess { s with
      oram := s.oram.writeBytes s.aAddr1 (paddedBlock (s.ps ++ drawn) s.sourceBytes)
      res := s.latch.klen, rng := rest } := by
  have hres : BitVec.ofNat 32 s.aKlen = s.latch.klen := by simp [State.aKlen]
  rw [← hres]
  simp only [State.padencDraw, hdraw, List.length_append, if_neg henough.not_gt]
  rfl

/-- Settles O30: the draw takes the whole stream and still leaves too few padding bytes. -/
theorem padencWaitsForPaddingBytes : Obligations.PadencWaitsForPaddingBytes := by
  intro s hlen hklen hsrc hdst hroom hshort
  have hshort : s.ps.length + (s.rng.filter (· ≠ 0#8)).length < s.psCount := hshort
  rw [execPadenc_of_passed (padencError_eq_none.2 ⟨⟨hlen, hklen⟩, ⟨hsrc, hdst⟩, hroom⟩),
    State.padencDraw_of_short (drawPs_short (by omega)) hshort]

/-- The padding bytes are non-zero: those drawn before by the invariant, those drawn now because a zero byte is
discarded (R101). -/
theorem State.drawn_ne_zero {s : State} (hps : s.psOk) (taken : List Byte) :
    ∀ b ∈ s.ps ++ taken.filter (· ≠ 0#8), b ≠ 0#8 := by
  obtain ⟨hold, -⟩ := hps
  intro b hb
  rcases List.mem_append.1 hb with hb | hb
  · exact hold b hb
  · simpa using (List.mem_filter.1 hb).2

theorem storedAt_writeBytes {m : Memory} (hm : m.wf) (a : Nat) (bs : List Byte) :
    StoredAt m (m.writeBytes a bs) a bs := by
  refine ⟨fun i hi => ?_, fun i hi => Memory.read_writeBytes_outside hm hi⟩
  rw [Memory.read_writeBytes hm, dif_pos (by omega), List.getElem?_eq_getElem hi]
  congr 2
  omega

/-- Settles O29: the draw ends at the last padding byte needed, and the block is written. -/
theorem padencWritesThePaddedBlock : Obligations.PadencWritesThePaddedBlock := by
  intro s taken rest hm hlen hklen hsrc hdst hroom hrng hlast hcount
  have hcount : s.ps.length + (taken.filter (· ≠ 0#8)).length = s.psCount := hcount
  have hdraw : drawPs (s.psCount - s.ps.length) s.rng = (taken.filter (· ≠ 0#8), rest) :=
    hrng ▸ drawPs_append (by omega) hlast
  refine ⟨⟨_, ?_, storedAt_writeBytes hm _ _⟩, fun hps => State.drawn_ne_zero hps taken⟩
  rw [execPadenc_of_passed (padencError_eq_none.2 ⟨⟨hlen, hklen⟩, ⟨hsrc, hdst⟩, hroom⟩),
    State.padencDraw_of_enough hdraw hcount.ge]
  rfl

/-- A PADENC that has completed has written a block with `k` non-zero padding bytes (R100, R101). -/
theorem execPadenc_completed {s t : State} (hm : s.oram.wf) (hps : s.psOk) (hb : s.status.busy = true)
    (h : exec .padenc s = .next t) (hidle : t.status.busy = false) (hok : t.status.err = false) :
    padencError s = none ∧ ∃ ps : List Byte, ps.length = s.psCount ∧ (∀ b ∈ ps, b ≠ 0#8) ∧
      t.oram.readBytes s.aAddr1 s.aKlen = paddedBlock ps s.sourceBytes := by
  rcases execPadenc_cases h with ⟨e, -, rfl⟩ | ⟨hc, taken, rest, -, -, hmax, ⟨-, -, rfl⟩ | ⟨henough, rfl⟩⟩
  · simp at hok
  · exact absurd (hb.symm.trans hidle) (by decide)
  · rw [max_eq_right (State.length_ps_le_psCount hps)] at hmax
    have hlen : (s.ps ++ taken.filter (· ≠ 0#8)).length = s.psCount := by
      rw [List.length_append]
      exact le_antisymm hmax henough
    refine ⟨hc, _, hlen, State.drawn_ne_zero hps taken, ?_⟩
    rw [← length_paddedBlock_of_psCount hc hlen]
    exact Memory.readBytes_writeBytes hm _ _

/-! ### PADDEC (R104 to R106, R109) -/

theorem execPaddec_of_error {s : State} {e : ECode} (h : paddecError s = some e) :
    exec .paddec s = .next (afterError s e) := by
  simp only [exec, execPaddec, h]
  rfl

/-- The state a PADDEC with message `m` ends in. -/
theorem execPaddec_of_passed {s : State} {m : List Byte} (h : paddecError s = none)
    (hmsg : paddedMessage s.sourceBytes = m) : exec .paddec s = .next (afterSuccess { s with
      oram := s.oram.writeBytes s.aAddr1 m, res := BitVec.ofNat 32 m.length }) := by
  subst hmsg
  simp only [exec, execPaddec, h]
  rfl

/-- Each failed sub-check of R206 raises InvalidPadding (R104, R109). -/
theorem paddingBad_eq_true {s : State} (h : s.aLen ≠ s.aKlen ∨ s.aLen < 2 ∨ s.oram.read s.aAddr0 ≠ 0#8 ∨
    s.oram.read (s.aAddr0 + 1) ≠ 2#8 ∨ ∀ j, 2 ≤ j → j < s.aLen → s.oram.read (s.aAddr0 + j) ≠ 0#8) :
    paddingBad s s.sourceBytes = true := by
  by_contra hgood
  obtain ⟨heq, htwo, hfirst, hsecond, hsep⟩ := paddingBad_eq_false.1 (Bool.eq_false_iff.2 hgood)
  rcases h with h | h | h | h | h
  · exact h heq
  · exact h.not_ge htwo
  · exact h hfirst
  · exact h hsecond
  · simp [separator_eq_none.2 h] at hsep

/-- Settles O32: the checks in their order, and past them the bytes after the separator. -/
theorem paddecExtractsTheMessage : Obligations.PaddecExtractsTheMessage := by
  intro s hm
  have hraise {e : ECode} (h : padderError s (paddingBad s s.sourceBytes) .invalidPadding = some e) :
      exec .paddec s = .next (afterError s e) :=
    execPaddec_of_error ((paddecError_eq_padderError s).trans h)
  refine ⟨rfl, fun h => hraise (padderError_of_tooLong h), fun hlen hklen =>
    ⟨fun h => hraise (padderError_of_rangeBad hlen hklen h), fun hsrc hdst => ⟨fun h => ?_, ?_⟩⟩⟩
  · have hbad := paddingBad_eq_true (h.imp_left (mt BitVec.eq_of_toNat_eq))
    exact hraise (padderError_of_bad hlen hklen hsrc hdst hbad)
  · intro p heq hfirst hsecond htwo hp hzero hleast
    have hsep : separator s.sourceBytes = some p := separator_eq_some.2 ⟨htwo, hp, hzero, hleast⟩
    have hgood : paddingBad s s.sourceBytes = false := paddingBad_eq_false.2
      ⟨congrArg BitVec.toNat heq, htwo.trans hp.le, hfirst, hsecond, by simp [hsep]⟩
    have hpass := paddecError_eq_none.2 ⟨⟨hlen, hklen⟩, ⟨hsrc, hdst⟩, hgood⟩
    refine ⟨_, ?_, storedAt_writeBytes hm _ _⟩
    rw [execPaddec_of_passed hpass (paddedMessage_eq hsep), Memory.length_readBytes]
    rfl

/-! ### PADDEC of a padded block (R107) -/

/-- The separator of a padded block follows its padding bytes, because they are non-zero (R102). -/
theorem separator_paddedBlock {ps : List Byte} (hps : ∀ b ∈ ps, b ≠ 0#8) (m : List Byte) :
    separator (paddedBlock ps m) = some (2 + ps.length) := by
  refine zeroIndexFrom_eq_some.2 ⟨ps.length, rfl, by simp [paddedBlock], fun l hl => ?_⟩
  have hdrop : (paddedBlock ps m).drop 2 = ps ++ 0#8 :: m := by simp [paddedBlock]
  have hget : ((paddedBlock ps m).drop 2)[l]? = some ps[l] := by
    rw [hdrop, List.getElem?_append_left hl, List.getElem?_eq_getElem hl]
  simpa [hget] using hps _ (List.getElem_mem hl)

theorem paddedMessage_paddedBlock {ps : List Byte} (hps : ∀ b ∈ ps, b ≠ 0#8) (m : List Byte) :
    paddedMessage (paddedBlock ps m) = m := by
  simp only [paddedMessage, separator_paddedBlock hps]
  have hhead : 2 + ps.length + 1 = ([0#8, 2#8] ++ ps ++ [0#8]).length := by simp; omega
  rw [hhead]
  exact List.drop_left

theorem paddingBad_paddedBlock {s : State} {ps : List Byte} (hps : ∀ b ∈ ps, b ≠ 0#8) (m : List Byte)
    (heq : s.aLen = s.aKlen) (htwo : 2 ≤ s.aKlen) : paddingBad s (paddedBlock ps m) = false := by
  have hfirst : (paddedBlock ps m)[0]? = some 0#8 := rfl
  have hsecond : (paddedBlock ps m)[1]? = some 2#8 := rfl
  rw [paddingBad, hfirst, hsecond, separator_paddedBlock hps]
  simp [heq, Nat.lt_of_succ_le htwo]

/-- Settles O33: PADDEC reads the block PADENC wrote, whose separator is the byte before M. -/
theorem paddecInvertsPadenc : Obligations.PaddecInvertsPadenc := by
  intro s t u hm hps hb _ ht hidle hok hmu hsame hparams haddr0 hlen hklen hdst
  obtain ⟨hc, ps, -, hnz, hblock⟩ := execPadenc_completed hm hps hb ht hidle hok
  obtain ⟨⟨-, hkmax⟩, ⟨-, hinside⟩, hroom⟩ := padencError_eq_none.1 hc
  have huAddr0 : u.aAddr0 = s.aAddr1 := congrArg BitVec.toNat haddr0
  have huLen : u.aLen = s.aKlen := congrArg BitVec.toNat hlen
  have huKlen : u.aKlen = s.aKlen := congrArg BitVec.toNat hklen
  have hsource : u.sourceBytes = paddedBlock ps s.sourceBytes := by
    rw [State.sourceBytes, huAddr0, huLen, Memory.readBytes_congr hsame, hblock]
  have hgood : paddingBad u u.sourceBytes = false :=
    hsource ▸ paddingBad_paddedBlock hnz _ (huLen.trans huKlen.symm) (by omega)
  have hpass : paddecError u = none := by
    refine paddecError_eq_none.2 ⟨?_, ⟨?_, hdst⟩, hgood⟩
    · rw [huLen, huKlen, hparams]
      exact ⟨hkmax, hkmax⟩
    · rw [huAddr0, huLen, hparams]
      exact hinside
  have hmsg : paddedMessage u.sourceBytes = s.sourceBytes := hsource ▸ paddedMessage_paddedBlock hnz _
  refine ⟨_, execPaddec_of_passed hpass hmsg, rfl, rfl, rfl, ?_, ?_⟩
  · rw [length_sourceBytes]
    exact Nat.mod_eq_of_lt s.latch.len.isLt
  · have hread := Memory.readBytes_writeBytes hmu u.aAddr1 s.sourceBytes
    rw [length_sourceBytes] at hread
    exact hread

/-! ### The size of a padded block (R108) -/

/-- The first byte of a block is 0, so the others bound its value. -/
theorem beValue_paddedBlock_lt (ps m : List Byte) :
    beValue (paddedBlock ps m) < 2 ^ (8 * ((paddedBlock ps m).length - 1)) := by
  have hcons : paddedBlock ps m = 0#8 :: (2#8 :: ps ++ [0#8] ++ m) := rfl
  rw [hcons, beValue_cons]
  simpa using beValue_lt (2#8 :: ps ++ [0#8] ++ m)

theorem two_pow_le_of_byteLength {n k : Nat} (h : byteLength n = k) (hk : 0 < k) : 2 ^ (8 * (k - 1)) ≤ n := by
  by_contra hlt
  have hle : byteLength n ≤ k - 1 := (byteLength_le_iff n _).2 (not_le.1 hlt)
  omega

/-- Settles O34: the block starts with a zero byte, and `n` has a non-zero byte in that place. -/
theorem paddedBlockIsBelowTheModulus : Obligations.PaddedBlockIsBelowTheModulus := by
  intro s t n hm hps hb _ ht hidle hok hn
  obtain ⟨hc, ps, hlen, -, hblock⟩ := execPadenc_completed hm hps hb ht hidle hok
  obtain ⟨-, -, hroom⟩ := padencError_eq_none.1 hc
  have hlt : beValue (t.oram.readBytes s.aAddr1 s.aKlen) < 2 ^ (8 * (s.aKlen - 1)) := by
    rw [hblock, ← length_paddedBlock_of_psCount hc hlen]
    exact beValue_paddedBlock_lt ps s.sourceBytes
  exact ⟨hlt, hlt.trans_le (two_pow_le_of_byteLength hn (by omega))⟩

end Sys2Proof.Machine

/-! PROOFS. The RSA core (R120 to R132): loads and stores of integers, lengths, modular exponentiation, and the
pipeline commands with the law that RSADEC undoes RSAENC. -/

namespace Sys2Proof.Machine

open Sys2Proof

/-! ### The end of a command whose checks have run (R203, R204, R206) -/

/-- A command whose checks find an error raises it; PADENC has its own lemma. -/
theorem exec_of_checkError {i : Instr} {s : State} {e : ECode} (hi : i ≠ .padenc) (h : checkError s i = some e) :
    exec i s = .next (afterError s e) := by
  obtain ⟨w, hw, -⟩ := exec_eq_conclude i s hi
  rw [hw, h]
  rfl

/-- A command that ends without ERR has passed its checks and made its writes. -/
theorem conclude_success {s w t : State} {err : Option ECode} (h : conclude s err w = .next t)
    (hok : t.status.err = false) : err = none ∧ t = w.complete := by
  rcases conclude_eq_next h with ⟨e, -, rfl⟩ | hpass
  · simp at hok
  · exact hpass

theorem firstError_of_failed {failed : Bool} (e : ECode) (cs : List (Bool × ECode)) (h : failed = true) :
    firstError ((failed, e) :: cs) = some e := by
  rw [firstError, if_pos h]

theorem firstError_of_passed {failed : Bool} (e : ECode) (cs : List (Bool × ECode)) (h : failed = false) :
    firstError ((failed, e) :: cs) = firstError cs := by
  rw [firstError, if_neg (by simp [h])]

section Checks

variable {s : State}

theorem State.lenTooLong_iff : s.lenTooLong = true ↔ s.params.maxl < s.aLen := decide_eq_true_iff

theorem State.lenTooLong_eq_false_iff : s.lenTooLong = false ↔ s.aLen ≤ s.params.maxl :=
  decide_eq_false_iff_not.trans not_lt

theorem State.rangeBad_iff {a k : Nat} : s.rangeBad a k = true ↔ s.params.oramBytes < a + k := decide_eq_true_iff

theorem State.rangeBad_eq_false_iff {a k : Nat} : s.rangeBad a k = false ↔ a + k ≤ s.params.oramBytes :=
  decide_eq_false_iff_not.trans not_lt

/-- LEN is the first check of LDN, STN and the RSA commands alike. -/
theorem firstError_of_lenTooLong (cs : List (Bool × ECode)) (h : s.params.maxl < s.aLen) :
    firstError ((s.lenTooLong, .invalidParameter) :: cs) = some .invalidParameter :=
  firstError_of_failed _ _ (State.lenTooLong_iff.2 h)

/-- The second check of those commands, `bad`, is on ORAM ranges. -/
theorem firstError_of_rangeError {bad : Bool} (cs : List (Bool × ECode)) (hlen : s.aLen ≤ s.params.maxl)
    (h : bad = true) :
    firstError ((s.lenTooLong, .invalidParameter) :: (bad, .rangeError) :: cs) = some .rangeError :=
  (firstError_of_passed _ _ (State.lenTooLong_eq_false_iff.2 hlen)).trans (firstError_of_failed _ _ h)

end Checks

theorem not_validMod {n : Nat} (h : n % 2 = 0 ∨ n ≤ 1) : validMod n = false := by
  rw [Bool.eq_false_iff, Ne, validMod_iff]
  omega

theorem modulusError_of_invalid {n : Nat} (h : n % 2 = 0 ∨ n ≤ 1) : modulusError n = some .invalidModulus :=
  firstError_of_failed _ _ (by rw [not_validMod h, Bool.not_false])

/-! ### The converters byte by byte (R10, R121, R122) -/

theorem two_pow_eight_mul (k : Nat) : 2 ^ (8 * k) = 256 ^ k := pow_mul 2 8 k

/-- Bytes of ORAM as a big-endian integer: byte `i` of `k` weighs `256^(k-1-i)` (R121). -/
theorem beValue_readBytes (m : Memory) (a k : Nat) : beValue (m.readBytes a k) =
    ∑ i ∈ Finset.range k, (m.read (a + i)).toNat * 256 ^ (k - 1 - i) := by
  induction k generalizing a with
  | zero => rfl
  | succ k ih =>
    rw [Memory.readBytes, beValue_cons, Memory.length_readBytes, ih, Finset.sum_range_succ', two_pow_eight_mul,
      add_comm]
    congr 1
    refine Finset.sum_congr rfl fun i _ => ?_
    rw [show a + 1 + i = a + (i + 1) by omega, show k - 1 - i = k + 1 - 1 - (i + 1) by omega]

/-- Byte `i` of the canonical bytes of `v` (R122). -/
theorem toNat_getElem_canonBytes (v k i : Nat) (h : i < (canonBytes v k).length) :
    (canonBytes v k)[i].toNat = v / 256 ^ (k - 1 - i) % 256 := by
  induction k generalizing i with
  | zero => simp at h
  | succ k ih =>
    cases i with
    | zero => simp [canonBytes_succ, two_pow_eight_mul]
    | succ i =>
      simp only [canonBytes_succ, List.getElem_cons_succ]
      rw [ih i, show k + 1 - 1 - (i + 1) = k - 1 - i by omega]

section CanonicalStore

variable {m : Memory} (hm : m.wf)

include hm

/-- What the bytes of a canonical store read as (R122, R124). -/
theorem Memory.read_writeBytes_canonBytes (a v : Nat) {k j : Nat} (hj : j < k) :
    ((m.writeBytes a (canonBytes v k)).read (a + j)).toNat = v / 256 ^ (k - 1 - j) % 256 := by
  obtain ⟨hstored, -⟩ := storedAt_writeBytes hm a (canonBytes v k)
  have hj' : j < (canonBytes v k).length := by rwa [length_canonBytes]
  have hget := hstored j hj'
  rw [List.getElem?_eq_getElem hj', Option.some_inj] at hget
  rw [← hget, toNat_getElem_canonBytes]

theorem Memory.read_writeBytes_canonBytes_outside (v : Nat) {a k i : Nat} (h : i < a ∨ a + k ≤ i) :
    (m.writeBytes a (canonBytes v k)).read i = m.read i :=
  Memory.read_writeBytes_outside hm (by rwa [length_canonBytes])

theorem Memory.readBytes_writeBytes_canonBytes (a v k : Nat) :
    (m.writeBytes a (canonBytes v k)).readBytes a k = canonBytes v k := by
  have hread := Memory.readBytes_writeBytes hm a (canonBytes v k)
  rwa [length_canonBytes] at hread

end CanonicalStore

/-- The source bytes are the canonical bytes of their own value (R123). -/
theorem canonBytes_beValue_sourceBytes (s : State) : canonBytes (beValue s.sourceBytes) s.aLen = s.sourceBytes := by
  have hcanon := canonBytes_beValue s.sourceBytes
  rwa [length_sourceBytes] at hcanon

/-! ### LDN and STN (R120 to R124) -/

theorem execLdn_of_passed {rd : XReg} {s : State} (hlen : s.aLen ≤ s.params.maxl)
    (hsrc : s.aAddr0 + s.aLen ≤ s.params.oramBytes) :
    exec (.ldn rd) s = .next (afterSuccess (s.writeX rd (beValue s.sourceBytes))) := by
  rw [exec, execLdn, ldnError_eq_none.2 ⟨hlen, hsrc⟩]
  rfl

theorem execStn_of_passed {ra : XReg} {s : State} (hlen : s.aLen ≤ s.params.maxl)
    (hdst : s.aAddr1 + s.aLen ≤ s.params.oramBytes) :
    exec (.stn ra) s = .next (afterSuccess ((s.writeOram s.aAddr1 (canonBytes (s.readX ra) s.aLen)).writeFlags
      (s.flags.store (s.readX ra) s.aLen))) := by
  rw [exec, execStn, stnError_eq_none.2 ⟨hlen, hdst⟩]
  rfl

/-- Settles O15, by the order of the checks and the weight of each byte. -/
theorem ldnLoadsBigEndian : Obligations.LdnLoadsBigEndian := by
  intro rd s
  refine ⟨by simp [encode, toNat_packWord], fun hlong => ?_, fun hlen hrange => ?_, fun hlen hsrc => ?_⟩
  · exact exec_of_checkError nofun (firstError_of_lenTooLong _ hlong)
  · exact exec_of_checkError nofun (firstError_of_rangeError _ hlen (State.rangeBad_iff.2 hrange))
  · rw [execLdn_of_passed hlen hsrc, State.sourceBytes, beValue_readBytes]
    rfl

/-- Settles O16, by the order of the checks and the canonical bytes one by one. -/
theorem stnStoresCanonicalBytes : Obligations.StnStoresCanonicalBytes := by
  intro ra s hm
  refine ⟨by simp [encode, toNat_packWord], fun hlong => ?_, fun hlen hrange => ?_, fun hlen hdst =>
    ⟨_, execStn_of_passed hlen hdst, fun i hi => ?_, fun a ha => ?_⟩⟩
  · exact exec_of_checkError nofun (firstError_of_lenTooLong _ hlong)
  · exact exec_of_checkError nofun (firstError_of_rangeError _ hlen (State.rangeBad_iff.2 hrange))
  · exact Memory.read_writeBytes_canonBytes hm _ _ hi
  · exact Memory.read_writeBytes_canonBytes_outside hm _ ha

/-- Settles O17, by the two laws of the converters (R123). -/
theorem loadAndStoreAreInverse : Obligations.LoadAndStoreAreInverse := by
  constructor
  · intro r s t u v _ hmu hlen hsrc ht hx hulen hlen' hdst hv
    obtain rfl := Host.Outcome.next.inj ((execLdn_of_passed hlen hsrc).symm.trans ht)
    obtain rfl := Host.Outcome.next.inj ((execStn_of_passed hlen' hdst).symm.trans hv)
    have hloaded : u.readX r = beValue s.sourceBytes :=
      (State.readX_congr hx r).trans (State.readX_writeX_self s r _)
    have hsame : u.aLen = s.aLen := congrArg BitVec.toNat hulen
    refine ⟨(Memory.readBytes_writeBytes_canonBytes hmu _ _ _).trans ?_, decide_eq_false ?_⟩
    · rw [hloaded, hsame, canonBytes_beValue_sourceBytes]
      rfl
    · have hlt := beValue_lt s.sourceBytes
      rw [length_sourceBytes] at hlt
      rw [hloaded, hsame]
      exact hlt.not_ge
  · intro ra rd s t u v hm hlen hdst ht horam hparams hulen huaddr hv
    obtain rfl := Host.Outcome.next.inj ((execStn_of_passed hlen hdst).symm.trans ht)
    have hsame : u.aLen = s.aLen := congrArg BitVec.toNat hulen
    have haddr : u.aAddr0 = s.aAddr1 := congrArg BitVec.toNat huaddr
    obtain rfl := Host.Outcome.next.inj
      ((execLdn_of_passed (by rwa [hsame, hparams]) (by rwa [haddr, hsame, hparams])).symm.trans hv)
    have hsource : u.sourceBytes = canonBytes (s.readX ra) s.aLen := by
      rw [State.sourceBytes, haddr, hsame, horam]
      exact Memory.readBytes_writeBytes_canonBytes hm _ _ _
    calc (u.writeX rd (beValue u.sourceBytes)).readX rd
        = beValue (canonBytes (s.readX ra) s.aLen) := by rw [State.readX_writeX_self, hsource]
      _ = s.readX ra % 2 ^ (8 * s.aLen) := beValue_canonBytes _ _

/-! ### BITLEN and BYTELEN (R125, R126) -/

/-- A length of at most 8 * MAXL fits RES (R6, R40). -/
theorem toNat_ofNat_of_le_width {p : Params} (hp : p.WellFormed) {k : Nat} (hk : k ≤ 8 * p.maxl) :
    (BitVec.ofNat 32 k).toNat = k := by
  obtain ⟨-, hmax, -⟩ := hp
  rw [BitVec.toNat_ofNat]
  omega

/-- Settles O19, by the bounds of the bit length. -/
theorem bitlenWritesTheBitLength : Obligations.BitlenWritesTheBitLength := by
  intro ra s hp hx
  have hle : bitLength (s.readX ra) ≤ 8 * s.params.maxl := (bitLength_le_iff _ _).2 hx
  refine ⟨by simp [encode, toNat_packWord], BitVec.ofNat 32 (bitLength (s.readX ra)), rfl, ?_⟩
  rw [toNat_ofNat_of_le_width hp hle]
  refine ⟨hle, fun h0 => by rw [h0, bitLength_zero], fun h0 =>
    ⟨?_, two_pow_bitLength_le h0, lt_two_pow_bitLength _⟩⟩
  by_contra hzero
  have hlt := (bitLength_le_iff (s.readX ra) 0).1 (not_lt.1 hzero)
  omega

/-- Settles O20, by the least number of bytes that hold a value. -/
theorem bytelenWritesTheByteLength : Obligations.BytelenWritesTheByteLength := by
  intro ra s hp hx
  have hle : byteLength (s.readX ra) ≤ s.params.maxl := (byteLength_le_iff _ _).2 hx
  refine ⟨by simp [encode, toNat_packWord], BitVec.ofNat 32 (byteLength (s.readX ra)), rfl, ?_⟩
  rw [toNat_ofNat_of_le_width hp (by omega)]
  exact ⟨hle, fun k => by rw [byteLength_le_iff, two_pow_eight_mul]⟩

/-! ### MODEXP (R127) -/

/-- Settles O21, by the modulus check and the exactness of square-and-multiply. -/
theorem modexpComputesThePower : Obligations.ModexpComputesThePower := by
  intro rd ra rb rn s
  refine ⟨by simp [encode, toNat_packWord], fun hbad => ?_, fun hodd hone => ?_⟩
  · exact exec_of_checkError nofun (modulusError_of_invalid hbad)
  · rw [exec, execModexp, modulusError_eq_none.2 ((validMod_iff _).2 ⟨hodd, hone⟩), powMod_eq]
    rfl

/-! ### RSAENC and RSADEC (R129, R130) -/

/-- The two pipeline commands compute the same function of their operands (R130). -/
theorem execRsadec_eq_execRsaenc (rb rn : XReg) (s : State) : exec (.rsadec rb rn) s = exec (.rsaenc rb rn) s := rfl

theorem execRsaenc_of_error {rb rn : XReg} {s : State} {e : ECode} (h : rsaError s (s.readX rn) = some e) :
    exec (.rsaenc rb rn) s = .next (afterError s e) :=
  exec_of_checkError nofun h

theorem execRsaenc_of_passed {rb rn : XReg} {s : State} (h : rsaError s (s.readX rn) = none) :
    exec (.rsaenc rb rn) s = .next (afterSuccess { s with
      oram := s.oram.writeBytes s.aAddr1
        (canonBytes (beValue s.sourceBytes ^ s.readX rb % s.readX rn) (byteLength (s.readX rn)))
      res := BitVec.ofNat 32 (byteLength (s.readX rn)) }) := by
  rw [exec, execRsaenc, h, State.rsaWrite, powMod_eq]
  rfl

theorem rsaError_of_invalidModulus {s : State} {n : Nat} (hlen : s.aLen ≤ s.params.maxl)
    (hsrc : s.aAddr0 + s.aLen ≤ s.params.oramBytes) (hdst : s.aAddr1 + byteLength n ≤ s.params.oramBytes)
    (h : n % 2 = 0 ∨ n ≤ 1) : rsaError s n = some .invalidModulus := by
  have hrange : (s.rangeBad s.aAddr0 s.aLen || s.rangeBad s.aAddr1 (byteLength n)) = false :=
    Bool.or_eq_false_iff.2 ⟨State.rangeBad_eq_false_iff.2 hsrc, State.rangeBad_eq_false_iff.2 hdst⟩
  rw [rsaError, firstError_of_passed _ _ (State.lenTooLong_eq_false_iff.2 hlen), firstError_of_passed _ _ hrange]
  exact modulusError_of_invalid h

/-- Settles O26: RSADEC is RSAENC, whose checks come in their order and which stores canonical bytes. -/
theorem rsaCommandsWriteThePower : Obligations.RsaCommandsWriteThePower := by
  intro rb rn s i hm hi
  have hexec : exec i s = exec (.rsaenc rb rn) s := by
    rcases hi with rfl | rfl
    · rfl
    · exact execRsadec_eq_execRsaenc rb rn s
  rw [hexec]
  refine ⟨⟨by simp [encode, toNat_packWord], by simp [encode, toNat_packWord]⟩, fun hlong => ?_,
    fun hlen hrange => ?_, fun hlen hsrc hdst => ⟨fun hbad => ?_, fun hodd hone => ?_⟩⟩
  · exact execRsaenc_of_error (firstError_of_lenTooLong _ hlong)
  · have hbad := hrange.imp State.rangeBad_iff.2 State.rangeBad_iff.2
    exact execRsaenc_of_error (firstError_of_rangeError _ hlen (Bool.or_eq_true_iff.2 hbad))
  · exact execRsaenc_of_error (rsaError_of_invalidModulus hlen hsrc hdst hbad)
  · have hpass := rsaError_eq_none.2 ⟨hlen, ⟨hsrc, hdst⟩, (validMod_iff _).2 ⟨hodd, hone⟩⟩
    exact ⟨_, execRsaenc_of_passed hpass, fun j hj => Memory.read_writeBytes_canonBytes hm _ _ hj,
      fun a ha => Memory.read_writeBytes_canonBytes_outside hm _ ha⟩

/-- Settles O27: the three commands hand the same integer on to the same store. -/
theorem pipelineEqualsItsParts : Obligations.PipelineEqualsItsParts := by
  intro t xe xn s s1 s2 s3 s4 s5 r hte htn _ _ _ hr hrok h1 h1ok hx2 ho2 h3 h3ok hx4 ho4 hlen haddr h5 h5ok
  obtain ⟨-, rfl⟩ := conclude_success hr hrok
  obtain ⟨-, rfl⟩ := conclude_success h1 h1ok
  obtain ⟨-, rfl⟩ := conclude_success h3 h3ok
  obtain ⟨-, rfl⟩ := conclude_success h5 h5ok
  have hm : s2.readX t = beValue s.sourceBytes := (State.readX_congr hx2 t).trans (State.readX_writeX_self s t _)
  have he : s2.readX xe = s.readX xe := (State.readX_congr hx2 xe).trans (State.readX_writeX_ne s _ hte.symm)
  have hn : s2.readX xn = s.readX xn := (State.readX_congr hx2 xn).trans (State.readX_writeX_ne s _ htn.symm)
  have hpower : s4.readX t = powMod (beValue s.sourceBytes) (s.readX xe) (s.readX xn) := by
    rw [← hm, ← he, ← hn]
    exact (State.readX_congr hx4 t).trans (State.readX_writeX_self s2 t _)
  have horam : s4.oram = s.oram := ho4.trans ho2
  have hlen : s4.aLen = byteLength (s.readX xn) := hlen
  have haddr : s4.aAddr1 = s.aAddr1 := congrArg BitVec.toNat haddr
  calc s4.oram.writeBytes s4.aAddr1 (canonBytes (s4.readX t) s4.aLen)
      = s.oram.writeBytes s.aAddr1
          (canonBytes (powMod (beValue s.sourceBytes) (s.readX xe) (s.readX xn)) (byteLength (s.readX xn))) := by
        rw [horam, haddr, hpower, hlen]

/-! ### RSADEC undoes RSAENC (R132) -/

/-- Fermat: modulo a prime `p`, an exponent that is 1 mod `p-1`, and not 0, gives back the base. -/
theorem pow_modEq_self {p k : Nat} (hp : p.Prime) (hk : k ≠ 0) (h : k ≡ 1 [MOD p - 1]) (m : Nat) :
    m ^ k ≡ m [MOD p] := by
  have : Fact p.Prime := ⟨hp⟩
  rw [← ZMod.natCast_eq_natCast_iff, Nat.cast_pow]
  by_cases hm : (m : ZMod p) = 0
  · rw [hm, zero_pow hk]
  · rw [pow_eq_pow_of_modEq h (ZMod.pow_card_sub_one_eq_one hm), pow_one]

/-- RSA: exponents that are inverse mod `(p-1)(q-1)` undo each other mod `p*q`. -/
theorem pow_pow_mod_mul_primes {p q e d m : Nat} (hp : p.Prime) (hq : q.Prime) (hpq : p ≠ q)
    (hed : e * d ≡ 1 [MOD (p - 1) * (q - 1)]) (hm : m < p * q) : (m ^ e % (p * q)) ^ d % (p * q) = m := by
  have hmodp : e * d ≡ 1 [MOD p - 1] := hed.of_mul_right _
  have hmodq : e * d ≡ 1 [MOD q - 1] := hed.of_mul_left _
  have hne : e * d ≠ 0 := by
    -- an exponent 0 would need both `p - 1` and `q - 1` to be 1, so `p = q = 2`
    intro h0
    rw [h0] at hmodp hmodq
    have hp1 := Nat.dvd_one.1 ((Nat.modEq_iff_dvd' zero_le_one).1 hmodp)
    have hq1 := Nat.dvd_one.1 ((Nat.modEq_iff_dvd' zero_le_one).1 hmodq)
    omega
  have hback : m ^ (e * d) ≡ m [MOD p * q] :=
    (Nat.modEq_and_modEq_iff_modEq_mul ((Nat.coprime_primes hp hq).2 hpq)).1
      ⟨pow_modEq_self hp hne hmodp m, pow_modEq_self hq hne hmodq m⟩
  calc (m ^ e % (p * q)) ^ d % (p * q)
      = m ^ (e * d) % (p * q) := by rw [← Nat.pow_mod, pow_mul]
    _ = m := Nat.mod_eq_of_modEq hback hm

/-- Settles O28: RSADEC reads the power RSAENC stored, which fits its `L(n)` bytes, and undoes it. -/
theorem rsadecInvertsRsaenc : Obligations.RsadecInvertsRsaenc := by
  intro p q xe xd xn s t u v hp hq hpq hm hn hed hslen hlt _ ht htok hx horam _ haddr hlen _ hv hvok
  obtain ⟨-, rfl⟩ := conclude_success ht htok
  obtain ⟨-, rfl⟩ := conclude_success hv hvok
  have hun : u.readX xn = p * q := (State.readX_congr hx xn).trans hn
  have hud : u.readX xd = s.readX xd := State.readX_congr hx xd
  have hulen : u.aLen = s.aLen := congrArg BitVec.toNat hlen
  have huaddr : u.aAddr0 = s.aAddr1 := congrArg BitVec.toNat haddr
  have hcipher : u.oram = s.oram.writeBytes s.aAddr1
      (canonBytes (beValue s.sourceBytes ^ s.readX xe % (p * q)) s.aLen) := by
    rw [horam, hslen, ← hn, ← powMod_eq]
    rfl
  have hmu : u.oram.wf := hcipher ▸ Memory.wf_writeBytes hm _ _
  have hsmall : beValue s.sourceBytes ^ s.readX xe % (p * q) < 2 ^ (8 * s.aLen) := by
    rw [hslen]
    exact (Nat.mod_lt _ (Nat.mul_pos hp.pos hq.pos)).trans (lt_two_pow_byteLength _)
  have hsource : beValue u.sourceBytes = beValue s.sourceBytes ^ s.readX xe % (p * q) := by
    rw [State.sourceBytes, hulen, huaddr, hcipher, Memory.readBytes_writeBytes_canonBytes hm, beValue_canonBytes,
      Nat.mod_eq_of_lt hsmall]
  have hplain : powMod (beValue u.sourceBytes) (u.readX xd) (u.readX xn) = beValue s.sourceBytes := by
    rw [powMod_eq, hsource, hud, hun, pow_pow_mod_mul_primes hp hq hpq hed hlt]
  calc (u.oram.writeBytes u.aAddr1 (canonBytes (powMod (beValue u.sourceBytes) (u.readX xd) (u.readX xn))
          (byteLength (u.readX xn)))).readBytes u.aAddr1 u.aLen
      = canonBytes (beValue s.sourceBytes) s.aLen := by
        rw [hplain, hun, hulen, hslen, Memory.readBytes_writeBytes_canonBytes hmu]
    _ = s.oram.readBytes s.aAddr0 s.aLen := canonBytes_beValue_sourceBytes s

end Sys2Proof.Machine

/-! PROOFS. The Montgomery commands (R150 to R155): the radix and its inverse, what each command writes, the laws
between the commands, and the bound on every modular result. -/

namespace Sys2Proof.Machine

open Sys2Proof

/-! ### The radix and its inverse (R150) -/

section Radix

variable {n : Nat} (hn : validMod n = true)

include hn

theorem montRInv_pos : 0 < montRInv n := by
  refine Nat.pos_of_ne_zero fun h0 => ?_
  have hinv := montR_mul_montRInv hn
  simp [h0] at hinv

theorem coprime_montR : Nat.Coprime (montR n) n :=
  Nat.Coprime.pow_left _ (Nat.coprime_two_left.2 (Nat.odd_iff.2 ((validMod_iff n).1 hn).1))

/-- R and its inverse cancel mod n. -/
theorem mul_montR_mul_montRInv_modEq (c : Nat) : c * (montR n * montRInv n) ≡ c [MOD n] := by
  have hinv : montR n * montRInv n ≡ 1 [MOD n] :=
    (montR_mul_montRInv hn).trans (Nat.mod_eq_of_lt ((validMod_iff n).1 hn).2).symm
  simpa using hinv.mul_left c

end Radix

/-- Settles O22: R is a power of 2 and n is odd, and `montRInv n` is the inverse. -/
theorem montgomeryRadixHasOneInverse : Obligations.MontgomeryRadixHasOneInverse := by
  intro n hodd hone
  have hn : validMod n = true := (validMod_iff n).2 ⟨hodd, hone⟩
  refine ⟨lt_two_pow_byteLength n, coprime_montR hn, montRInv n,
    ⟨montRInv_pos hn, montRInv_lt hn, montR_mul_montRInv hn⟩, fun r hr => ?_⟩
  obtain ⟨-, hlt, hinv⟩ := hr
  exact montRInv_unique hn hlt hinv

/-! ### What the commands write (R151 to R153) -/

/-- A command whose one check is a valid modulus makes its writes and completes (R203). -/
theorem conclude_of_validMod {s : State} {n : Nat} (hn : validMod n = true) (w : State) :
    conclude s (modulusError n) w = .next (afterSuccess w) := by
  rw [modulusError_eq_none.2 hn]
  rfl

section Valid

variable {s : State} {rn : XReg} (hn : validMod (s.readX rn) = true)

include hn

theorem execMontmul_of_valid (rd ra rb : XReg) : exec (.montmul rd ra rb rn) s =
    .next (afterSuccess (s.writeX rd (s.readX ra * s.readX rb * montRInv (s.readX rn) % s.readX rn))) :=
  conclude_of_validMod hn _

theorem execMontin_of_valid (rd ra : XReg) : exec (.montin rd ra rn) s =
    .next (afterSuccess (s.writeX rd (s.readX ra * montR (s.readX rn) % s.readX rn))) :=
  conclude_of_validMod hn _

theorem execMontout_of_valid (rd ra : XReg) : exec (.montout rd ra rn) s =
    .next (afterSuccess (s.writeX rd (s.readX ra * montRInv (s.readX rn) % s.readX rn))) :=
  conclude_of_validMod hn _

end Valid

/-- Settles O23: the modulus check comes first, and whatever inverts R is `montRInv n`. -/
theorem montgomeryCommandsComputeTheirProducts : Obligations.MontgomeryCommandsComputeTheirProducts := by
  intro rd ra rb rn s
  refine ⟨by simp [encode, toNat_packWord], fun hbad => ?_, fun hodd hone => ?_⟩
  · have herr := modulusError_of_invalid hbad
    exact ⟨exec_of_checkError nofun herr, exec_of_checkError nofun herr, exec_of_checkError nofun herr⟩
  · have hn : validMod (s.readX rn) = true := (validMod_iff _).2 ⟨hodd, hone⟩
    refine ⟨fun r _ hlt hinv => ?_, execMontin_of_valid hn rd ra⟩
    obtain rfl := montRInv_unique hn hlt hinv
    exact ⟨execMontmul_of_valid hn rd ra rb, execMontout_of_valid hn rd ra⟩

/-! ### The laws between the commands (R154) -/

/-- The state `x3After` runs its command in: the operands in X0 and X1, the modulus in X2. -/
def State.withOperands (s : State) (a b n : Nat) : State := ((s.writeX 0 a).writeX 1 b).writeX 2 n

section Operands

variable (s : State) (a b n : Nat)

@[simp] theorem State.withOperands_readX_zero : (s.withOperands a b n).readX 0 = a := by
  rw [State.withOperands, State.readX_writeX_ne _ _ (by decide), State.readX_writeX_ne _ _ (by decide),
    State.readX_writeX_self]

@[simp] theorem State.withOperands_readX_one : (s.withOperands a b n).readX 1 = b := by
  rw [State.withOperands, State.readX_writeX_ne _ _ (by decide), State.readX_writeX_self]

@[simp] theorem State.withOperands_readX_two : (s.withOperands a b n).readX 2 = n :=
  State.readX_writeX_self _ 2 n

end Operands

theorem x3After_of_exec {s : State} {i : Instr} {a b n v : Nat}
    (h : exec i (s.withOperands a b n) = .next (afterSuccess ((s.withOperands a b n).writeX 3 v))) :
    x3After s i a b n = v := by
  have hx3 : x3After s i a b n = ((s.withOperands a b n).writeX 3 v).readX 3 := by
    rw [x3After, ← State.withOperands, h]
    rfl
  rw [hx3, State.readX_writeX_self]

section Laws

variable {n : Nat} (hn : validMod n = true) (s : State)

include hn

theorem montMulOf_eq (a b : Nat) : montMulOf s n a b = a * b * montRInv n % n := by
  have hexec := execMontmul_of_valid (s := s.withOperands a b n) (rn := 2) (by simpa using hn) 3 0 1
  exact x3After_of_exec (by simpa using hexec)

theorem montInOf_eq (a : Nat) : montInOf s n a = a * montR n % n := by
  have hexec := execMontin_of_valid (s := s.withOperands a 0 n) (rn := 2) (by simpa using hn) 3 0
  exact x3After_of_exec (by simpa using hexec)

theorem montOutOf_eq (a : Nat) : montOutOf s n a = a * montRInv n % n := by
  have hexec := execMontout_of_valid (s := s.withOperands a 0 n) (rn := 2) (by simpa using hn) 3 0
  exact x3After_of_exec (by simpa using hexec)

/-- MONTIN depends on its operand mod n only. -/
theorem montInOf_mod (a : Nat) : montInOf s n (a % n) = montInOf s n a := by
  rw [montInOf_eq hn, montInOf_eq hn, Nat.mod_mul_mod]

theorem montOutOf_eq_montMulOf_one (a : Nat) : montOutOf s n a = montMulOf s n a 1 := by
  rw [montOutOf_eq hn, montMulOf_eq hn, mul_one]

/-- With one operand in the domain, MONTMUL is the plain product. -/
theorem montMulOf_montInOf (a b : Nat) : montMulOf s n (montInOf s n a) b = a * b % n := by
  rw [montMulOf_eq hn, montInOf_eq hn]
  calc a * montR n % n * b * montRInv n % n
      = a * montR n * b * montRInv n % n := (((Nat.mod_modEq _ n).mul_right b).mul_right _)
    _ = a * b * (montR n * montRInv n) % n := by ring_nf
    _ = a * b % n := mul_montR_mul_montRInv_modEq hn (a * b)

theorem montOutOf_montInOf (a : Nat) : montOutOf s n (montInOf s n a) = a % n := by
  rw [montOutOf_eq_montMulOf_one hn, montMulOf_montInOf hn, mul_one]

/-- With both operands in the domain, the product stays in the domain. -/
theorem montMulOf_montInOf_montInOf (a b : Nat) :
    montMulOf s n (montInOf s n a) (montInOf s n b) = montInOf s n (a * b) := by
  rw [montMulOf_montInOf hn, montInOf_eq hn, montInOf_eq hn, Nat.mul_mod_mod, mul_assoc]

theorem montPowerOf_eq (a k : Nat) : montPowerOf s n a k = montInOf s n (a ^ (k + 1)) := by
  induction k with
  | zero => rw [montPowerOf, pow_one]
  | succ k ih => rw [montPowerOf, ih, montMulOf_montInOf_montInOf hn, ← pow_succ]

end Laws

/-- Settles O24: each law by what MONTMUL does to operands in the domain. -/
theorem montgomeryLawsHold : Obligations.MontgomeryLawsHold := by
  intro s n a b hodd hone
  have hn : validMod n = true := (validMod_iff n).2 ⟨hodd, hone⟩
  refine ⟨montOutOf_montInOf hn s a, ?_, montMulOf_montInOf hn s a b, montOutOf_eq_montMulOf_one hn s a,
    fun k => ?_⟩
  · rw [montMulOf_montInOf_montInOf hn, montInOf_mod hn]
  · rw [montPowerOf_eq hn, montOutOf_montInOf hn]

/-! ### Full reduction (R155) -/

/-- MODEXP and the Montgomery commands check the modulus and write a residue. -/
theorem exec_modular_eq_conclude {i : Instr} {rd ra rb rn : XReg} (s : State)
    (hi : i = .modexp rd ra rb rn ∨ i = .montmul rd ra rb rn ∨ i = .montin rd ra rn ∨ i = .montout rd ra rn) :
    ∃ v, exec i s = conclude s (modulusError (s.readX rn)) (s.writeX rd (v % s.readX rn)) := by
  rcases hi with rfl | rfl | rfl | rfl
  · exact ⟨s.readX ra ^ s.readX rb, by rw [exec, execModexp, powMod_eq]⟩
  · exact ⟨s.readX ra * s.readX rb * montRInv (s.readX rn), rfl⟩
  · exact ⟨s.readX ra * montR (s.readX rn), rfl⟩
  · exact ⟨s.readX ra * montRInv (s.readX rn), rfl⟩

/-- Settles O25: without ERR the check has passed, so n is positive and bounds the residue written. -/
theorem modularResultsAreFullyReduced : Obligations.ModularResultsAreFullyReduced := by
  intro i rd ra rb rn s t hi _ ht hok
  obtain ⟨v, hv⟩ := exec_modular_eq_conclude s hi
  obtain ⟨hpass, rfl⟩ := conclude_success (hv.symm.trans ht) hok
  obtain ⟨-, hone⟩ := (validMod_iff _).1 (modulusError_eq_none.1 hpass)
  calc (s.writeX rd (v % s.readX rn)).readX rd
      = v % s.readX rn := State.readX_writeX_self s rd _
    _ < s.readX rn := Nat.mod_lt v (by omega)

end Sys2Proof.Machine

/-! PROOFS. Comparison and move (R170 to R172): the comparison of full values, the register copy, and the command
that does nothing with its one legal word. -/

namespace Sys2Proof.Machine

open Sys2Proof

/-! ### CMP (R170) -/

/-- Two values are equal, rising or falling, and only one of these. -/
theorem Flags.compare_exactly_one (f : Flags) (a b : Nat) :
    (f.compare a b).eq.toNat + (f.compare a b).lt.toNat + (f.compare a b).gt.toNat = 1 := by
  rcases Nat.lt_trichotomy a b with hlt | heq | hgt
  · simp [Flags.compare, hlt, hlt.ne, hlt.not_gt]
  · simp [Flags.compare, heq]
  · simp [Flags.compare, hgt, hgt.ne', hgt.not_gt]

/-- Settles O18: the flags CMP writes are `Flags.compare` of the two registers. -/
theorem cmpComparesFullValues : Obligations.CmpComparesFullValues := by
  intro ra rb s
  refine ⟨by simp [encode, toNat_packWord], s.flags.compare (s.readX ra) (s.readX rb),
    conclude_none s (s.writeFlags _), decide_eq_true_iff, decide_eq_true_iff, decide_eq_true_iff,
    Flags.compare_exactly_one .., rfl⟩

/-! ### NOP and MOV (R171, R172) -/

theorem encode_nop : encode .nop = 0x00000000 := rfl

/-- A word decodes to a command exactly if it is that command's word (R74, R76). -/
theorem decode_eq_ok_iff_encode {w : Word} {i : Instr} : decode w = .ok i ↔ w = encode i := by
  constructor
  · intro hdec
    exact (decodedWordIsTheEncoding w i hdec).symm
  · rintro rfl
    exact decodeOfEncodeIsIdentity i

/-- Settles O13: NOP has no checks and writes nothing, and each command has one word. -/
theorem nopOnlyCompletes : Obligations.NopOnlyCompletes := by
  refine ⟨fun s => conclude_none s s, fun w _ => ?_⟩
  rw [decode_eq_ok_iff_encode, encode_nop]

/-- Settles O14: MOV has no checks, and its one write is that of x[rd]. -/
theorem movCopiesTheRegister : Obligations.MovCopiesTheRegister := by
  intro rd ra s
  exact ⟨by simp [encode, toNat_packWord], conclude_none s (s.writeX rd (s.readX ra))⟩

end Sys2Proof.Machine

/-! PROOFS. Exceptions (R200 to R214): the engine's turn, the acceptance of a command, the precision and the causes
of errors, and the interrupt. -/

namespace Sys2Proof.Machine

open Sys2Proof

/-! ### Errors (R204, R207, R212) -/

/-- ERR is newly set by the checks of a command alone, and then nothing but STATUS has changed (R204, R212). -/
theorem exec_newly_err {i : Instr} {s t : State} (hs : s.status.err = false) (h : exec i s = .next t)
    (ht : t.status.err = true) : ∃ e, checkError s i = some e ∧ t = afterError s e := by
  by_cases hi : i = .padenc
  · subst hi
    rcases execPadenc_cases h with ⟨e, hc, rfl⟩ | ⟨-, taken, rest, -, -, -, ⟨-, -, rfl⟩ | ⟨-, rfl⟩⟩
    · exact ⟨e, hc, rfl⟩
    · exact absurd (hs.symm.trans ht) (by decide)
    · exact absurd (hs.symm.trans ht) (by decide)
  · rcases exec_cases hi h with ⟨e, hc, rfl⟩ | ⟨-, w, -, hstatus, rfl⟩
    · exact ⟨e, hc, rfl⟩
    · have hw : w.status.err = true := ht
      rw [hstatus, hs] at hw
      cases hw

/-- Settles O10: the error is one of the checks', and no check raises NONE. -/
theorem errorsArePrecise : Obligations.ErrorsArePrecise := by
  intro i s t hs h ht
  obtain ⟨e, hc, rfl⟩ := exec_newly_err hs h ht
  exact ⟨(checkError_allowed hc).2, rfl⟩

/-- Settles O11: the error is one of the checks', and each command's checks raise the codes of its row. -/
theorem commandsRaiseOnlyTheirErrors : Obligations.CommandsRaiseOnlyTheirErrors := by
  intro i s t hs h ht
  obtain ⟨e, hc, rfl⟩ := exec_newly_err hs h ht
  have hrow : e ∈ canRaise i := (checkError_allowed hc).1
  cases i <;> exact hrow

/-! ### The interrupt (R210, R211) -/

/-- Settles O58, by the definition of the output. -/
theorem irqIsEnabledDoneOrOverrun : Obligations.IrqIsEnabledDoneOrOverrun := by
  intro s
  simp only [State.irq, Bool.and_eq_true, Bool.or_eq_true]

/-- No interrupt is raised where none is enabled. -/
theorem State.irq_of_disabled {s : State} (h : s.ie = false) : s.irq = false := by
  rw [State.irq, h, Bool.false_and]

/-- No interrupt is raised where no source stands. -/
theorem State.irq_of_no_source {s : State} (hdone : s.status.done = false) (hovr : s.status.ovr = false) :
    s.irq = false := by
  rw [State.irq, hdone, hovr, Bool.or_self, Bool.and_false]

/-- A STATUS bit is 0 after a write of 1 to it, and where it was 0 before (R34). -/
theorem clearedBit_eq_false {b written : Bool} (h : written = true ∨ b = false) : (b && !written) = false := by
  rcases h with rfl | rfl
  · exact Bool.and_false b
  · rfl

/-- A CTRL write of IE = 0, or of SRST = 1 whatever it writes to IE, disables the interrupt (R33, R232). -/
theorem State.writeCtrl_ie_eq_false (s : State) {d : Word} (h : d[0] = false ∨ d[1] = true) :
    (s.writeCtrl d).ie = false := by
  unfold State.writeCtrl
  split
  · rfl
  · exact h.resolve_right ‹_›

theorem State.powerOn_ie (s : State) : s.powerOn.ie = false := (congrArg State.ie s.powerOn_eq :)

/-! ### The acceptance of a command (R201, R35) -/

/-- A CMD write while IDLE is accepted. -/
theorem State.writeCmd_of_idle {s : State} (h : s.status.busy = false) (w : Word) : s.writeCmd w = s.accept w := by
  rw [State.writeCmd, h, if_neg Bool.false_ne_true]

/-- A CMD write while BUSY is dropped with OVR set. -/
theorem State.writeCmd_of_busy {s : State} (h : s.status.busy = true) (w : Word) :
    s.writeCmd w = { s with status := { s.status with ovr := true } } := by
  rw [State.writeCmd, h, if_pos rfl]

/-- Settles O9, by the write of CMD. -/
theorem cmdWriteIsAcceptedOrDropped : Obligations.CmdWriteIsAcceptedOrDropped := by
  intro s w rest hl hi
  have hstep := step_regWrite hl hi (by decide) (by decide)
  refine ⟨0, fun hidle => hstep.trans ?_, fun hbusy => hstep.trans ?_⟩
  · rw [State.writeReg, State.writeCmd_of_idle (s := { s with inputs := rest, answer := none }) hidle]
    rfl
  · rw [State.writeReg, State.writeCmd_of_busy (s := { s with inputs := rest, answer := none }) hbusy]

/-- Settles O59: a STATUS write and an acceptance leave no source, a CTRL write and a reset leave IE at 0. -/
theorem interruptIsCleared : Obligations.InterruptIsCleared := by
  intro s t d rest hl hstep
  refine ⟨fun hi hdone hovr => ?status, fun hi hidle hovr => ?accept, fun hi hd => ?ctrl, fun hi => ?pin⟩
  case status =>
    obtain rfl := Host.Outcome.next.inj (hstep.symm.trans (step_regWrite hl hi (by decide) (by decide)))
    exact State.irq_of_no_source (clearedBit_eq_false hdone) (clearedBit_eq_false hovr)
  case accept =>
    obtain ⟨_, haccept, -⟩ := cmdWriteIsAcceptedOrDropped s d rest hl hi
    obtain rfl := Host.Outcome.next.inj (hstep.symm.trans (haccept hidle))
    exact State.irq_of_no_source rfl hovr
  case ctrl =>
    obtain rfl := Host.Outcome.next.inj (hstep.symm.trans (step_regWrite hl hi (by decide) (by decide)))
    exact State.irq_of_disabled (State.writeCtrl_ie_eq_false _ hd)
  case pin =>
    obtain rfl := Host.Outcome.next.inj (hstep.symm.trans (step_rstPin hi))
    exact State.irq_of_disabled (State.powerOn_ie _)

/-! ### The engine's turn (R200, R202, R220) -/

/-- The engine has its turn when its move stands at the head of the inputs, and when no input is left (log 5). -/
theorem step_eq_engineTurn {s : State} (h : s.held = [] ∨ s.status.busy = true) :
    (∀ rest, s.inputs = .engine :: rest → step s = engineTurn { s with inputs := rest, answer := none }) ∧
      (s.inputs = [] → step s = engineTurn { s with answer := none }) := by
  rw [step_eq_inputMove h]
  exact ⟨fun rest hi => by simp only [inputMove, hi], fun hi => by simp only [inputMove, hi]⟩

theorem engineTurn_of_idle {s : State} (h : s.status.busy = false) : engineTurn s = .next s := by
  simp [engineTurn, h]

theorem engineTurn_of_decoded {s : State} {i : Instr} (hdec : decode s.latch.cmd = .ok i) (hr : s.rstN = true)
    (hb : s.status.busy = true) : engineTurn s = exec i s := by
  simp [engineTurn, engineStep, hr, hb, hdec]

/-- Settles O46, by the engine's turn while IDLE. -/
theorem idleEngineDoesNothing : Obligations.IdleEngineDoesNothing := by
  intro s rest hidle hheld
  obtain ⟨hengine, hnone⟩ := step_eq_engineTurn (.inl hheld)
  exact ⟨fun hi => (hengine rest hi).trans (engineTurn_of_idle hidle),
    fun hi => (hnone hi).trans (engineTurn_of_idle hidle)⟩

/-- Settles O6, by the engine's turn while BUSY. -/
theorem stepRunsTheDecodedCommand : Obligations.StepRunsTheDecodedCommand := by
  intro s i hdec hr hb
  obtain ⟨hengine, hnone⟩ := step_eq_engineTurn (.inr hb)
  exact ⟨fun rest hi => (hengine rest hi).trans (engineTurn_of_decoded hdec hr hb),
    fun hi => (hnone hi).trans (engineTurn_of_decoded hdec hr hb)⟩

/-- Settles O7: the state is BUSY with the command's own word latched and the engine's move next. -/
theorem fetchWordRunsTheEncodedCommand : Obligations.FetchWordRunsTheEncodedCommand := by
  intro s i
  have hword : (s.withFetchWord 32 (encode i).toNat).latch.cmd = encode i := tableWord_toNat (encode i)
  have hdec : decode (s.withFetchWord 32 (encode i).toNat).latch.cmd = .ok i := by
    rw [hword, decodeOfEncodeIsIdentity]
  obtain ⟨hengine, -⟩ := stepRunsTheDecodedCommand _ i hdec rfl rfl
  rw [hengine s.inputs rfl, State.withFetchWord, tableWord_toNat]
  rfl

end Sys2Proof.Machine

/-! PROOFS. Reset and hazards (R230 to R233, R243, R244): what the two resets leave, what an aborted command may
touch, that commands complete, and that a running one shows no result. -/

namespace Sys2Proof.Machine

open Sys2Proof

/-! ### Completion (R203, R204, R244) -/

/-- Settles O12: a command but PADENC raises the error of its checks or completes from what it has written. -/
theorem everyCommandButPadencCompletes : Obligations.EveryCommandButPadencCompletes := by
  intro i s hi
  obtain ⟨w, hw, hstatus⟩ := exec_eq_conclude i s hi
  rw [hw]
  cases checkError s i with
  | some e => exact ⟨s.raise e, rfl, rfl, rfl, rfl, .inr rfl⟩
  | none => exact ⟨w.complete, rfl, rfl, rfl, by simp [hstatus], .inl (by simp [hstatus])⟩

/-! ### The power-on reset (R230) -/

theorem State.powerOn_rstN (s : State) : s.powerOn.rstN = false := (congrArg State.rstN s.powerOn_eq :)

theorem State.powerOn_busy (s : State) : s.powerOn.status.busy = false :=
  (congrArg (fun t : State => t.status.busy) s.powerOn_eq :)

theorem State.rngReady_of_reset {s : State} (h : s.rstN = false) : s.rngReady = false := by
  rw [State.rngReady, h, Bool.false_and]

/-- Settles O44: the pin is sampled whatever is held, and at 0 the block takes the values of the power-on reset. -/
theorem powerOnResetClearsTheRegisters : Obligations.PowerOnResetClearsTheRegisters := by
  intro s rest
  exact ⟨fun hi => ⟨_, step_rstPin hi, State.powerOn_eq _, State.irq_of_disabled (State.powerOn_ie _),
    State.rngReady_of_reset (State.powerOn_rstN _)⟩, fun hi => step_rstPin hi⟩

theorem engineTurn_of_reset {s : State} (h : s.rstN = false) : engineTurn s = .next s := by
  simp [engineTurn, h]

theorem busArrives_of_reset {s : State} (h : s.rstN = false) (a : BusAccess) :
    busArrives s a = .refused .accessDuringReset := by
  simp [busArrives, h]

/-- Settles O45, by the moves of the host and of the engine in reset. -/
theorem nothingRunsInReset : Obligations.NothingRunsInReset := by
  intro s rest hr hheld
  obtain ⟨hengine, hnone⟩ := step_eq_engineTurn (.inl hheld)
  exact ⟨fun a hi => (step_bus (.inl hheld) hi).trans
      (busArrives_of_reset (s := { s with answer := none, inputs := rest }) hr a),
    fun hi => (hengine rest hi).trans (engineTurn_of_reset hr),
    fun hi => (hnone hi).trans (engineTurn_of_reset hr)⟩

/-! ### The soft reset (R232, R233) -/

/-- A CTRL write with SRST = 1 resets the block in that step, whether a command runs or not. -/
theorem step_softReset {s : State} {d : Word} {rest : List Input} (hl : Listening s) (hd : d[1] = true)
    (hi : s.inputs = .bus (regWriteAccess s 0x00C d) :: rest) :
    step s = .next { State.softReset { s with ie := d[0], inputs := rest, answer := none } with
      answer := some ⟨regWriteAccess s 0x00C d, 0, .okay⟩ } := by
  rw [step_regWrite hl hi (by decide) (by decide), State.writeReg, State.writeCtrl, if_pos hd]

/-- Settles O42, by the soft reset field by field; an IDLE block has no command to abort. -/
theorem softResetClearsTheRegisters : Obligations.SoftResetClearsTheRegisters := by
  intro s d rest hl hd hi
  refine ⟨_, step_softReset hl hd hi, ?_, fun hidle => ?_⟩
  · rw [State.softReset_eq]
    rfl
  · have habort := State.abort_of_idle (s := { s with ie := d[0], inputs := rest, answer := none }) hidle
    exact ⟨(congrArg State.x habort :), (congrArg State.oram habort :)⟩

theorem destX_eq_some_iff {i : Instr} {r : XReg} : destX i = some r ↔ mayWriteX i r := by
  cases i <;> simp [destX, mayWriteX, eq_comm]

theorem mayWriteOram_of_destOram {s : State} {i : Instr} {a k : Nat} (h : destOram s i = some (a, k)) {b : Nat}
    (hle : a ≤ b) (hlt : b < a + k) : mayWriteOram s i b := by
  cases i <;> simp only [destOram, reduceCtorEq, Option.some.injEq, Prod.mk.injEq] at h <;>
    obtain ⟨rfl, rfl⟩ := h <;> exact ⟨hle, hlt⟩

/-- All an abort can do to the destination of command `i`: free its register, free its ORAM range, or nothing. -/
theorem State.abortDest_cases (s : State) (i : Instr) :
    (∃ r, mayWriteX i r ∧ s.abortDest i = s.freeX r) ∨
      (∃ a k, (∀ b, a ≤ b → b < a + k → mayWriteOram s i b) ∧ s.abortDest i = s.freeOram a k) ∨
      s.abortDest i = s := by
  unfold State.abortDest
  split
  · exact .inl ⟨_, destX_eq_some_iff.1 ‹_›, rfl⟩
  · split
    · exact .inr (.inl ⟨_, _, fun _ => mayWriteOram_of_destOram ‹_›, rfl⟩)
    · exact .inr (.inr rfl)

/-- A reset that ends command `i`, run from `s`, may leave `t`: its register is below `2^W` or as it was, and every
other register, and every ORAM byte outside its range, is as it was (R233). -/
structure TouchesOnlyDest (i : Instr) (s t : State) : Prop where
  other : ∀ r, ¬ mayWriteX i r → t.readX r = s.readX r
  dest : ∀ r, mayWriteX i r → t.readX r = s.readX r ∨ t.readX r < 2 ^ s.params.width
  oram : ∀ a, ¬ mayWriteOram s i a → t.oram.read a = s.oram.read a

namespace TouchesOnlyDest

theorem refl (i : Instr) (s : State) : TouchesOnlyDest i s s := ⟨fun _ _ => rfl, fun _ _ => .inl rfl, fun _ _ => rfl⟩

theorem freeX {i : Instr} {r : XReg} (s : State) (hr : mayWriteX i r) : TouchesOnlyDest i s (s.freeX r) where
  other j hj := State.readX_freeX_ne s fun e => hj (e ▸ hr)
  dest j _ := by
    by_cases hj : j = r
    · subst hj
      exact .inr (State.readX_freeX_self s j ▸ Nat.mod_lt _ (Nat.two_pow_pos _))
    · exact .inl (State.readX_freeX_ne s hj)
  oram _ _ := rfl

theorem freeOram {i : Instr} {s : State} (hwf : s.oram.wf) {a k : Nat}
    (hdest : ∀ b, a ≤ b → b < a + k → mayWriteOram s i b) : TouchesOnlyDest i s (s.freeOram a k) where
  other _ _ := rfl
  dest _ _ := .inl rfl
  oram b hb := by
    refine Memory.read_writeBytes_outside hwf ?_
    by_contra hin
    rw [length_freeBytes] at hin
    exact hb (hdest b (by omega) (by omega))

end TouchesOnlyDest

theorem State.abortDest_touchesOnlyDest {s : State} (hwf : s.oram.wf) (i : Instr) :
    TouchesOnlyDest i s (s.abortDest i) := by
  rcases s.abortDest_cases i with ⟨r, hr, heq⟩ | ⟨a, k, hdest, heq⟩ | heq <;> rw [heq]
  · exact .freeX s hr
  · exact .freeOram hwf hdest
  · exact .refl i s

theorem State.abort_of_illegal {s : State} {e : DecodeError} (h : decode s.latch.cmd = .error e) : s.abort = s := by
  simp [State.abort, h]

/-- A command that would have raised an error loses nothing to a reset (R233). -/
theorem State.abort_of_checkError {s : State} {i : Instr} {e : ECode} (hdec : decode s.latch.cmd = .ok i)
    (h : checkError s i = some e) : s.abort = s := by
  simp [State.abort, hdec, h]

theorem State.abort_of_passed {s : State} {i : Instr} (hb : s.status.busy = true) (hdec : decode s.latch.cmd = .ok i)
    (h : checkError s i = none) : s.abort = s.abortDest i := by
  simp [State.abort, hb, hdec, h]

theorem State.abort_touchesOnlyDest {s : State} {i : Instr} (hb : s.status.busy = true) (hwf : s.oram.wf)
    (hdec : decode s.latch.cmd = .ok i) : TouchesOnlyDest i s s.abort := by
  cases hc : checkError s i with
  | some e =>
    rw [State.abort_of_checkError hdec hc]
    exact .refl i s
  | none =>
    rw [State.abort_of_passed hb hdec hc]
    exact State.abortDest_touchesOnlyDest hwf i

/-- Settles O43: the soft reset keeps what the abort leaves, which touches the destination of a command past its
checks alone. -/
theorem abortTouchesOnlyTheDestination : Obligations.AbortTouchesOnlyTheDestination := by
  intro s t d rest hr hb hwf hd hi hstep
  let u : State := { s with ie := d[0], inputs := rest, answer := none }
  obtain rfl := Host.Outcome.next.inj (hstep.symm.trans (step_softReset ⟨hr, .inr hb⟩ hd hi))
  refine ⟨fun i hdec => ?_, fun ⟨e, he⟩ => ?_⟩
  · obtain ⟨hother, hdest, horam⟩ := State.abort_touchesOnlyDest (s := u) hb hwf hdec
    refine ⟨hother, hdest, horam, fun v hv hs hv' => ?_⟩
    obtain ⟨e, hc, -⟩ := exec_newly_err hs hv hv'
    have habort : u.abort = u := State.abort_of_checkError hdec hc
    exact ⟨(congrArg State.x habort :), (congrArg State.oram habort :)⟩
  · have habort : u.abort = u := State.abort_of_illegal he
    exact ⟨(congrArg State.x habort :), (congrArg State.oram habort :)⟩

/-! ### While a command runs (R203, R243) -/

/-- `t` holds the results and the latches of `s`, and records no completion that `s` does not. -/
structure KeepsResults (s t : State) : Prop where
  res : t.res = s.res
  flags : t.flags = s.flags
  ecode : t.status.ecode = s.status.ecode
  x : t.x = s.x
  oram : t.oram = s.oram
  latch : t.latch = s.latch
  done : t.status.done = true → s.status.done = true

namespace KeepsResults

variable {s t : State}

theorem refl (s : State) : KeepsResults s s := ⟨rfl, rfl, rfl, rfl, rfl, rfl, id⟩

/-- The answer at the bus port is no result. -/
theorem to_answer (h : KeepsResults s t) (answer : Option BusAnswer) : KeepsResults s { t with answer := answer } :=
  ⟨h.res, h.flags, h.ecode, h.x, h.oram, h.latch, h.done⟩

/-- Neither the answer nor the inputs a step starts from are results. -/
theorem of_ports {answer : Option BusAnswer} {inputs : List Input}
    (h : KeepsResults { s with answer := answer, inputs := inputs } t) : KeepsResults s t :=
  ⟨h.res, h.flags, h.ecode, h.x, h.oram, h.latch, h.done⟩

end KeepsResults

/-- Only a PADENC that waits for padding bytes is still BUSY after the engine's turn (R103, R203, R204). -/
theorem exec_of_busy {i : Instr} {s t : State} (h : exec i s = .next t) (hb : t.status.busy = true) :
    ∃ ps rng, t = { s with ps := ps, rng := rng } := by
  by_cases hi : i = .padenc
  · subst hi
    rcases execPadenc_cases h with ⟨e, -, rfl⟩ | ⟨-, taken, rest, -, -, -, ⟨-, -, rfl⟩ | ⟨-, rfl⟩⟩
    · cases hb
    · exact ⟨_, _, rfl⟩
    · cases hb
  · obtain ⟨u, hu, hidle, -⟩ := everyCommandButPadencCompletes i s hi
    obtain rfl := Host.Outcome.next.inj (h.symm.trans hu)
    exact absurd (hidle.symm.trans hb) (by decide)

theorem engineTurn_keepsResults {s t : State} (h : engineTurn s = .next t) (hb : t.status.busy = true) :
    KeepsResults s t := by
  rcases engineTurn_cases h with rfl | ⟨-, -, ⟨-, -, rfl⟩ | ⟨i, -, hi⟩⟩
  · exact .refl _
  · cases hb
  · obtain ⟨ps, rng, rfl⟩ := exec_of_busy hi hb
    exact ⟨rfl, rfl, rfl, rfl, rfl, rfl, id⟩

/-- A CTRL write that leaves the block BUSY has not reset it, and writes IE alone (R33, R232). -/
theorem State.writeCtrl_keepsResults {s : State} (d : Word) (ht : (s.writeCtrl d).status.busy = true) :
    KeepsResults s (s.writeCtrl d) := by
  unfold State.writeCtrl at ht ⊢
  split_ifs at ht ⊢
  · cases ht
  · exact ⟨rfl, rfl, rfl, rfl, rfl, rfl, id⟩

/-- A STATUS write may clear DONE, and keeps ECODE (R34). -/
theorem State.writeStatus_keepsResults (s : State) (d : Word) : KeepsResults s (s.writeStatus d) :=
  ⟨rfl, rfl, rfl, rfl, rfl, rfl, Bool.and_elim_left⟩

/-- While BUSY no register write but the one that resets the block writes a result or a latch (R24, R35). -/
theorem State.writeReg_keepsResults {s : State} (hs : s.status.busy = true) (off : Nat) (d : Word)
    (ht : (s.writeReg off d).status.busy = true) : KeepsResults s (s.writeReg off d) := by
  unfold State.writeReg at ht ⊢
  split at ht
  · exact State.writeCtrl_keepsResults d ht
  · exact s.writeStatus_keepsResults d
  · rw [State.writeCmd_of_busy hs]
    exact ⟨rfl, rfl, rfl, rfl, rfl, rfl, id⟩
  all_goals exact ⟨rfl, rfl, rfl, rfl, rfl, rfl, id⟩

/-- While BUSY an access that is not held writes no ORAM (R58). -/
theorem State.accessWrite_keepsResults {s : State} {a : BusAccess} (hs : s.status.busy = true)
    (hh : s.holds a = false) (d : Word) (ht : (s.accessWrite a d).status.busy = true) :
    KeepsResults s (s.accessWrite a d) := by
  cases hregion : regionOf s.params (busOffset s.params a) with
  | regs =>
    simp only [State.accessWrite, hregion] at ht ⊢
    exact State.writeReg_keepsResults hs _ d ht
  | oram => simp [State.holds, hs, hregion] at hh
  | above =>
    simp only [State.accessWrite, hregion]
    exact .refl s

theorem busArrives_keepsResults {s t : State} {a : BusAccess} (h : busArrives s a = .next t)
    (hs : s.status.busy = true) (ht : t.status.busy = true) : KeepsResults s t := by
  obtain ⟨-, -, ⟨-, rfl⟩ | ⟨hh, rfl⟩⟩ := busArrives_next_cases h
  · exact ⟨rfl, rfl, rfl, rfl, rfl, rfl, id⟩
  obtain ⟨answer, heq | ⟨d, -, heq⟩⟩ := s.performAccess_cases a <;> rw [heq] at ht ⊢
  · exact (KeepsResults.refl s).to_answer _
  · exact (State.accessWrite_keepsResults hs hh d ht).to_answer _

/-- A sample of the pin that leaves a command running found it at 1 (R230). -/
theorem State.samplePin_keepsResults {s : State} (level : Bool) (ht : (s.samplePin level).status.busy = true) :
    KeepsResults s (s.samplePin level) := by
  cases level with
  | false => exact absurd (s.powerOn_busy.symm.trans ht) (by decide)
  | true => exact ⟨rfl, rfl, rfl, rfl, rfl, rfl, id⟩

/-- A step that finds and leaves a command running keeps the results, whoever makes the move. -/
theorem step_keepsResults {s t : State} (hs : s.status.busy = true) (hstep : step s = .next t)
    (ht : t.status.busy = true) : KeepsResults s t := by
  rcases step_next_cases hstep with ⟨a, rest, -, hidle, -⟩ | ⟨-, he⟩ | ⟨a, rest, -, ha⟩ | ⟨b, rest, -, rfl⟩ |
    ⟨level, rest, -, rfl⟩
  · exact absurd (hs.symm.trans hidle) (by decide)
  · exact (engineTurn_keepsResults he ht).of_ports
  · exact (busArrives_keepsResults ha hs ht).of_ports
  · exact ⟨rfl, rfl, rfl, rfl, rfl, rfl, id⟩
  · exact (State.samplePin_keepsResults level ht).of_ports

/-- Settles O56, by the frame of a step that leaves the command running. -/
theorem resultsAppearAtCompletion : Obligations.ResultsAppearAtCompletion := by
  intro s t hs hstep ht
  obtain ⟨hres, hflags, hcode, hx, horam, hlatch, hdone⟩ := step_keepsResults hs hstep ht
  exact ⟨hres, hflags, hcode, hx, horam, hlatch, Bool.eq_and_self.2 hdone⟩

end Sys2Proof.Machine
